-- ==== Sys2Proof/Word.lean ====
section
/-! DEFINITION. The word types of the block (00_scope.md R9, R12: a byte is 8 bits, a register 32 bits). -/

namespace Sys2Proof

/-- One byte of IN, OUT or DICT. -/
abbrev Byte := BitVec 8

/-- The CRC accumulator and a field returned by the bit extractor: 16 bits (R9). -/
abbrev Half := BitVec 16

/-- A register of the block's window: 32 bits (R9). -/
abbrev Word := BitVec 32

/-- An index into the dictionary RAM of 8192 bytes: 13 bits (R9, R28). -/
abbrev DictIdx := BitVec 13

end Sys2Proof
end

