-- ==== Sys2Proof/Config.lean ====
section
/-! DEFINITION. The configuration of the block: the parameters of 00_scope.md R6, R7, R8 and the OPEN parameters of
R10 that a rule of the block mentions. "It is a parameter of the step relation and never changes" (10_state.md R13). -/

namespace Sys2Proof

/-- The widest field one read returns (00_scope.md R7). -/
def maxField : Nat := 16

/-- The parameters. State carries one value of this type and no step changes it (log 4), so a statement about every
state is a statement about every configuration. -/
structure Config where
  /-- `MAX_OUT`: the greatest output limit a decode is accepted with (R6). -/
  maxOut : Nat := 104857600
  /-- `DICT_FILL`: the byte every dictionary cell holds when a decode starts (R8). -/
  dictFill : Byte := 0x00
  /-- `DICT4_INIT_POS`: the 4 KB write position when a decode starts (R8), 0..4095. -/
  dict4InitPos : BitVec 12 := 0
  /-- `DICT8_INIT_POS`: the 8 KB write position when a decode starts (R8), 0..8191. -/
  dict8InitPos : DictIdx := 0
  /-- `regBase`: where the platform places the register window (R10, R135). OPEN in the spec; the default is a
  DESIGN CHOICE (log 4). -/
  regBase : Nat := 0
  /-- `irqLine`: the line the platform routes the interrupt output to (R10, R128). OPEN in the spec; the default is a
  DESIGN CHOICE (log 4). -/
  irqLine : Nat := 0
  deriving DecidableEq, Repr

end Sys2Proof
end

