-- ==== Sys2Proof/Syntax.lean ====
section
/-! DEFINITION. The encoded input of the block: one constructor per row of spec/opcode_table.json. Ten command words,
the illegal command space, and the five kinds of token, which 30_encoding.md calls the block's "data-dependent,
variable-length instruction stream". -/

namespace Sys2Proof

/-- The five layouts in which encoded input reaches the block (30_encoding.md R49, R54, R57). -/
inductive Format where
  /-- A 32-bit word written to `CMD`. -/
  | cmd32
  /-- A token of the 4 KB bit stream: 9 or 17 bits. -/
  | tok4
  /-- The flag byte of an 8 KB group. -/
  | tok8Flag
  /-- An 8 KB literal: one byte, selected by a flag bit of 1. -/
  | tok8Literal
  /-- An 8 KB match: two bytes, selected by a flag bit of 0. -/
  | tok8Match
  deriving DecidableEq, Repr

/-- The instructions. -/
inductive Instr where
  /-- `NOP` (R73). -/
  | nop
  /-- `CRC_INIT` (R85). -/
  | crcInit
  /-- `CRC_BYTE d` (R86). -/
  | crcByte (d : Byte)
  /-- `CRC_BUF` (R87). -/
  | crcBuf
  /-- `BR_INIT` (R94). -/
  | brInit
  /-- `BR_READ n` (R95); legal for 1..16. -/
  | brRead (n : BitVec 5)
  /-- `DEC_STORE` (R105). -/
  | decStore
  /-- `DEC_LZ4K` (R109). -/
  | decLz4k
  /-- `DEC_LZ8K` (R115). -/
  | decLz8k
  /-- `DEC_EMPTY` (R107). -/
  | decEmpty
  /-- A word of the illegal command space (R53, R69). -/
  | illegalCommand (w : Word)
  /-- 4 KB literal token (R54, R111). -/
  | lz4Literal (b : Byte)
  /-- 4 KB match token: absolute position, length offset (R54, R55, R112). -/
  | lz4Match (p : BitVec 12) (n : BitVec 4)
  /-- 8 KB flag byte (R56, R57, R116). -/
  | lz8Flag (f : Byte)
  /-- 8 KB literal token (R57, R117). -/
  | lz8Literal (b : Byte)
  /-- 8 KB match token: distance back, length offset (R57, R58, R118). -/
  | lz8Match (offset : BitVec 12) (n : BitVec 4)
  deriving DecidableEq, Repr

end Sys2Proof
end

