-- ==== Sys2Proof/WellFormed.lean ====
section
/-! DEFINITION. Which terms of `Instr` an encoding stands for: the legality test of 30_encoding.md R52 on a word, and
the operand ranges of R49 and R51. -/

namespace Sys2Proof

/-- `legal(w)` of 30_encoding.md R52. -/
def legal (w : Word) : Bool :=
  w.extractLsb' 24 8 == 0 && w.extractLsb' 9 7 == 0
    && decide ((w.extractLsb' 0 4).toNat ≤ 9)
    && (if w.extractLsb' 0 4 = 0x5#4 then
          decide (1 ≤ (w.extractLsb' 4 5).toNat) && decide ((w.extractLsb' 4 5).toNat ≤ maxField)
        else w.extractLsb' 4 5 == 0)
    && (if w.extractLsb' 0 4 = 0x2#4 then true else w.extractLsb' 16 8 == 0)

/-- Well-formed: `BR_READ` has a width of 1..16 (R49, R52), and `illegalCommand` holds a word that is illegal (R53).
Every other operand has every value of its type (R60). -/
def Instr.wf : Instr → Bool
  | .brRead n => decide (1 ≤ n.toNat) && decide (n.toNat ≤ maxField)
  | .illegalCommand w => !legal w
  | .nop => true
  | .crcInit => true
  | .crcByte _ => true
  | .crcBuf => true
  | .brInit => true
  | .decStore => true
  | .decLz4k => true
  | .decLz8k => true
  | .decEmpty => true
  | .lz4Literal _ => true
  | .lz4Match _ _ => true
  | .lz8Flag _ => true
  | .lz8Literal _ => true
  | .lz8Match _ _ => true

end Sys2Proof
end

