-- ==== Sys2Proof/Decode.lean ====
section
/-! DEFINITION. Decoding and encoding (30_encoding.md). Fields are pulled out of the bits here and nowhere else; the
machine sees `Instr` only. A value `v` of `nbits` bits has bit 0 first in the stream, or least significant in the word. -/

namespace Sys2Proof

/-! ## Bytes and numbers -/

/-- The little-endian value of a byte list: byte k carries bits 8k+7..8k (20_memory.md R33, R35). -/
def ofLE : List Byte → Nat
  | [] => 0
  | b :: bs => b.toNat + 256 * ofLE bs

/-- The first `k` bytes of a number, least significant first (20_memory.md R35). -/
def toLE : Nat → Nat → List Byte
  | 0, _ => []
  | k + 1, v => BitVec.ofNat 8 v :: toLE k (v / 256)

/-! ## Command words (R49 to R53) -/

/-- `OP = w[3:0]` (R49). -/
def opField (w : Word) : BitVec 4 := w.extractLsb' 0 4

/-- `N = w[8:4]` (R49, R50). -/
def nField (w : Word) : BitVec 5 := w.extractLsb' 4 5

/-- `DATA = w[23:16]` (R49, R50). -/
def dataField (w : Word) : Byte := w.extractLsb' 16 8

/-- The word with the given fields and every reserved bit 0 (R49). -/
def commandWord (op : BitVec 4) (n : BitVec 5) (data : Byte) : Word :=
  (data.setWidth 32 <<< 16) ||| (n.setWidth 32 <<< 4) ||| op.setWidth 32

/-- One row of R51's table: the word must equal `pattern` on the bits of `mask`. -/
structure CommandRow where
  pattern : Word
  mask : Word
  deriving DecidableEq, Repr

/-- The word has the row's fixed bits. -/
def CommandRow.hits (r : CommandRow) (w : Word) : Bool := w &&& r.mask == r.pattern

def rowNop : CommandRow := { pattern := 0x00000000, mask := 0xFFFFFFFF }
def rowCrcInit : CommandRow := { pattern := 0x00000001, mask := 0xFFFFFFFF }
def rowCrcByte : CommandRow := { pattern := 0x00000002, mask := 0xFF00FFFF }
def rowCrcBuf : CommandRow := { pattern := 0x00000003, mask := 0xFFFFFFFF }
def rowBrInit : CommandRow := { pattern := 0x00000004, mask := 0xFFFFFFFF }
def rowBrRead : CommandRow := { pattern := 0x00000005, mask := 0xFFFFFE0F }
def rowDecStore : CommandRow := { pattern := 0x00000006, mask := 0xFFFFFFFF }
def rowDecLz4k : CommandRow := { pattern := 0x00000007, mask := 0xFFFFFFFF }
def rowDecLz8k : CommandRow := { pattern := 0x00000008, mask := 0xFFFFFFFF }
def rowDecEmpty : CommandRow := { pattern := 0x00000009, mask := 0xFFFFFFFF }

/-- The ten rows of R51, in the table's order. -/
def commandRows : List CommandRow :=
  [rowNop, rowCrcInit, rowCrcByte, rowCrcBuf, rowBrInit, rowBrRead, rowDecStore, rowDecLz4k, rowDecLz8k, rowDecEmpty]

/-- The command a word stands for, by R51's rows; a word that no row takes, or a `BR_READ` whose width is not 1..16,
is illegal (R52, R53). -/
def decodeCommand (w : Word) : Instr :=
  if rowNop.hits w then .nop
  else if rowCrcInit.hits w then .crcInit
  else if rowCrcByte.hits w then .crcByte (dataField w)
  else if rowCrcBuf.hits w then .crcBuf
  else if rowBrInit.hits w then .brInit
  else if rowBrRead.hits w && decide (1 ≤ (nField w).toNat) && decide ((nField w).toNat ≤ maxField) then
    .brRead (nField w)
  else if rowDecStore.hits w then .decStore
  else if rowDecLz4k.hits w then .decLz4k
  else if rowDecLz8k.hits w then .decLz8k
  else if rowDecEmpty.hits w then .decEmpty
  else .illegalCommand w

/-! ## Tokens (R54 to R58) -/

/-- A 4 KB literal from its field L (R54). -/
def lz4LiteralOf (l : Nat) : Instr := .lz4Literal (BitVec.ofNat 8 l)

/-- A 4 KB match from its fields P and N (R54, R55). -/
def lz4MatchOf (p n : Nat) : Instr := .lz4Match (BitVec.ofNat 12 p) (BitVec.ofNat 4 n)

/-- An 8 KB match from its two bytes: `offset = ((byte2 & 0xF0) << 4) | byte1`, length offset `byte2 & 0x0F`
(R57, R58). -/
def lz8MatchOf (byte1 byte2 : Byte) : Instr :=
  .lz8Match (((byte2.setWidth 12 &&& 0xF0#12) <<< 4) ||| byte1.setWidth 12) (byte2.extractLsb' 0 4)

/-! ## The decoder -/

/-- Why bits are no instruction. The bits run out; no bit pattern of full length is refused (R53 makes an illegal word
the instruction `illegalCommand`, R60 leaves no illegal token). -/
inductive DecodeError where
  /-- Fewer than 32 bits of a command word. -/
  | commandCutShort
  /-- Fewer bits than the token needs (R59). -/
  | tokenCutShort
  deriving DecidableEq, Repr

/-- The instruction that stands in the first bits of `v`, of which `nbits` exist (R59: the flag bit of a 4 KB token
tells its length). -/
def decode (f : Format) (nbits v : Nat) : Except DecodeError Instr :=
  match f with
  | .cmd32 => if nbits < 32 then .error .commandCutShort else .ok (decodeCommand (BitVec.ofNat 32 v))
  | .tok4 =>
    if nbits < 1 then .error .tokenCutShort
    else if v % 2 = 1 then
      if nbits < 9 then .error .tokenCutShort else .ok (lz4LiteralOf (v / 2))
    else
      if nbits < 17 then .error .tokenCutShort else .ok (lz4MatchOf (v / 2) (v / 2 ^ 13))
  | .tok8Flag => if nbits < 8 then .error .tokenCutShort else .ok (.lz8Flag (BitVec.ofNat 8 v))
  | .tok8Literal => if nbits < 8 then .error .tokenCutShort else .ok (.lz8Literal (BitVec.ofNat 8 v))
  | .tok8Match =>
    if nbits < 16 then .error .tokenCutShort
    else .ok (lz8MatchOf (BitVec.ofNat 8 v) (BitVec.ofNat 8 (v / 256)))

/-- The decoder on bytes as they lie in memory. -/
def decodeBytes (f : Format) (bs : List Byte) : Except DecodeError Instr := decode f (8 * bs.length) (ofLE bs)

/-! ## The encoder -/

/-- An encoded instruction: its layout, its width in bits and its bits as a number. -/
structure Encoded where
  format : Format
  nbits : Nat
  value : Nat
  deriving DecidableEq, Repr

/-- A command word as an encoding. -/
def encodedCommand (w : Word) : Encoded := { format := .cmd32, nbits := 32, value := w.toNat }

/-- The encoding of an instruction, written from R51's words and the token patterns of R54 and R57. -/
def encode : Instr → Encoded
  | .nop => encodedCommand (commandWord 0x0 0 0)
  | .crcInit => encodedCommand (commandWord 0x1 0 0)
  | .crcByte d => encodedCommand (commandWord 0x2 0 d)
  | .crcBuf => encodedCommand (commandWord 0x3 0 0)
  | .brInit => encodedCommand (commandWord 0x4 0 0)
  | .brRead n => encodedCommand (commandWord 0x5 n 0)
  | .decStore => encodedCommand (commandWord 0x6 0 0)
  | .decLz4k => encodedCommand (commandWord 0x7 0 0)
  | .decLz8k => encodedCommand (commandWord 0x8 0 0)
  | .decEmpty => encodedCommand (commandWord 0x9 0 0)
  | .illegalCommand w => encodedCommand w
  | .lz4Literal b => { format := .tok4, nbits := 9, value := 2 * b.toNat + 1 }
  | .lz4Match p n => { format := .tok4, nbits := 17, value := 2 * p.toNat + 2 ^ 13 * n.toNat }
  | .lz8Flag f => { format := .tok8Flag, nbits := 8, value := f.toNat }
  | .lz8Literal b => { format := .tok8Literal, nbits := 8, value := b.toNat }
  | .lz8Match o n =>
    { format := .tok8Match, nbits := 16,
      value := o.toNat % 256 + 256 * (n.toNat + 16 * (o.toNat / 256)) }

/-! ## The table's words -/

/-- The layout in which `decodeTableWord` reads a table word of `nbits` bits (DESIGN CHOICE, log 12): the table's rows
have five layouts that overlap as numbers, so the row's width in whole bytes picks one. Four bytes are a command word,
three the 17-bit token; two bytes are the 9-bit literal when bit 0 is 1 and no bit above bit 8 is set, else the two
match bytes; one byte is a flag byte, the item an 8 KB stream begins with. -/
def tableFormat (nbits w : Nat) : Format :=
  if nbits = 0 then .cmd32
  else if nbits ≤ 8 then .tok8Flag
  else if nbits ≤ 16 then (if w % 2 = 1 ∧ w < 512 then .tok4 else .tok8Match)
  else if nbits ≤ 24 then .tok4
  else .cmd32

/-- The bytes of a table word as the hardware stores them, bits above `nbits` being 0. -/
def tableBytes (nbits w : Nat) : List Byte := toLE 4 (if nbits = 0 then w else w % 2 ^ nbits)

/-- The instruction this decoder reads from a table word. -/
def decodeTableWord (nbits w : Nat) : Option Instr :=
  match decodeBytes (tableFormat nbits w) (tableBytes nbits w) with
  | .ok i => some i
  | .error _ => none

end Sys2Proof
end

