-- ==== Sys2Proof/Machine/State.lean ====
section
/-! DEFINITION. The state of one block (10_state.md R13): the registers of the window, the hidden engine state, the
dictionary RAM, the bound buffers; beside them the configuration, the turns still to come and the value the host read
last. Plain data. -/

namespace Sys2Proof.Machine

/-- A byte memory: cells with strictly rising indices. `IN` and `OUT` list the bytes the host bound, an index not listed
is not bound and has no value (log 6). `DICT` lists the cells that do not hold `DICT_FILL`, a cell not listed holds it
(log 5). -/
abbrev Mem := List Host.Cell

/-- The engine's sequencing state `PHASE` (R26). -/
inductive Phase where
  | idle
  | start
  | crcRun
  | storeRun
  | lz4Token
  | lz4Copy
  | lz8Token
  | lz8Copy
  deriving DecidableEq, Repr

/-- The field `STATUS.STOP` (R15): why the last decode command stopped. -/
inductive StopKind where
  | none
  | limit
  | exhaust
  | empty
  deriving DecidableEq, Repr

/-- `DSIZE` (R27): 4096 or 8192. -/
inductive DictSize where
  | k4
  | k8
  deriving DecidableEq, Repr

/-- The conditions (60_exceptions.md R122). -/
inductive Condition where
  | brShort
  | cmdErr
  | limitErr
  deriving DecidableEq, Repr

/-- One access of the host (R63, R64, 40_control.md R77). A register access has a width in bytes and a platform address
(R36, R135). A buffer access is at an index of `IN` or `OUT` (R31); that it moves one byte is the model's own
(DESIGN CHOICE, log 21), since R31 gives a width for the engine's accesses only. Binding gives the buffer's bytes and the
platform address of its byte 0 (R29, R32), all in one turn (log 21). -/
inductive HostOp where
  | regRead (width addr : Nat)
  | regWrite (width addr : Nat) (w : Word)
  | bindIn (base : Nat) (bytes : List Byte)
  | bindOut (base : Nat) (bytes : List Byte)
  | readIn (i : Word)
  | writeIn (i : Word) (b : Byte)
  | readOut (i : Word)
  | writeOut (i : Word) (b : Byte)
  deriving DecidableEq, Repr

/-- Who moves next (20_memory.md R42, log 1): the engine, the host with one access, the host in the loop that waits for
`BUSY = 0` (R62, log 15), or the platform with a reset (R140). -/
inductive Turn where
  | engine
  | host (op : HostOp)
  | wait
  | reset
  deriving DecidableEq, Repr

/-- Where a run stops without a meaning (60_exceptions.md R139, 93_implementation_defined.md U2 to U4). -/
inductive Fault where
  /-- Raised by the host write that issues a command which uses `IN`, with fewer than `IN_LEN` bytes of it bound (R143
  step 2, U4, log 6), and by an engine step that reads an index of `IN` that is not bound. Safe: the spec gives no
  meaning. -/
  | inputNotBound
  /-- Raised by the host write that issues a command which uses `OUT`, with fewer than `OUT_LIMIT` bytes of it bound (R143
  step 2, U4, log 6), and by an engine step that writes an index of `OUT` that is not bound. Safe. -/
  | outputNotBound
  /-- Raised by a host write to `IN[0..IN_LEN)` while `BUSY = 1` (R44, R146, U3). Safe. -/
  | inputWrittenWhileBusy
  /-- Raised by a host write to `OUT[0..OUT_LIMIT)` while `BUSY = 1` (R44, R146, U3). Safe. -/
  | outputWrittenWhileBusy
  /-- Raised by a host that binds a buffer while `BUSY = 1` (R77, log 8). Safe. -/
  | reboundWhileBusy
  /-- Raised by a host that binds `IN` and `OUT` so that they overlap (R32, U2, log 7). Safe. -/
  | buffersOverlap
  /-- Raised by a step of one instance of a system that leaves its buffers sharing memory with another instance's, one of
  the two an `OUT` (60_exceptions.md R136, log 17). Safe. -/
  | instancesOverlap
  /-- Raised by the engine in phase `START` with a latched word that is no legal command (log 13). No run reaches it,
  since only legal words are accepted (R67). Safe. -/
  | noLatchedCommand
  deriving DecidableEq, Repr

/-- What the model has no form for (60_exceptions.md R139). -/
inductive Refusal where
  /-- Raised by exec for an instruction that has no meaning yet. Safe. -/
  | notModelled (mnemonic : String)
  /-- Raised by a host register access that is not an aligned 32-bit word (R36, U1). Safe. -/
  | registerAccessForm
  /-- Raised by a host register access outside the block's 0x100-byte window: another device's (R135, log 10). Safe. -/
  | outsideWindow
  /-- Raised by a host access to a buffer index that is not bound: memory the block does not know (R31, log 9). Safe. -/
  | outsideBuffer
  /-- Raised by a host that binds more than 2^32 bytes, beyond the index space of `IN` and `OUT` (R31, log 16). Safe. -/
  | bufferTooLong
  deriving DecidableEq, Repr

/-- The state. -/
structure State where
  /-- The parameters (R13); no step changes them. -/
  cfg : Config
  /-- `CTRL.IRQ_EN` (R16). -/
  irqEn : Bool
  /-- `STATUS.DONE` (R15). -/
  done : Bool
  /-- `STATUS.STOP` (R15). -/
  stop : StopKind
  /-- `STATUS.BR_SHORT` (R15). -/
  brShort : Bool
  /-- `STATUS.CMD_ERR` (R15). -/
  cmdErr : Bool
  /-- `STATUS.LIMIT_ERR` (R15). -/
  limitErr : Bool
  /-- `IN_LEN` (R17). -/
  inLen : Word
  /-- `IN_POS` (R18). -/
  inPos : Word
  /-- `OUT_LIMIT` (R19). -/
  outLimit : Word
  /-- `OUT_COUNT` (R20). -/
  outCount : Word
  /-- `CRC_ACC` (R21). -/
  crcAcc : Half
  /-- `BR_DATA` (R22). -/
  brData : Half
  /-- `BR_STATE.BR_BUF` (R23). -/
  brBuf : BitVec 24
  /-- `BR_STATE.BR_COUNT` (R23). -/
  brCount : BitVec 5
  /-- `DICT_POS` (R24). -/
  dictPos : DictIdx
  /-- `PHASE` (R26). -/
  phase : Phase
  /-- `CUR_OP` (R27). -/
  curOp : BitVec 4
  /-- `CUR_N` (R27). -/
  curN : BitVec 5
  /-- `CUR_DATA` (R27). -/
  curData : Byte
  /-- `CRC_IDX` (R27). -/
  crcIdx : Word
  /-- `FLAG_BYTE` (R27). -/
  flagByte : Byte
  /-- `FLAG_LEFT` (R27), 0..8. -/
  flagLeft : Nat
  /-- `MATCH_SRC` (R27). -/
  matchSrc : DictIdx
  /-- `MATCH_REM` (R27), 0..18. -/
  matchRem : Nat
  /-- `DSIZE` (R27). -/
  dsize : DictSize
  /-- `DICT` (R28). -/
  dict : Mem
  /-- The platform address the host bound `IN` at (R10). -/
  inBase : Nat
  /-- `IN` (R29). -/
  inMem : Mem
  /-- The platform address the host bound `OUT` at (R10). -/
  outBase : Nat
  /-- `OUT` (R29). -/
  outMem : Mem
  /-- The model's own: the turns to come, the next one first; when none is left the engine runs freely (log 1). -/
  sched : List Turn
  /-- The model's own: the value the host's last read got (log 9). -/
  rdata : Word
  deriving DecidableEq, Repr

/-- The block right after reset under a configuration (70_reset_and_hazards.md R141), with no buffer bound yet
(log 16) and nothing scheduled (log 1). -/
def State.resetWith (cfg : Config) : State where
  cfg := cfg
  irqEn := false
  done := false
  stop := .none
  brShort := false
  cmdErr := false
  limitErr := false
  inLen := 0
  inPos := 0
  outLimit := 0
  outCount := 0
  crcAcc := 0
  brData := 0
  brBuf := 0
  brCount := 0
  dictPos := 0
  phase := .idle
  curOp := 0
  curN := 0
  curData := 0
  crcIdx := 0
  flagByte := 0
  flagLeft := 0
  matchSrc := 0
  matchRem := 0
  dsize := .k4
  dict := []
  inBase := 0
  inMem := []
  outBase := 0
  outMem := []
  sched := []
  rdata := 0

/-- The block right after reset, with the spec's default parameters. -/
def State.reset : State := State.resetWith {}

/-- What a step answers. -/
abbrev Result := Host.Outcome State Fault Refusal

end Sys2Proof.Machine
end

