-- ==== Sys2Proof/Machine/Flags.lean ====
section
/-! DEFINITION. The `STATUS` bits (10_state.md R15, R30): how each is set, cleared and read, the end of a command, and
the conditions. Raising a condition is all the block has in place of a trap (60_exceptions.md R122, R129): no control
transfer, no saved state, no vector, and so no return from one (R130). -/

namespace Sys2Proof.Machine

/-- `STATUS.BUSY = 1` exactly when `PHASE != IDLE` (R26). -/
def State.busy (s : State) : Bool := decide (s.phase ≠ .idle)

/-- The two bits of `STATUS.STOP` (R15). -/
def StopKind.code : StopKind → Nat
  | .none => 0
  | .limit => 1
  | .exhaust => 2
  | .empty => 3

/-- A condition's code: the number of its `STATUS` bit (R122). -/
def Condition.code : Condition → Nat
  | .brShort => 4
  | .cmdErr => 5
  | .limitErr => 6

/-- `STATUS` as the host reads it (R15): reserved bits 31:7 read 0. -/
def statusWord (s : State) : Word :=
  BitVec.ofNat 32 (s.busy.toNat + 2 * s.done.toNat + 4 * s.stop.code + 16 * s.brShort.toNat
    + 32 * s.cmdErr.toNat + 64 * s.limitErr.toNat)

/-- `raise c` (R12, R122): set the condition's sticky bit. -/
def raise (c : Condition) (s : State) : State :=
  match c with
  | .brShort => { s with brShort := true }
  | .cmdErr => { s with cmdErr := true }
  | .limitErr => { s with limitErr := true }

/-- `finish()` (40_control.md R72). -/
def finish (s : State) : State := { s with phase := .idle, done := true }

/-- `finish(k)` (R72). -/
def finishWith (k : StopKind) (s : State) : State := { s with stop := k, phase := .idle, done := true }

/-- `status_w1c(w)` (R65): bits 1, 4, 5 and 6 written as 1 are cleared, every other bit of the write is ignored. -/
def statusW1c (w : Word) (s : State) : State :=
  { s with
    done := s.done && !w.getLsbD 1
    brShort := s.brShort && !w.getLsbD 4
    cmdErr := s.cmdErr && !w.getLsbD 5
    limitErr := s.limitErr && !w.getLsbD 6 }

/-- `refuse_busy()` (R68). -/
def refuseBusy (s : State) : State := raise .cmdErr s

/-- `cfg_refused()` (R66). -/
def cfgRefused (s : State) : State := raise .cmdErr s

/-- `refuse_illegal()` (R69). -/
def refuseIllegal (s : State) : State := { raise .cmdErr s with done := true }

/-- `refuse_limit()` (43_decode_common.md R96). -/
def refuseLimit (s : State) : State := { raise .limitErr s with done := true }

/-- The interrupt output (60_exceptions.md R128), a function of state. -/
def irq (s : State) : Bool := s.done && s.irqEn

/-- The level the block drives on a line of the platform: its interrupt on `irqLine`, nothing elsewhere (R128). -/
def irqAt (line : Nat) (s : State) : Bool := decide (line = s.cfg.irqLine) && irq s

end Sys2Proof.Machine
end

