-- ==== Sys2Proof/Machine/Ops.lean ====
section
/-! DEFINITION. The shared operations over memory and registers: one-byte accesses to IN, OUT and DICT (20_memory.md
R31, R37), the start of a decode and the dictionary controller (43_decode_common.md R97, R98), the output writer (R99)
and the match copy (R100). The block has no trap; its one shared "exception" operation is `raise` in Flags.lean
(60_exceptions.md R122, R129). -/

namespace Sys2Proof.Machine

/-! ## Byte memories -/

/-- The listed byte at an index. -/
def Mem.lookup : Mem → Nat → Option Byte
  | [], _ => none
  | (k, b) :: m, a => if k = a then some b else Mem.lookup m a

/-- Write one byte. `dflt` is what an unlisted index reads as: writing that value unlists the index. -/
def Mem.set (dflt : Option Byte) : Mem → Nat → Byte → Mem
  | [], a, v => if some v = dflt then [] else [(a, v)]
  | (k, b) :: m, a, v =>
    if a < k then (if some v = dflt then (k, b) :: m else (a, v) :: (k, b) :: m)
    else if a = k then (if some v = dflt then m else (a, v) :: m)
    else (k, b) :: Mem.set dflt m a v

/-- The canonical form from index `lo` on: indices strictly rising and below `size`, no entry equal to what an unlisted
index reads as. -/
def Mem.wfFrom (size : Nat) (dflt : Option Byte) : Nat → Mem → Bool
  | _, [] => true
  | lo, (k, b) :: m => decide (lo ≤ k) && decide (k < size) && decide (some b ≠ dflt) && Mem.wfFrom size dflt (k + 1) m

/-- The canonical form. -/
def Mem.wf (size : Nat) (dflt : Option Byte) (m : Mem) : Bool := Mem.wfFrom size dflt 0 m

/-- The cells of a byte sequence that begins at index `k`. -/
def Mem.ofBytesFrom : Nat → List Byte → Mem
  | _, [] => []
  | k, b :: bs => (k, b) :: Mem.ofBytesFrom (k + 1) bs

/-- A bound buffer that holds exactly these bytes. -/
def Mem.ofBytes (bytes : List Byte) : Mem := Mem.ofBytesFrom 0 bytes

/-- The indices from `k` up to and without `n` are all listed, as the first cells of the memory. -/
def Mem.coversFrom (n : Nat) : Nat → Mem → Bool
  | k, [] => decide (n ≤ k)
  | k, (a, _) :: m => decide (n ≤ k) || (decide (a = k) && Mem.coversFrom n (k + 1) m)

/-- The first `n` indices are all bound. -/
def Mem.covers (n : Nat) (m : Mem) : Bool := Mem.coversFrom n 0 m

/-- The number of indices of IN and of OUT (R31). -/
def bufferSize : Nat := 2 ^ 32

/-- `DICT_RAM_SIZE` (00_scope.md R5). -/
def dictRamSize : Nat := 8192

/-- All memories of the state have their canonical form. -/
def State.memWf (s : State) : Bool :=
  Mem.wf bufferSize none s.inMem && Mem.wf bufferSize none s.outMem && Mem.wf dictRamSize (some s.cfg.dictFill) s.dict

/-- `MemRead(IN, i, 1)`; `none` where the host bound nothing (log 6). -/
def inByte (s : State) (i : Word) : Option Byte := Mem.lookup s.inMem i.toNat

/-- The byte of OUT at an index; `none` where the host bound nothing. The engine never reads OUT (R31). -/
def outByte (s : State) (i : Word) : Option Byte := Mem.lookup s.outMem i.toNat

/-- `MemRead(DICT, i, 1)`. -/
def dictByte (s : State) (i : DictIdx) : Byte := (Mem.lookup s.dict i.toNat).getD s.cfg.dictFill

/-- `MemWrite(OUT, i, 1, b)`; `none` where the host bound nothing (log 6). -/
def setOut (i : Word) (b : Byte) (s : State) : Option State :=
  match outByte s i with
  | none => none
  | some _ => some { s with outMem := Mem.set none s.outMem i.toNat b }

/-- `MemWrite(DICT, i, 1, b)`. -/
def setDict (i : DictIdx) (b : Byte) (s : State) : State :=
  { s with dict := Mem.set (some s.cfg.dictFill) s.dict i.toNat b }

/-! ## The dictionary -/

/-- The number of bytes of the active dictionary (R5, R27). -/
def DictSize.size : DictSize → Nat
  | .k4 => 4096
  | .k8 => 8192

/-- `(i + 1) mod DSIZE` (R79). -/
def nextIdx (d : DictSize) (i : DictIdx) : DictIdx := BitVec.ofNat 13 ((i.toNat + 1) % d.size)

/-- `CUR_OP in {DEC_LZ4K, DEC_LZ8K}` (R99). -/
def usesDict (s : State) : Bool := decide (s.curOp = 0x7#4) || decide (s.curOp = 0x8#4)

/-! ## Decodes -/

/-- `dec_init` (R97): a fresh cursor and an empty output. -/
def decInit (s : State) : State := { s with inPos := 0, brBuf := 0, brCount := 0, outCount := 0 }

/-- `dict_init` (R98). Every one of the 8192 cells then reads `DICT_FILL`: no cell is listed. -/
def dictInit (d : DictSize) (pos : DictIdx) (s : State) : State :=
  { s with
    dict := []
    dsize := d
    dictPos := pos
    matchSrc := 0
    matchRem := 0
    flagByte := 0
    flagLeft := 0 }

/-- The dictionary controller's append (R99). -/
def appendDict (b : Byte) (s : State) : State :=
  { setDict s.dictPos b s with dictPos := nextIdx s.dsize s.dictPos }

/-- `emit(b)` (R99); `none` where OUT is not bound at `OUT_COUNT` (log 6). -/
def emit (b : Byte) (s : State) : Option State :=
  match setOut s.outCount b s with
  | none => none
  | some t =>
    let u := { t with outCount := t.outCount + 1 }
    some (if usesDict u then appendDict b u else u)

/-- `copyByte()` (R100): the dictionary byte is read first. -/
def copyByte (s : State) : Option State :=
  match emit (dictByte s s.matchSrc) s with
  | none => none
  | some t => some { t with matchSrc := nextIdx t.dsize t.matchSrc, matchRem := t.matchRem - 1 }

/-- A next state, or the fault of an OUT index that is not bound. -/
def orOutputNotBound : Option State → Result
  | none => .fault .outputNotBound
  | some t => .next t

end Sys2Proof.Machine
end

