-- ==== Sys2Proof/Machine/Operands.lean ====
section
/-! DEFINITION. Where the operands of commands and tokens come from: the bit cursor and `readBits`
(42_bit_extractor.md R89 to R91), the latched command fields (10_state.md R27), and operand assembly
(30_encoding.md R50, R55, R58). -/

namespace Sys2Proof.Machine

/-! ## The bit cursor -/

/-- `availBits` (R90). A cursor past `IN_LEN` has no bytes left. -/
def availBits (s : State) : Nat := s.brCount.toNat + 8 * (s.inLen.toNat - s.inPos.toNat)

/-- Pull one byte into the bit buffer (R91); `none` where IN is not bound. -/
def pullByte (s : State) : Option State :=
  match inByte s s.inPos with
  | none => none
  | some b =>
    some { s with
      brBuf := s.brBuf ||| (b.setWidth 24 <<< s.brCount.toNat)
      inPos := s.inPos + 1
      brCount := s.brCount + 8 }

/-- `while BR_COUNT < n` pull a byte (R91), for at most `fuel` bytes. -/
def pullTo (n : Nat) : Nat → State → Option State
  | 0, s => some s
  | fuel + 1, s =>
    if s.brCount.toNat < n then
      match pullByte s with
      | none => none
      | some t => pullTo n fuel t
    else some s

/-- What `readBits` returns. -/
inductive ReadBits where
  /-- The field's value, and the state with the cursor moved past it. -/
  | ok (v : Half) (s : State)
  /-- Too few bits are left: nothing pulled, nothing consumed. -/
  | short
  /-- A byte below `IN_LEN` that the host did not bind. -/
  | notBound

/-- `readBits(n)` for 1..16 (R91). Two pulls reach 16 bits from any count. -/
def readBits (n : Nat) (s : State) : ReadBits :=
  if availBits s < n then .short
  else
    match pullTo n 2 s with
    | none => .notBound
    | some t =>
      .ok (BitVec.ofNat 16 (t.brBuf.toNat % 2 ^ n))
        { t with brBuf := t.brBuf >>> n, brCount := t.brCount - BitVec.ofNat 5 n }

/-! ## Latched commands -/

/-- The accepted command's word, from its latched fields (10_state.md R27, 40_control.md R67). -/
def latchedWord (s : State) : Word := commandWord s.curOp s.curN s.curData

/-- The commands that use `IN`, by OP (70_reset_and_hazards.md R143 step 2). -/
def usesInput (op : BitVec 4) : Bool :=
  decide (op = 0x3#4) || decide (op = 0x5#4) || decide (op = 0x6#4) || decide (op = 0x7#4) || decide (op = 0x8#4)

/-- The commands that use `OUT`, by OP (R143 step 2): the same that `OUT_LIMIT` bounds (R67). -/
def usesOutput (op : BitVec 4) : Bool := decide (op = 0x6#4) || decide (op = 0x7#4) || decide (op = 0x8#4)

/-- Latch the fields of a word and leave `IDLE` (R67, the accepted case). -/
def accept (w : Word) (s : State) : State :=
  { s with
    curOp := opField w
    curN := nField w
    curData := dataField w
    done := false
    stop := .none
    phase := .start }

/-! ## Token operands -/

/-- `length = N + 3` (R55, R58). -/
def matchLength (n : BitVec 4) : Nat := n.toNat + 3

/-- The copy source of an 8 KB match: `(DICT_POS - offset) mod 8192` (R58, R118). -/
def matchSource8 (pos : DictIdx) (offset : BitVec 12) : DictIdx := pos - offset.setWidth 13

end Sys2Proof.Machine
end

