-- ==== Sys2Proof/Machine/BitExtractor.lean ====
section
/-! DEFINITION. The bit extractor's commands (42_bit_extractor.md R94, R95). -/

namespace Sys2Proof.Machine

/-- `BR_INIT` (R94). -/
def execBrInit (s : State) : Result := .next (finish { s with inPos := 0, brBuf := 0, brCount := 0 })

/-- `BR_READ n` (R95). -/
def execBrRead (n : BitVec 5) (s : State) : Result :=
  match readBits n.toNat s with
  | .ok v t => .next (finish { t with brData := v })
  | .short => .next (finish (raise .brShort s))
  | .notBound => .fault .inputNotBound

end Sys2Proof.Machine
end

