-- ==== Sys2Proof/Machine/Control.lean ====
section
/-! DEFINITION. `NOP` and the illegal command space (40_control.md R68, R69, R73). -/

namespace Sys2Proof.Machine

/-- `NOP` (R73). -/
def execNop (s : State) : Result := .next (finish s)

/-- A word of the illegal command space: refused by the block and reported (R69); while `BUSY = 1` any word is dropped
first (R67, R68). -/
def execIllegalCommand (_w : Word) (s : State) : Result :=
  .next (if s.busy then refuseBusy s else refuseIllegal s)

end Sys2Proof.Machine
end

