-- ==== Sys2Proof/Machine/Crc.lean ====
section
/-! DEFINITION. The CRC-16 generator (41_crc.md). -/

namespace Sys2Proof.Machine

/-- One shift of R81: out of bit 15, and the polynomial in if that bit was 1. -/
def crcShift (acc : Half) : Half := if acc.getLsbD 15 then (acc <<< 1) ^^^ 0x1021#16 else acc <<< 1

/-- `k` shifts. -/
def crcShifts : Nat → Half → Half
  | 0, acc => acc
  | k + 1, acc => crcShifts k (crcShift acc)

/-- `crcStep(acc, b)` (R81). -/
def crcStep (acc : Half) (b : Byte) : Half := crcShifts 8 (acc ^^^ (b.setWidth 16 <<< 8))

/-- `crcStep` folded over a byte sequence (R83). -/
def crcFold (acc : Half) (bytes : List Byte) : Half := bytes.foldl crcStep acc

/-- `crc16(B)` (R82, R83): start value 0x0000, no final XOR. -/
def crc16 (bytes : List Byte) : Half := crcFold 0x0000 bytes

/-- `CRC_INIT` (R85). -/
def execCrcInit (s : State) : Result := .next (finish { s with crcAcc := 0x0000 })

/-- `CRC_BYTE d` (R86). -/
def execCrcByte (d : Byte) (s : State) : Result := .next (finish { s with crcAcc := crcStep s.crcAcc d })

/-- `CRC_BUF` (R87): the START step; the bytes are read by `crcRunStep`. -/
def execCrcBuf (s : State) : Result := .next { s with crcIdx := 0, phase := .crcRun }

/-- The engine step of phase `CRC_RUN` (R88). -/
def crcRunStep (s : State) : Result :=
  if s.inLen ≤ s.crcIdx then .next (finish s)
  else
    match inByte s s.crcIdx with
    | none => .fault .inputNotBound
    | some b => .next { s with crcAcc := crcStep s.crcAcc b, crcIdx := s.crcIdx + 1 }

end Sys2Proof.Machine
end

