-- ==== Sys2Proof/Machine/Store.lean ====
section
/-! DEFINITION. `DEC_STORE` and `DEC_EMPTY` (43_decode_common.md R105 to R107), and the step that copies one byte of a
match, which the two LZSS routines share (R100, R101, 44_lzss4k.md R113, 45_lzss8k.md R119). -/

namespace Sys2Proof.Machine

/-- `DEC_STORE` (R105): the START step. -/
def execDecStore (s : State) : Result := .next { decInit s with phase := .storeRun }

/-- `DEC_EMPTY` (R107). -/
def execDecEmpty (s : State) : Result := .next (finishWith .empty (decInit s))

/-- The engine step of phase `STORE_RUN` (R106). -/
def storeRunStep (s : State) : Result :=
  if s.outCount = s.outLimit then .next (finishWith .limit s)
  else if s.inLen ≤ s.inPos then .next (finishWith .exhaust s)
  else
    match inByte s s.inPos with
    | none => .fault .inputNotBound
    | some b => orOutputNotBound (emit b { s with inPos := s.inPos + 1 })

/-- One byte of the current match; the phase goes back to `token` when none is left (R113, R119). -/
def copyStep (token : Phase) (s : State) : Result :=
  if s.outCount = s.outLimit then .next (finishWith .limit s)
  else
    match copyByte s with
    | none => .fault .outputNotBound
    | some t => .next (if t.matchRem = 0 then { t with phase := token } else t)

end Sys2Proof.Machine
end

