-- ==== Sys2Proof/Machine/Lzss4k.lean ====
section
/-! DEFINITION. The 4 KB LZSS routine (44_lzss4k.md). A token's fields are read from the bit cursor by `fetchLz4`
(Fetch.lean, R110 to R112); the meanings here are what the step does with them. -/

namespace Sys2Proof.Machine

/-- `DEC_LZ4K` (R109): the START step. -/
def execDecLz4k (s : State) : Result :=
  .next { dictInit .k4 (s.cfg.dict4InitPos.setWidth 13) (decInit s) with phase := .lz4Token }

/-- Literal token (R111), its bits read. -/
def execLz4Literal (b : Byte) (s : State) : Result := orOutputNotBound (emit b s)

/-- Match token (R112), its bits read: an absolute position, and a length of `n + 3`. -/
def execLz4Match (p : BitVec 12) (n : BitVec 4) (s : State) : Result :=
  .next { s with matchSrc := p.setWidth 13, matchRem := matchLength n, phase := .lz4Copy }

/-- The engine step of phase `LZ4_COPY` (R113). -/
def lz4CopyStep (s : State) : Result := copyStep .lz4Token s

end Sys2Proof.Machine
end

