-- ==== Sys2Proof/Machine/Lzss8k.lean ====
section
/-! DEFINITION. The 8 KB simplified LZSS routine (45_lzss8k.md). Items are read whole bytes at `IN_POS` by `fetchLz8`
(Fetch.lean, R116 to R118); the meanings here are what the step does with them. No Huffman stage exists (R121). -/

namespace Sys2Proof.Machine

/-- `DEC_LZ8K` (R115): the START step. -/
def execDecLz8k (s : State) : Result :=
  .next { dictInit .k8 s.cfg.dict8InitPos (decInit s) with phase := .lz8Token }

/-- Flag byte of a group (R116), its byte read. -/
def execLz8Flag (f : Byte) (s : State) : Result := .next { s with flagByte := f, flagLeft := 8 }

/-- Literal token (R117), its byte read. -/
def execLz8Literal (b : Byte) (s : State) : Result := orOutputNotBound (emit b s)

/-- Match token (R118), its two bytes read: a distance back from `DICT_POS`, and a length of `n + 3`. -/
def execLz8Match (offset : BitVec 12) (n : BitVec 4) (s : State) : Result :=
  .next { s with matchSrc := matchSource8 s.dictPos offset, matchRem := matchLength n, phase := .lz8Copy }

/-- The engine step of phase `LZ8_COPY` (R119). -/
def lz8CopyStep (s : State) : Result := copyStep .lz8Token s

end Sys2Proof.Machine
end

