-- ==== Sys2Proof/Machine/Dispatch.lean ====
section
/-! DEFINITION. What each instruction does: one arm per constructor. -/

namespace Sys2Proof.Machine

/-- The meaning of an instruction. -/
def exec (i : Instr) (s : State) : Host.Outcome State Fault Refusal :=
  match i with
  | .nop => Sys2Proof.Machine.execNop s
  | .crcInit => Sys2Proof.Machine.execCrcInit s
  | .crcByte d => Sys2Proof.Machine.execCrcByte d s
  | .crcBuf => Sys2Proof.Machine.execCrcBuf s
  | .brInit => Sys2Proof.Machine.execBrInit s
  | .brRead n => Sys2Proof.Machine.execBrRead n s
  | .decStore => Sys2Proof.Machine.execDecStore s
  | .decLz4k => Sys2Proof.Machine.execDecLz4k s
  | .decLz8k => Sys2Proof.Machine.execDecLz8k s
  | .decEmpty => Sys2Proof.Machine.execDecEmpty s
  | .illegalCommand w => Sys2Proof.Machine.execIllegalCommand w s
  | .lz4Literal b => Sys2Proof.Machine.execLz4Literal b s
  | .lz4Match p n => Sys2Proof.Machine.execLz4Match p n s
  | .lz8Flag f => Sys2Proof.Machine.execLz8Flag f s
  | .lz8Literal b => Sys2Proof.Machine.execLz8Literal b s
  | .lz8Match offset n => Sys2Proof.Machine.execLz8Match offset n s

end Sys2Proof.Machine
end

