-- ==== Sys2Proof/Machine/HostPort.lean ====
section
/-! DEFINITION. The host's side of the block: register reads and writes (40_control.md R63 to R66), accesses to the bound
buffers and binding (R77, 20_memory.md R44), and the platform's reset (70_reset_and_hazards.md R140 to R142). -/

namespace Sys2Proof.Machine

/-! ## Registers -/

/-- The registers of the window (10_state.md section 2). -/
inductive Reg where
  | cmd
  | status
  | ctrl
  | inLen
  | inPos
  | outLimit
  | outCount
  | crcAcc
  | brData
  | brState
  | dictPos
  deriving DecidableEq, Repr

/-- The register's offset in the window (10_state.md section 2). -/
def Reg.offset : Reg → Nat
  | .cmd => 0x00
  | .status => 0x04
  | .ctrl => 0x08
  | .inLen => 0x0C
  | .inPos => 0x10
  | .outLimit => 0x14
  | .outCount => 0x18
  | .crcAcc => 0x1C
  | .brData => 0x20
  | .brState => 0x24
  | .dictPos => 0x28

/-- Every register, in the order of the window. -/
def Reg.all : List Reg :=
  [.cmd, .status, .ctrl, .inLen, .inPos, .outLimit, .outCount, .crcAcc, .brData, .brState, .dictPos]

/-- The register at an offset; `none` for the reserved offsets (R25). -/
def regAt (off : Nat) : Option Reg := Reg.all.find? (fun r => r.offset == off)

/-- A register as the host reads it, reserved bits 0 (R63). -/
def readReg (s : State) : Reg → Word
  | .cmd => 0
  | .status => statusWord s
  | .ctrl => BitVec.ofNat 32 s.irqEn.toNat
  | .inLen => s.inLen
  | .inPos => s.inPos
  | .outLimit => s.outLimit
  | .outCount => s.outCount
  | .crcAcc => s.crcAcc.setWidth 32
  | .brData => s.brData.setWidth 32
  | .brState => (s.brBuf.setWidth 32 <<< 8) ||| s.brCount.setWidth 32
  | .dictPos => s.dictPos.setWidth 32

/-- What a host read of an offset returns (R63); a reserved offset reads 0 (R25). -/
def readOffset (off : Nat) (s : State) : Word :=
  match regAt off with
  | none => 0
  | some r => readReg s r

/-- Write an operand register, which is refused while `BUSY = 1` (R64, R66). -/
def writeIdle (s : State) (written : State) : State := if s.busy then cfgRefused s else written

/-- A host write of a register other than `CMD` (R64): read-only registers ignore it and set no status bit (R25).
A write to `CMD` is a command (Fetch.lean) and none of this. -/
def writeReg (r : Reg) (w : Word) (s : State) : State :=
  match r with
  | .cmd => s
  | .status => statusW1c w s
  | .ctrl => { s with irqEn := w.getLsbD 0 }
  | .inLen => writeIdle s { s with inLen := w }
  | .inPos => s
  | .outLimit => writeIdle s { s with outLimit := w }
  | .outCount => s
  | .crcAcc => writeIdle s { s with crcAcc := w.extractLsb' 0 16 }
  | .brData => s
  | .brState => s
  | .dictPos => s

/-- A host write of an offset other than that of `CMD`; a reserved offset ignores it (R25). -/
def writeOffset (off : Nat) (w : Word) (s : State) : State :=
  match regAt off with
  | none => s
  | some r => writeReg r w s

/-- The size of the window in bytes (R9). -/
def windowSize : Nat := 0x100

/-- The offset a register access reaches: refused outside the window (log 10), and unless it is one aligned 32-bit word
(R36). -/
def accessOffset (width addr : Nat) (s : State) : Except Refusal Nat :=
  if addr < s.cfg.regBase ∨ s.cfg.regBase + windowSize ≤ addr then .error .outsideWindow
  else if width ≠ 4 ∨ (addr - s.cfg.regBase) % 4 ≠ 0 then .error .registerAccessForm
  else .ok (addr - s.cfg.regBase)

/-- A host register read (R63): no side effect on the block, the value goes to the host (log 9). -/
def hostRegRead (width addr : Nat) (s : State) : Result :=
  match accessOffset width addr s with
  | .error r => .refused r
  | .ok off => .next { s with rdata := readOffset off s }

/-! ## Buffers -/

/-- The platform addresses of the two buffers share a byte (R32). -/
def buffersOverlap (inBase : Nat) (inMem : Mem) (outBase : Nat) (outMem : Mem) : Bool :=
  inMem.any (fun c => outMem.any (fun d => inBase + c.1 == outBase + d.1))

/-- Bind IN to the given bytes (R29, R77). -/
def hostBindIn (base : Nat) (bytes : List Byte) (s : State) : Result :=
  if s.busy then .fault .reboundWhileBusy
  else if bufferSize < bytes.length then .refused .bufferTooLong
  else if buffersOverlap base (Mem.ofBytes bytes) s.outBase s.outMem then .fault .buffersOverlap
  else .next { s with inBase := base, inMem := Mem.ofBytes bytes }

/-- Bind OUT to memory that holds the given bytes (R29, R77). -/
def hostBindOut (base : Nat) (bytes : List Byte) (s : State) : Result :=
  if s.busy then .fault .reboundWhileBusy
  else if bufferSize < bytes.length then .refused .bufferTooLong
  else if buffersOverlap s.inBase s.inMem base (Mem.ofBytes bytes) then .fault .buffersOverlap
  else .next { s with outBase := base, outMem := Mem.ofBytes bytes }

/-- The host reads a byte of a buffer, at any time (R43, R146); the width is log 21. -/
def hostReadByte (b : Option Byte) (s : State) : Result :=
  match b with
  | none => .refused .outsideBuffer
  | some v => .next { s with rdata := v.setWidth 32 }

/-- The host writes a byte of IN: a breach of its duty while `BUSY = 1` below `IN_LEN` (R44); the width is log 21. -/
def hostWriteIn (i : Word) (b : Byte) (s : State) : Result :=
  if s.busy ∧ i < s.inLen then .fault .inputWrittenWhileBusy
  else
    match inByte s i with
    | none => .refused .outsideBuffer
    | some _ => .next { s with inMem := Mem.set none s.inMem i.toNat b }

/-- The host writes a byte of OUT: a breach of its duty while `BUSY = 1` below `OUT_LIMIT` (R44); the width is log 21. -/
def hostWriteOut (i : Word) (b : Byte) (s : State) : Result :=
  if s.busy ∧ i < s.outLimit then .fault .outputWrittenWhileBusy
  else
    match setOut i b s with
    | none => .refused .outsideBuffer
    | some t => .next t

/-! ## Waiting and reset -/

/-- One read of the loop that waits for `BUSY = 0` (R62). While it reads 1 an engine step and another read follow
(log 15); `rest` is what the host does after the loop. -/
def waitTurn (rest : List Turn) (s : State) : State :=
  if s.busy then { s with sched := .engine :: .wait :: rest, rdata := statusWord s }
  else { s with sched := rest, rdata := statusWord s }

/-- The platform's reset (R140 to R142): every piece of the block's state as after reset, in one event; the buffers, the
parameters and what is the host's stay (log 11). -/
def platformReset (s : State) : State :=
  { State.resetWith s.cfg with
    inBase := s.inBase
    inMem := s.inMem
    outBase := s.outBase
    outMem := s.outMem
    sched := s.sched
    rdata := s.rdata }

end Sys2Proof.Machine
end

