-- ==== Sys2Proof/Machine/Fetch.lean ====
section
/-! DEFINITION. What the next turn is, and the instruction it runs if it runs one: the latched command in phase `START`
(40_control.md R71), the token at the cursor in the token phases (44_lzss4k.md R110, 45_lzss8k.md R116), the illegal word
the host writes (R69). Moving past an instruction's bits happens here, its meaning in `exec` (log 3). -/

namespace Sys2Proof.Machine

/-- A turn either runs an instruction in the state that remains after its bits are taken, or is done. -/
inductive Fetched where
  | run (i : Instr) (s : State)
  | done (r : Result)

/-- The input ran out (43_decode_common.md R102): fields already read stay consumed. -/
def exhausted (s : State) : Fetched := .done (.next (finishWith .exhaust s))

/-- The output bound, tested before any input is taken (R101). -/
def underLimit (s : State) (f : Fetched) : Fetched :=
  if s.outCount = s.outLimit then .done (.next (finishWith .limit s)) else f

/-- The latched command (R71). Only legal words are latched (R67), so the other case is no run's (log 13). -/
def fetchCommand (s : State) : Fetched :=
  match legal (latchedWord s) with
  | true => .run (decodeCommand (latchedWord s)) s
  | false => .done (.fault .noLatchedCommand)

/-- Read a field, and go on with its value in the state past it. -/
def withField (n : Nat) (s : State) (k : Half → State → Fetched) : Fetched :=
  match readBits n s with
  | .ok v t => k v t
  | .short => exhausted s
  | .notBound => .done (.fault .inputNotBound)

/-- The 4 KB token at the bit cursor (R110 to R112). -/
def fetchLz4 (s : State) : Fetched :=
  underLimit s
    (withField 1 s fun flag s1 =>
      if flag = 1 then withField 8 s1 fun l s2 => .run (lz4LiteralOf l.toNat) s2
      else withField 12 s1 fun p s2 => withField 4 s2 fun n s3 => .run (lz4MatchOf p.toNat n.toNat) s3)

/-- Read the byte at `IN_POS` and go on past it. -/
def withByte (s : State) (k : Byte → State → Fetched) : Fetched :=
  match inByte s s.inPos with
  | none => .done (.fault .inputNotBound)
  | some b => k b { s with inPos := s.inPos + 1 }

/-- Take the next flag bit (R116): the lowest one left. -/
def useFlag (s : State) : State := { s with flagByte := s.flagByte >>> 1, flagLeft := s.flagLeft - 1 }

/-- The 8 KB item at `IN_POS` (R116 to R118): a flag byte when no flag bit is left, else the token the next flag bit
selects. A match with fewer than two bytes left takes neither (log 14). -/
def fetchLz8 (s : State) : Fetched :=
  underLimit s
    (if s.flagLeft = 0 then
      if s.inLen ≤ s.inPos then exhausted s
      else withByte s fun f s1 => .run (.lz8Flag f) s1
    else if s.flagByte.getLsbD 0 then
      if s.inLen ≤ s.inPos then exhausted (useFlag s)
      else withByte (useFlag s) fun b s1 => .run (.lz8Literal b) s1
    else
      if s.inLen.toNat - s.inPos.toNat < 2 then exhausted (useFlag s)
      else withByte (useFlag s) fun b1 s1 => withByte s1 fun b2 s2 => .run (lz8MatchOf b1 b2) s2)

/-- The engine's turn (R70): the one enabled step of the phase, and none in `IDLE`, which keeps all state (R138). -/
def engineTurn (s : State) : Fetched :=
  match s.phase with
  | .idle => .done (.next s)
  | .start => fetchCommand s
  | .crcRun => .done (crcRunStep s)
  | .storeRun => .done (storeRunStep s)
  | .lz4Token => fetchLz4 s
  | .lz4Copy => .done (lz4CopyStep s)
  | .lz8Token => fetchLz8 s
  | .lz8Copy => .done (lz8CopyStep s)

/-- The command is one that `OUT_LIMIT` bounds: `w[3:0] in {0x6, 0x7, 0x8}` (R67). -/
def boundedCommand (w : Word) : Bool := usesOutput (opField w)

/-- The host issues a command with less bound than it uses: a fault, whatever the command would have reached
(70_reset_and_hazards.md R143, 10_state.md R29, log 6). -/
def issueFault (w : Word) (s : State) : Option Fault :=
  if usesInput (opField w) && !Mem.covers s.inLen.toNat s.inMem then some .inputNotBound
  else if usesOutput (opField w) && !Mem.covers s.outLimit.toNat s.outMem then some .outputNotBound
  else none

/-- `command(w)` (R67), in its order: busy, illegal, over the limit, accepted; a word that would be accepted is a fault of
the host when its buffers are not bound (R143). -/
def commandTurn (w : Word) (s : State) : Fetched :=
  if s.busy then .done (.next (refuseBusy s))
  else if !legal w then .run (.illegalCommand w) s
  else if boundedCommand w ∧ s.cfg.maxOut < s.outLimit.toNat then .done (.next (refuseLimit s))
  else
    match issueFault w s with
    | some f => .done (.fault f)
    | none => .done (.next (accept w s))

/-- A host register write (R64). -/
def hostRegWrite (width addr : Nat) (w : Word) (s : State) : Fetched :=
  match accessOffset width addr s with
  | .error r => .done (.refused r)
  | .ok off =>
    if off = Reg.offset .cmd then commandTurn w s else .done (.next (writeOffset off w s))

/-- One access of the host. -/
def hostTurn (op : HostOp) (s : State) : Fetched :=
  match op with
  | .regRead width addr => .done (hostRegRead width addr s)
  | .regWrite width addr w => hostRegWrite width addr w s
  | .bindIn base bytes => .done (hostBindIn base bytes s)
  | .bindOut base bytes => .done (hostBindOut base bytes s)
  | .readIn i => .done (hostReadByte (inByte s i) s)
  | .writeIn i b => .done (hostWriteIn i b s)
  | .readOut i => .done (hostReadByte (outByte s i) s)
  | .writeOut i b => .done (hostWriteOut i b s)

/-- The next turn (20_memory.md R42): the scheduled one, which is then over; with none scheduled the engine's. -/
def nextTurn (s : State) : Fetched :=
  match s.sched with
  | [] => engineTurn s
  | .engine :: rest => engineTurn { s with sched := rest }
  | .host op :: rest => hostTurn op { s with sched := rest }
  | .wait :: rest => .done (.next (waitTurn rest s))
  | .reset :: rest => .done (.next (platformReset { s with sched := rest }))

/-! ## Placing an instruction where the next step takes it (log 12) -/

/-- A command word: latched as accepted, so that the engine's START step is next; an illegal word, which no acceptance
latches, as the host's next write to `CMD`. -/
def placeCommand (w : Word) (s : State) : State :=
  if legal w then { accept w s with sched := [] }
  else { s with phase := .idle, sched := [.host (.regWrite 4 s.cfg.regBase w)] }

/-- A running dictionary decode whose input is `bytes`, with room for one output byte. -/
def placeDecode (op : BitVec 4) (d : DictSize) (pos : DictIdx) (p : Phase) (bytes : List Byte) (s : State) : State :=
  { dictInit d pos (decInit s) with
    curOp := op
    curN := 0
    curData := 0
    done := false
    stop := .none
    phase := p
    inLen := BitVec.ofNat 32 bytes.length
    inMem := Mem.ofBytes bytes
    outLimit := 1
    outBase := s.inBase + bytes.length
    outMem := Mem.ofBytes [0x00]
    sched := [] }

/-- A 4 KB token at the bit cursor of a running 4 KB decode. -/
def placeLz4 (bytes : List Byte) (s : State) : State :=
  placeDecode 0x7 .k4 (s.cfg.dict4InitPos.setWidth 13) .lz4Token bytes s

/-- An 8 KB item at `IN_POS` of a running 8 KB decode, with the flag bits left that select it. -/
def placeLz8 (flagByte : Byte) (flagLeft : Nat) (bytes : List Byte) (s : State) : State :=
  { placeDecode 0x8 .k8 s.cfg.dict8InitPos .lz8Token bytes s with flagByte := flagByte, flagLeft := flagLeft }

/-- The state in which the next step runs the table word. -/
def placeTableWord (nbits w : Nat) (s : State) : State :=
  match tableFormat nbits w with
  | .cmd32 => placeCommand (BitVec.ofNat 32 (ofLE (tableBytes nbits w))) s
  | .tok4 => placeLz4 (tableBytes nbits w) s
  | .tok8Flag => placeLz8 0 0 (tableBytes nbits w) s
  | .tok8Literal => placeLz8 1 1 (tableBytes nbits w) s
  | .tok8Match => placeLz8 0 1 (tableBytes nbits w) s

end Sys2Proof.Machine
end

