-- ==== Sys2Proof/Machine/Step.lean ====
section
/-! DEFINITION. One step of the machine: one turn of the host, the engine or the platform (20_memory.md R38, R42). -/

namespace Sys2Proof.Machine

/-- Run the instruction of a turn that has one. -/
def runTurn : Fetched → Result
  | .run i s => exec i s
  | .done r => r

/-- One step: the next turn, with the instruction it runs. -/
def step (s : State) : Host.Outcome State Fault Refusal := runTurn (nextTurn s)

/-- `s` with the table word `w` of `nbits` bits placed so that the next step runs it (log 12). -/
def State.withFetchWord (s : State) (nbits w : Nat) : State := placeTableWord nbits w s

end Sys2Proof.Machine
end

