-- ==== Sys2Proof/Machine/HostProgram.lean ====
section
/-! DEFINITION. Host programs as lists of turns: the assembly forms and pseudo-instructions of 30_encoding.md R61 and R62,
and the host's choice of a routine for an archive method (43_decode_common.md R108). -/

namespace Sys2Proof.Machine

/-- `wr REG, w` (R61). -/
def wr (cfg : Config) (r : Reg) (w : Word) : Turn := .host (.regWrite 4 (cfg.regBase + r.offset) w)

/-- `rd REG` (R61). -/
def rd (cfg : Config) (r : Reg) : Turn := .host (.regRead 4 (cfg.regBase + r.offset))

/-- A command by its mnemonic: one host write of its word to `CMD` (R61). -/
def command (cfg : Config) (i : Instr) : Turn := wr cfg .cmd (BitVec.ofNat 32 (encode i).value)

/-- `clr imm` (R62). -/
def clr (cfg : Config) (w : Word) : Turn := wr cfg .status w

/-- `crc16` (R62). -/
def pseudoCrc16 (cfg : Config) : List Turn := [command cfg .crcInit, .wait, command cfg .crcBuf, .wait]

/-- `bits n` (R62). -/
def pseudoBits (cfg : Config) (n : BitVec 5) : List Turn := [command cfg (.brRead n), .wait, rd cfg .brData]

/-- `decode.m len, lim` (R62), for the decode command `m`. -/
def pseudoDecode (cfg : Config) (m : Instr) (len lim : Word) : List Turn :=
  [wr cfg .inLen len, wr cfg .outLimit lim, command cfg m, .wait]

/-- How a method tag's payload is to be decoded (R108). -/
inductive MethodKind where
  | store
  | lz4k
  | lz8k
  | directory
  | unrecognized
  deriving DecidableEq, Repr

/-- The host's request for an archive entry (R108). The map from 5-character tags to kinds is the OPEN `methodOf`
(00_scope.md R10), an argument here. A directory marker leaves `IN_LEN` and `OUT_LIMIT` alone. -/
def methodRequest (cfg : Config) (methodOf : String → MethodKind) (tag : String) (compressedSize originalSize : Word) :
    List Turn :=
  match methodOf tag with
  | .store => pseudoDecode cfg .decStore compressedSize originalSize
  | .lz4k => pseudoDecode cfg .decLz4k compressedSize originalSize
  | .lz8k => pseudoDecode cfg .decLz8k compressedSize originalSize
  | .directory => [command cfg .decEmpty, .wait]
  | .unrecognized => pseudoDecode cfg .decStore compressedSize compressedSize

/-- The text of a command (R61); tokens and illegal words have none. -/
def commandText : Instr → Option String
  | .nop => some "nop"
  | .crcInit => some "crc.init"
  | .crcByte d => some ("crc.byte " ++ toString d.toNat)
  | .crcBuf => some "crc.buf"
  | .brInit => some "br.init"
  | .brRead n => some ("br.read " ++ toString n.toNat)
  | .decStore => some "dec.store"
  | .decLz4k => some "dec.lz4k"
  | .decLz8k => some "dec.lz8k"
  | .decEmpty => some "dec.empty"
  | .illegalCommand _ => none
  | .lz4Literal _ => none
  | .lz4Match _ _ => none
  | .lz8Flag _ => none
  | .lz8Literal _ => none
  | .lz8Match _ _ => none

end Sys2Proof.Machine
end

