-- ==== Sys2Proof/Machine/System.lean ====
section
/-! DEFINITION. Several instances of the block in one system (60_exceptions.md R136): each has its own state, nothing is
shared, and a turn of one is no turn of another. Instances whose buffers share memory break a duty of the host, which is
a fault (log 17). -/

namespace Sys2Proof.Machine

/-- The instances, by number. -/
abbrev System := List State

/-- Two instances share a byte of memory that one of them writes: their OUT buffers overlap (R136), or the OUT of one
overlaps the IN of the other (log 17). -/
def sharesMemory (s t : State) : Bool :=
  buffersOverlap s.outBase s.outMem t.outBase t.outMem || buffersOverlap s.inBase s.inMem t.outBase t.outMem
    || buffersOverlap t.inBase t.inMem s.outBase s.outMem

/-- One step of instance `k`; a number with no instance does nothing. -/
def systemStep (k : Nat) (sys : System) : Host.Outcome System Fault Refusal :=
  match sys[k]? with
  | none => .next sys
  | some s =>
    match step s with
    | .next t => if (sys.eraseIdx k).any (sharesMemory t) then .fault .instancesOverlap else .next (sys.set k t)
    | .fault r => .fault r
    | .refused r => .refused r

end Sys2Proof.Machine
end

