-- ==== Sys2Proof/Safety.lean ====
section
/-! DEFINITION. The terms statements use: runs of the machine, the launch premise (70_reset_and_hazards.md R144), the
invariant of the state, the bit stream a cursor stands in (20_memory.md R33), and what a running dictionary decode keeps
(44_lzss4k.md R114, 45_lzss8k.md R120). -/

namespace Sys2Proof.Machine

/-! ## Runs -/

/-- `k` steps, stopping at the first fault or refusal. -/
def stepN : Nat → State → Result
  | 0, s => .next s
  | k + 1, s =>
    match step s with
    | .next t => stepN k t
    | .fault r => .fault r
    | .refused r => .refused r

/-- The engine moves next: nothing is scheduled, or an engine turn is. -/
def State.engineNext (s : State) : Prop := s.sched = [] ∨ ∃ rest, s.sched = .engine :: rest

/-- The state with one more turn in front of its schedule. -/
def State.withTurn (s : State) (turn : Turn) : State := { s with sched := turn :: s.sched }

/-- A host write of one aligned word to an offset of the window (R36), as the next turn. -/
def State.writing (s : State) (off : Nat) (w : Word) : State :=
  s.withTurn (.host (.regWrite 4 (s.cfg.regBase + off) w))

/-- A host read of one aligned word at an offset of the window (R36), as the next turn. -/
def State.reading (s : State) (off : Nat) : State := s.withTurn (.host (.regRead 4 (s.cfg.regBase + off)))

/-- The state after its next turn is taken off the schedule. -/
def State.popped (s : State) : State := { s with sched := s.sched.tail }

/-! ## The launch premise (R144) -/

/-- Every index of IN below `IN_LEN` is bound (R143 step 2). -/
def State.inBound (s : State) : Prop := ∀ i : Word, i < s.inLen → (inByte s i).isSome

/-- Every index of OUT below `OUT_LIMIT` is bound (R143 step 2). -/
def State.outBound (s : State) : Prop := ∀ i : Word, i < s.outLimit → (outByte s i).isSome

/-- The two buffers share no platform address (R32, R144 b). -/
def State.buffersDisjoint (s : State) : Prop := buffersOverlap s.inBase s.inMem s.outBase s.outMem = false

/-- The turn a state takes next (log 1). -/
def State.turn (s : State) : Turn := s.sched.headD .engine

/-- What the host and the platform may do while a command runs (R144 c, d): everything but a write to `IN_LEN`,
`OUT_LIMIT`, `CRC_ACC`, `IN[0..IN_LEN)` or `OUT[0..OUT_LIMIT)`, a rebinding, a reset, and an access the model refuses. -/
def Turn.allowed (s : State) : Turn → Bool
  | .engine => true
  | .wait => true
  | .reset => false
  | .host (.regRead width addr) =>
    match accessOffset width addr s with
    | .ok _ => true
    | .error _ => false
  | .host (.regWrite width addr _) =>
    match accessOffset width addr s with
    | .ok off => !decide (off = 0x0C ∨ off = 0x14 ∨ off = 0x1C)
    | .error _ => false
  | .host (.bindIn _ _) => false
  | .host (.bindOut _ _) => false
  | .host (.readIn i) => (inByte s i).isSome
  | .host (.writeIn i _) => decide (s.inLen ≤ i) && (inByte s i).isSome
  | .host (.readOut i) => (outByte s i).isSome
  | .host (.writeOut i _) => decide (s.outLimit ≤ i) && (outByte s i).isSome

/-- Each of the next `k` turns is an allowed one, until the command has ended (R74, R144 c). -/
def State.undisturbed : Nat → State → Bool
  | 0, _ => true
  | k + 1, s =>
    !s.busy || (s.turn.allowed s &&
      match step s with
      | .next t => State.undisturbed k t
      | .fault _ => true
      | .refused _ => true)

/-- How many of the next `k` turns are the engine's. -/
def engineTurns : Nat → State → Nat
  | 0, _ => 0
  | k + 1, s =>
    (if s.turn = .engine then 1 else 0) +
      match step s with
      | .next t => engineTurns k t
      | .fault _ => 0
      | .refused _ => 0

/-- The launch premise of a claim about one accepted command (R144): its next turn is the host's write of the word, and
`k` more turns are looked at. -/
structure State.Launched (s : State) (w : Word) (k : Nat) : Prop where
  /-- (a) -/
  idle : s.busy = false
  /-- The host writes the word to `CMD`, in the form (d) asks for. -/
  issued : s.turn = .host (.regWrite 4 (s.cfg.regBase + 0x00) w)
  /-- The block accepts it (R67). -/
  legal : legal w = true
  limit : usesOutput (opField w) = true → s.outLimit.toNat ≤ s.cfg.maxOut
  /-- (b), of the buffers the command uses (R143 step 2). -/
  inBound : usesInput (opField w) = true → s.inBound
  outBound : usesOutput (opField w) = true → s.outBound
  disjoint : usesOutput (opField w) = true → s.buffersDisjoint
  /-- (c), (d) -/
  undisturbed : State.undisturbed k (accept w s.popped) = true

/-- The state with what the host may change while a command runs taken from another one: `IRQ_EN`, the W1C conditions,
the buffers' bytes outside the command's, its turns to come and what it read. -/
def State.withHostOf (u t : State) : State :=
  { u with
    irqEn := t.irqEn
    brShort := t.brShort
    cmdErr := t.cmdErr
    limitErr := t.limitErr
    inMem := t.inMem
    outMem := t.outMem
    sched := t.sched
    rdata := t.rdata }

/-- `t` is `u` but for the bytes of OUT and for what the host did meanwhile, which left IN below `IN_LEN` alone; when the
host was `silent` it did nothing. -/
structure UpToHost (silent : Prop) (u t : State) : Prop where
  block : t = u.withHostOf t
  input : ∀ i : Word, i < u.inLen → inByte t i = inByte u i
  host : silent → t = { u with outMem := t.outMem }

/-! ## The invariant -/

/-- The latched operation runs in this phase (40_control.md R70, R71). -/
def opOfPhase : Phase → Option (BitVec 4)
  | .idle => none
  | .start => none
  | .crcRun => some 0x3
  | .storeRun => some 0x6
  | .lz4Token => some 0x7
  | .lz4Copy => some 0x7
  | .lz8Token => some 0x8
  | .lz8Copy => some 0x8

/-- The phases of a decode (43_decode_common.md R101). -/
def Phase.decoding : Phase → Bool
  | .idle => false
  | .start => false
  | .crcRun => false
  | .storeRun => true
  | .lz4Token => true
  | .lz4Copy => true
  | .lz8Token => true
  | .lz8Copy => true

/-- The dictionary a phase works on, if any. -/
def Phase.dict : Phase → Option DictSize
  | .idle => none
  | .start => none
  | .crcRun => none
  | .storeRun => none
  | .lz4Token => some .k4
  | .lz4Copy => some .k4
  | .lz8Token => some .k8
  | .lz8Copy => some .k8

/-- The phases that copy a match. -/
def Phase.copying : Phase → Bool
  | .lz4Copy => true
  | .lz8Copy => true
  | .idle => false
  | .start => false
  | .crcRun => false
  | .storeRun => false
  | .lz4Token => false
  | .lz8Token => false

/-- What holds after reset and is kept by every step. -/
structure State.Inv (s : State) : Prop where
  /-- Every memory has its canonical form, with no cell outside its space (R31). -/
  memories : s.memWf = true
  /-- IN and OUT share no byte of the platform's memory (R32). -/
  disjoint : s.buffersDisjoint
  /-- `BR_BUF >> BR_COUNT = 0` (R23, R89). -/
  bufferTop : s.brBuf >>> s.brCount.toNat = 0
  /-- `BR_COUNT <= 7` at every engine-step boundary (R23, R92). -/
  lookahead : s.brCount.toNat ≤ 7
  /-- `FLAG_LEFT` is 0..8 (R27). -/
  flagLeft : s.flagLeft ≤ 8
  /-- `FLAG_BYTE` holds only the flag bits not yet used (R27). -/
  flagByte : s.flagByte.toNat < 2 ^ s.flagLeft
  /-- `MATCH_REM` is 0..18 (R27). -/
  matchRem : s.matchRem ≤ 18
  /-- The write position lies in the active dictionary (R24). -/
  dictPos : s.dictPos.toNat < s.dsize.size
  /-- The copy source lies in the active dictionary. -/
  matchSrc : s.matchSrc.toNat < s.dsize.size
  /-- A started command is legal (R67). -/
  latched : s.phase = .start → legal (latchedWord s) = true
  /-- The phase is one of the latched command's (R70, R71). -/
  phaseOp : ∀ op, opOfPhase s.phase = some op → s.curOp = op
  /-- The phase's dictionary is the active one (R98). -/
  phaseDict : ∀ d, s.phase.dict = some d → s.dsize = d
  /-- `CRC_IDX` stays within the input (R88). -/
  crcIdx : s.phase = .crcRun → s.crcIdx ≤ s.inLen
  /-- `IN_POS <= IN_LEN` within a decode (R79). -/
  inPos : s.phase.decoding = true → s.inPos ≤ s.inLen
  /-- `OUT_COUNT <= OUT_LIMIT` within a decode (R20, R79). -/
  outCount : s.phase.decoding = true → s.outCount ≤ s.outLimit
  /-- `OUT_LIMIT <= MAX_OUT` while a command that the limit bounds is under way (R79, R96). -/
  outLimit : s.phase ≠ .idle → (s.curOp = 0x6#4 ∨ s.curOp = 0x7#4 ∨ s.curOp = 0x8#4) → s.outLimit.toNat ≤ s.cfg.maxOut
  /-- A copying phase has a byte left to copy (R113, R119). -/
  copying : s.phase.copying = true → 1 ≤ s.matchRem
  /-- The 8 KB routine never uses the bit buffer (R115). -/
  lz8Cursor : s.phase.dict = some .k8 → s.brCount = 0
  /-- The buffers a command uses are bound while it runs (R29, R143 step 2). -/
  inBound : s.busy = true → usesInput s.curOp = true → s.inBound
  outBound : s.busy = true → usesOutput s.curOp = true → s.outBound

/-! ## The bit stream (R33) -/

/-- Bit `k` of what is left of the stream at the bit cursor: the bits held in the buffer, then the bits of the bytes
from `IN_POS` on, least significant first; `none` past the end. -/
def streamBit (s : State) (k : Nat) : Option Bool :=
  if k < s.brCount.toNat then some (s.brBuf.getLsbD k)
  else
    let j := k - s.brCount.toNat
    if s.inPos.toNat + j / 8 < s.inLen.toNat then
      (Mem.lookup s.inMem (s.inPos.toNat + j / 8)).map (fun b => b.getLsbD (j % 8))
    else none

/-- The next `n` bits of the stream as one number, the first bit least significant (R33, R54); a missing bit counts 0. -/
def streamValue (s : State) : Nat → Nat
  | 0 => 0
  | n + 1 => streamValue s n + 2 ^ n * ((streamBit s n).getD false).toNat

/-- The cursor registers of `t` stand `n` bits further in the stream than those of `s`, within the input. -/
structure CursorMoved (n : Nat) (s t : State) : Prop where
  stream : ∀ k, streamBit t k = streamBit s (k + n)
  avail : availBits t + n = availBits s
  lookahead : t.brCount.toNat ≤ 7
  top : t.brBuf >>> t.brCount.toNat = 0

/-- Two states that differ at most in the flags: `STATUS` bits other than BUSY, and `IRQ_EN`. -/
def State.sameButFlags (s t : State) : Prop :=
  t = { s with
    irqEn := t.irqEn
    done := t.done
    stop := t.stop
    brShort := t.brShort
    cmdErr := t.cmdErr
    limitErr := t.limitErr }

/-! ## A running dictionary decode (R114, R120) -/

/-- The write position and the last `DSIZE` emitted bytes in the dictionary, for a decode that began writing at `init`;
the cells no byte has reached hold `DICT_FILL` (R98). -/
structure State.Tracks (s : State) (init : Nat) : Prop where
  pos : s.dictPos.toNat = (init + s.outCount.toNat) % s.dsize.size
  window : ∀ j : Nat, j < s.outCount.toNat → s.outCount.toNat ≤ j + s.dsize.size →
    outByte s (BitVec.ofNat 32 j) = some (dictByte s (BitVec.ofNat 13 ((init + j) % s.dsize.size)))
  fresh : ∀ j : Nat, s.outCount.toNat ≤ j → j < s.dsize.size →
    dictByte s (BitVec.ofNat 13 ((init + j) % s.dsize.size)) = s.cfg.dictFill

/-- The dictionary of a running 4 KB or 8 KB decode tracks its output. -/
def State.DictTracks (s : State) : Prop :=
  match s.phase.dict with
  | none => True
  | some .k4 => s.Tracks s.cfg.dict4InitPos.toNat
  | some .k8 => s.Tracks s.cfg.dict8InitPos.toNat

end Sys2Proof.Machine
end

