-- ==== Sys2Proof/Certificates/Slice0/Obligations.lean ====
section
/-! DEFINITION. The statements for the provers. Each docstring names the rules of spec/ it formalises; where a clause is
the model's own choice, it names the log entry. A state that a step leaves is written as the old one with the fields that
change, so that each statement is a frame too; memories are compared byte by byte. -/

open Sys2Proof Sys2Proof.Machine

/-! ## Encoding -/

/-- Decoding the encoding of a well-formed instruction gives it back, with every operand (R49 to R58). -/
def Obligations.DecodeOfEncodeIsTheInstruction : Prop :=
  ∀ i : Instr, i.wf = true →
    (encode i).value < 2 ^ (encode i).nbits
      ∧ decode (encode i).format (encode i).nbits (encode i).value = .ok i

/-- What is decoded is well-formed, and its encoding is the bits it was decoded from: decoding drops none (R49 to R60). -/
def Obligations.EncodeOfDecodeIsTheBits : Prop :=
  ∀ (f : Format) (n v : Nat) (i : Instr), decode f n v = .ok i →
    i.wf = true ∧ (encode i).format = f ∧ (encode i).nbits ≤ n ∧ (encode i).value = v % 2 ^ (encode i).nbits

/-- R52, its conditions in plain arithmetic: a word that meets them decodes to a command that is well-formed and no
illegal one; any other word is illegal, and written while idle is refused as R69 says. -/
def Obligations.LegalWordsAreExactlyTheCommands : Prop :=
  ∀ w : Word,
    let c : Prop := w.toNat / 2 ^ 24 = 0 ∧ w.toNat / 2 ^ 9 % 2 ^ 7 = 0 ∧ w.toNat % 2 ^ 4 ≤ 9
      ∧ (if w.toNat % 2 ^ 4 = 5 then 1 ≤ w.toNat / 2 ^ 4 % 2 ^ 5 ∧ w.toNat / 2 ^ 4 % 2 ^ 5 ≤ 16
          else w.toNat / 2 ^ 4 % 2 ^ 5 = 0)
      ∧ (if w.toNat % 2 ^ 4 = 2 then True else w.toNat / 2 ^ 16 % 2 ^ 8 = 0)
    (c → (decodeCommand w).wf = true ∧ ∀ x, decodeCommand w ≠ .illegalCommand x)
      ∧ (¬c → decodeCommand w = .illegalCommand w
          ∧ ∀ s : State, s.busy = false → step (s.writing 0x00 w) = .next { s with cmdErr := true, done := true })

/-- Eleven command words (V-ENC), one illegal word (V-ENC-11) and five tokens decode to what they stand for. The tokens are
the first of V-LZ4-1, a 4 KB match written out from R54 (flag 0, position 0, length field 12), flag byte and literal of
V-LZ8-2, and the match of V-SRC-7. -/
def Obligations.SpecWordsDecodeAsTheSpecSays : Prop :=
  decodeCommand 0x00000000 = .nop ∧ decodeCommand 0x00000001 = .crcInit ∧ decodeCommand 0x00410002 = .crcByte 0x41
    ∧ decodeCommand 0x00000003 = .crcBuf ∧ decodeCommand 0x00000004 = .brInit ∧ decodeCommand 0x000000C5 = .brRead 12
    ∧ decodeCommand 0x00000105 = .brRead 16 ∧ decodeCommand 0x00000006 = .decStore
    ∧ decodeCommand 0x00000007 = .decLz4k ∧ decodeCommand 0x00000008 = .decLz8k ∧ decodeCommand 0x00000009 = .decEmpty
    ∧ decodeCommand 0x00000115 = .illegalCommand 0x00000115
    ∧ decodeBytes .tok4 [0x83, 0x0A] = .ok (.lz4Literal 0x41)
    ∧ decodeBytes .tok4 [0x00, 0x80, 0x01] = .ok (.lz4Match 0x000 0xC)
    ∧ decodeBytes .tok8Flag [0x03] = .ok (.lz8Flag 0x03) ∧ decodeBytes .tok8Literal [0x41] = .ok (.lz8Literal 0x41)
    ∧ decodeBytes .tok8Match [0x23, 0x10] = .ok (.lz8Match 0x123 0x0)

/-- R58: offset, length and copy source of an 8 KB match, in plain arithmetic. -/
def Obligations.Lz8MatchOperandAssembly : Prop :=
  ∀ (byte1 byte2 : Byte) (pos : DictIdx),
    ∃ (o : BitVec 12) (n : BitVec 4), lz8MatchOf byte1 byte2 = .lz8Match o n
      ∧ o.toNat = byte2.toNat / 16 * 256 + byte1.toNat
      ∧ matchLength n = byte2.toNat % 16 + 3 ∧ 3 ≤ matchLength n ∧ matchLength n ≤ 18
      ∧ ((matchSource8 pos o).toNat : Int) = ((pos.toNat : Int) - (o.toNat : Int)) % 8192

/-! ## The host's registers -/

/-- R63: a host read returns the register at the offset with its reserved bits 0 (10_state.md section 2), 0 for `CMD`
and every reserved offset, and has no side effect on the block. The value goes to the host's `rdata` (the model's own
field, log 9). -/
def Obligations.RegisterReadsReturnTheRegister : Prop :=
  ∀ s : State,
    (∀ off, off < 0x100 → off % 4 = 0 → step (s.reading off) = .next { s with rdata := readOffset off s })
    ∧ (∀ off, off = 0x00 ∨ 0x2C ≤ off → readOffset off s = 0)
    ∧ readOffset 0x04 s = statusWord s ∧ (readOffset 0x08 s).toNat = s.irqEn.toNat ∧ readOffset 0x0C s = s.inLen
    ∧ readOffset 0x10 s = s.inPos ∧ readOffset 0x14 s = s.outLimit ∧ readOffset 0x18 s = s.outCount
    ∧ (readOffset 0x1C s).toNat = s.crcAcc.toNat ∧ (readOffset 0x20 s).toNat = s.brData.toNat
    ∧ (readOffset 0x24 s).toNat = s.brCount.toNat + 2 ^ 8 * s.brBuf.toNat
    ∧ (readOffset 0x28 s).toNat = s.dictPos.toNat

/-- Every bit of `STATUS` (R15). -/
def Obligations.StatusBits : Prop :=
  ∀ s : State,
    (statusWord s).getLsbD 0 = decide (s.phase ≠ .idle) ∧ (statusWord s).getLsbD 1 = s.done
      ∧ ((statusWord s).extractLsb' 2 2).toNat
          = (match s.stop with | .none => 0 | .limit => 1 | .exhaust => 2 | .empty => 3)
      ∧ (statusWord s).getLsbD 4 = s.brShort ∧ (statusWord s).getLsbD 5 = s.cmdErr
      ∧ (statusWord s).getLsbD 6 = s.limitErr ∧ ∀ b, 7 ≤ b → (statusWord s).getLsbD b = false

/-- R65: bits 1, 4, 5 and 6 written as 1 are cleared, and nothing else of `STATUS` or of the block changes. -/
def Obligations.StatusIsWriteOneToClear : Prop :=
  ∀ (s : State) (w : Word), ∃ t, step (s.writing 0x04 w) = .next t
    ∧ t = { s with done := t.done, brShort := t.brShort, cmdErr := t.cmdErr, limitErr := t.limitErr }
    ∧ statusWord t = statusWord s &&& ~~~(w &&& 0x00000072#32)

/-- R64, R66: an operand register is written while idle, and while busy the write is refused with `CMD_ERR` and changes
nothing else; `IRQ_EN` is written at any time (R16). -/
def Obligations.OperandRegisterWrites : Prop :=
  ∀ (s : State) (w : Word),
    (s.busy = false →
      step (s.writing 0x0C w) = .next { s with inLen := w }
        ∧ step (s.writing 0x14 w) = .next { s with outLimit := w }
        ∧ step (s.writing 0x1C w) = .next { s with crcAcc := w.extractLsb' 0 16 })
    ∧ (s.busy = true → ∀ off, off = 0x0C ∨ off = 0x14 ∨ off = 0x1C →
        step (s.writing off w) = .next { s with cmdErr := true })
    ∧ step (s.writing 0x08 w) = .next { s with irqEn := w.getLsbD 0 }

/-- R25: a write to a read-only register or a reserved offset is ignored and sets no status bit; a reserved offset
reads 0. -/
def Obligations.ReadOnlyAndReservedWritesAreIgnored : Prop :=
  ∀ (s : State) (w : Word) (off : Nat), off < 0x100 → off % 4 = 0 →
    off = 0x10 ∨ off = 0x18 ∨ off = 0x20 ∨ off = 0x24 ∨ off = 0x28 ∨ 0x2C ≤ off →
      step (s.writing off w) = .next s ∧ (0x2C ≤ off → readOffset off s = 0)

/-- R36: a register access of another width, or at an unaligned offset, is refused. -/
def Obligations.NarrowOrUnalignedAccessIsRefused : Prop :=
  ∀ (s : State) (width off : Nat) (w : Word), off < 0x100 → width ≠ 4 ∨ off % 4 ≠ 0 →
    step (s.withTurn (.host (.regRead width (s.cfg.regBase + off)))) = .refused .registerAccessForm
      ∧ step (s.withTurn (.host (.regWrite width (s.cfg.regBase + off) w))) = .refused .registerAccessForm

/-- R128: `IRQ = STATUS.DONE & CTRL.IRQ_EN`, as the host reads the two; it is driven on `irqLine` and no other line. -/
def Obligations.InterruptIsDoneAndEnabled : Prop :=
  ∀ s : State, irq s = ((readOffset 0x04 s).getLsbD 1 && (readOffset 0x08 s).getLsbD 0)
    ∧ irqAt s.cfg.irqLine s = irq s ∧ ∀ line, line ≠ s.cfg.irqLine → irqAt line s = false

/-! ## Commands -/

/-- R68: any word written to `CMD` while busy is dropped. -/
def Obligations.CommandWhileBusyIsDropped : Prop :=
  ∀ (s : State) (w : Word), s.busy = true → step (s.writing 0x00 w) = .next { s with cmdErr := true }

/-- R69: an illegal word written while idle runs as the illegal command: `CMD_ERR` and `DONE`, nothing else. -/
def Obligations.IllegalCommandIsRefused : Prop :=
  (∀ (s : State) (w : Word), s.busy = false → legal w = false →
    exec (.illegalCommand w) s = .next { s with cmdErr := true, done := true }
      ∧ step (s.writing 0x00 w) = exec (.illegalCommand w) s)
  ∧ ∃ t, step (State.reset.writing 0x00 0x0000000A) = .next t ∧ statusWord t = 0x22

/-- R96, R124: `DEC_STORE`, `DEC_LZ4K` and `DEC_LZ8K` are refused while idle when `OUT_LIMIT > MAX_OUT`. -/
def Obligations.DecodeOverTheLimitIsRefused : Prop :=
  ∀ (s : State) (w : Word), s.busy = false → w = 0x00000006 ∨ w = 0x00000007 ∨ w = 0x00000008 →
    s.cfg.maxOut < s.outLimit.toNat → step (s.writing 0x00 w) = .next { s with limitErr := true, done := true }

/-- R67: a legal word written while idle, within the limit where the limit bounds it, and with the buffers it uses bound
(R143 step 2), is accepted: its fields are latched, DONE and STOP cleared, the phase START; nothing else changes. -/
def Obligations.LegalCommandIsAccepted : Prop :=
  ∀ (s : State) (w : Word), s.busy = false → legal w = true → s.memWf = true →
    ((w = 0x00000006 ∨ w = 0x00000007 ∨ w = 0x00000008) → s.outLimit.toNat ≤ s.cfg.maxOut ∧ s.outBound) →
    ((w.toNat % 2 ^ 4 = 3 ∨ 5 ≤ w.toNat % 2 ^ 4 ∧ w.toNat % 2 ^ 4 ≤ 8) → s.inBound) →
    ∃ t, step (s.writing 0x00 w) = .next t ∧ t.busy = true
      ∧ t = { s with
          curOp := t.curOp, curN := t.curN, curData := t.curData, done := false, stop := .none, phase := .start }
      ∧ t.curOp.toNat = w.toNat % 2 ^ 4 ∧ t.curN.toNat = w.toNat / 2 ^ 4 % 2 ^ 5
      ∧ t.curData.toNat = w.toNat / 2 ^ 16 % 2 ^ 8

/-- R71: after a command is accepted, the engine's first step runs the instruction the word decodes to. -/
def Obligations.AcceptedCommandRunsNext : Prop :=
  ∀ (s : State) (w : Word), legal w = true →
    step ((accept w s).withTurn .engine) = exec (decodeCommand w) (accept w s)

/-- The step in START runs the latched command (R71), and with nothing scheduled the engine moves (log 1). -/
def Obligations.StepRunsTheLatchedCommand : Prop :=
  (∀ (s : State) (i : Instr), s.phase = .start → legal (latchedWord s) = true → decodeCommand (latchedWord s) = i →
    step (s.withTurn .engine) = exec i s)
  ∧ (∀ s : State, s.sched = [] → step s = step (s.withTurn .engine))

/-- R70, R138: in `IDLE` no engine step is enabled, and all state stays. That an engine turn exists there and stutters, and
that an empty schedule is an engine turn, is the model's choice (log 1). -/
def Obligations.IdleEngineKeepsAllState : Prop :=
  ∀ s : State, s.phase = .idle → step (s.withTurn .engine) = .next s ∧ (s.sched = [] → step s = .next s)

/-! ## What the commands do -/

/-- R73, with its example: from reset, `nop` ends with `STATUS = 0x02`. -/
def Obligations.NopOnlyFinishes : Prop :=
  (∀ s : State, exec .nop s = .next { s with phase := .idle, done := true })
  ∧ ∃ t, exec .nop (accept 0x00000000 State.reset) = .next t ∧ statusWord t = 0x02

/-- R85, R86: the accumulator is set to the start value 0x0000 (R82), or one byte is folded into it (R81); and the
values of both rules' examples. -/
def Obligations.CrcInitAndByteWriteTheAccumulator : Prop :=
  (∀ s : State,
    exec .crcInit s = .next { s with crcAcc := 0x0000, phase := .idle, done := true }
    ∧ ∀ d : Byte, exec (.crcByte d) s = .next { s with crcAcc := crcStep s.crcAcc d, phase := .idle, done := true })
  ∧ (∃ t, exec .crcInit (accept 0x00000001 { State.reset with crcAcc := 0x1234 }) = .next t
      ∧ t.crcAcc = 0x0000 ∧ statusWord t = 0x02)
  ∧ crcStep 0x0000 0x00 = 0x0000 ∧ crcStep 0xFFFF 0x00 = 0xE1F0 ∧ crcStep 0x8000 0x00 = 0x9188
  ∧ decodeCommand 0x00410002 = .crcByte 0x41 ∧ crcStep 0x0000 0x41 = 0x58E5

/-- R87, its START step, and R88, the step of phase `CRC_RUN`. -/
def Obligations.CrcBufReadsOneByteAStep : Prop :=
  ∀ s : State,
    exec .crcBuf s = .next { s with crcIdx := 0, phase := .crcRun }
    ∧ (s.phase = .crcRun → s.inLen ≤ s.crcIdx →
        step (s.withTurn .engine) = .next { s with phase := .idle, done := true })
    ∧ (∀ b, s.phase = .crcRun → s.crcIdx < s.inLen → inByte s s.crcIdx = some b →
        step (s.withTurn .engine) = .next { s with crcAcc := crcStep s.crcAcc b, crcIdx := s.crcIdx + 1 })

/-- R94. -/
def Obligations.BrInitResetsTheCursor : Prop :=
  ∀ s : State,
    exec .brInit s = .next { s with inPos := 0, brBuf := 0, brCount := 0, phase := .idle, done := true }

/-- R95, R33: a read with enough bits left puts the next `n` bits of the stream in `BR_DATA`, the first one least
significant, and moves the cursor past them. -/
def Obligations.BrReadReturnsTheNextBits : Prop :=
  ∀ (n : BitVec 5) (s : State), 1 ≤ n.toNat → n.toNat ≤ 16 → s.brCount.toNat ≤ 7 →
    s.brBuf >>> s.brCount.toNat = 0 → s.inBound → n.toNat ≤ availBits s →
    ∃ t, exec (.brRead n) s = .next t ∧ t.brData.toNat = streamValue s n.toNat ∧ CursorMoved n.toNat s t
      ∧ t = { s with
          brData := t.brData, brBuf := t.brBuf, brCount := t.brCount, inPos := t.inPos, phase := .idle, done := true }

/-- R125: a read with too few bits left sets `BR_SHORT`, ends normally and changes nothing else. -/
def Obligations.BrReadShortConsumesNothing : Prop :=
  ∀ (n : BitVec 5) (s : State), 1 ≤ n.toNat → n.toNat ≤ 16 → availBits s < n.toNat →
    exec (.brRead n) s = .next { s with brShort := true, phase := .idle, done := true }

/-- R107: `DEC_EMPTY` reads and writes nothing, and ends EMPTY. -/
def Obligations.DecEmptyEndsAtOnce : Prop :=
  ∀ s : State, exec .decEmpty s = .next
    { s with inPos := 0, brBuf := 0, brCount := 0, outCount := 0, stop := .empty, phase := .idle, done := true }

/-- R97, R98, R105, R109, R115: the START steps of the three decodes; every cell of a fresh dictionary holds
`DICT_FILL`. -/
def Obligations.DecodesStartFresh : Prop :=
  ∀ s : State,
    exec .decStore s = .next { s with inPos := 0, brBuf := 0, brCount := 0, outCount := 0, phase := .storeRun }
    ∧ (∃ t, exec .decLz4k s = .next t ∧ (∀ i, dictByte t i = s.cfg.dictFill)
        ∧ t.dictPos.toNat = s.cfg.dict4InitPos.toNat
        ∧ t = { s with
            inPos := 0, brBuf := 0, brCount := 0, outCount := 0, dict := t.dict, dsize := .k4, dictPos := t.dictPos
            matchSrc := 0, matchRem := 0, flagByte := 0, flagLeft := 0, phase := .lz4Token })
    ∧ (∃ t, exec .decLz8k s = .next t ∧ (∀ i, dictByte t i = s.cfg.dictFill)
        ∧ t = { s with
            inPos := 0, brBuf := 0, brCount := 0, outCount := 0, dict := t.dict, dsize := .k8
            dictPos := s.cfg.dict8InitPos, matchSrc := 0, matchRem := 0, flagByte := 0, flagLeft := 0
            phase := .lz8Token })

/-- R106: the step of phase `STORE_RUN` with room and input left copies one byte, and no dictionary byte. -/
def Obligations.StoreRunStepCopiesOneByte : Prop :=
  ∀ (s : State) (b : Byte), s.memWf = true → s.phase = .storeRun → s.curOp = 0x6#4 → s.outCount ≠ s.outLimit →
    s.inPos < s.inLen → inByte s s.inPos = some b → (outByte s s.outCount).isSome →
    ∃ t, step (s.withTurn .engine) = .next t
      ∧ t = { s with inPos := s.inPos + 1, outMem := t.outMem, outCount := s.outCount + 1 }
      ∧ ∀ i, outByte t i = if i = s.outCount then some b else outByte s i

/-! ## What the tokens do -/

/-- R111, R117, R99: a literal is written to OUT at `OUT_COUNT`, and in a dictionary decode to DICT at `DICT_POS`, which
advance; no other byte changes. -/
def Obligations.LiteralTokensEmitTheirByte : Prop :=
  ∀ (b : Byte) (s : State), s.memWf = true → (outByte s s.outCount).isSome →
    ∃ t, exec (.lz4Literal b) s = .next t ∧ exec (.lz8Literal b) s = .next t
      ∧ t = { s with outMem := t.outMem, outCount := s.outCount + 1, dict := t.dict, dictPos := t.dictPos }
      ∧ (∀ i, outByte t i = if i = s.outCount then some b else outByte s i)
      ∧ (∀ i, dictByte t i = if (s.curOp = 0x7#4 ∨ s.curOp = 0x8#4) ∧ i = s.dictPos then b else dictByte s i)
      ∧ t.dictPos.toNat
          = if s.curOp = 0x7#4 ∨ s.curOp = 0x8#4 then (s.dictPos.toNat + 1) % s.dsize.size else s.dictPos.toNat

/-- R112, R55: a 4 KB match names an absolute index and 3..18 bytes; nothing is emitted. -/
def Obligations.Lz4MatchSetsUpTheCopy : Prop :=
  ∀ (p : BitVec 12) (n : BitVec 4) (s : State), ∃ t, exec (.lz4Match p n) s = .next t
    ∧ t = { s with matchSrc := t.matchSrc, matchRem := n.toNat + 3, phase := .lz4Copy }
    ∧ t.matchSrc.toNat = p.toNat

/-- R116: a flag byte gives eight flag bits. R118: an 8 KB match names a distance back from the write position, mod 8192,
and 3..18 bytes; nothing is emitted. -/
def Obligations.Lz8FlagAndMatchSetUpTheGroup : Prop :=
  ∀ s : State,
    (∀ f : Byte, exec (.lz8Flag f) s = .next { s with flagByte := f, flagLeft := 8 })
    ∧ ∀ (o : BitVec 12) (n : BitVec 4), ∃ t, exec (.lz8Match o n) s = .next t
      ∧ t = { s with matchSrc := t.matchSrc, matchRem := n.toNat + 3, phase := .lz8Copy }
      ∧ (t.matchSrc.toNat : Int) = ((s.dictPos.toNat : Int) - (o.toNat : Int)) % 8192

/-- R100, R113, R119: a copy step reads the dictionary first, emits that byte, advances the source, and goes back to the
token phase after the match's last byte. -/
def Obligations.CopyStepCopiesOneByte : Prop :=
  ∀ s : State, s.memWf = true → s.phase = .lz4Copy ∨ s.phase = .lz8Copy → usesDict s = true →
    s.outCount ≠ s.outLimit → (outByte s s.outCount).isSome →
    ∃ t, step (s.withTurn .engine) = .next t
      ∧ t = { s with
          outMem := t.outMem, outCount := s.outCount + 1, dict := t.dict, dictPos := t.dictPos
          matchSrc := t.matchSrc, matchRem := s.matchRem - 1
          phase := if s.matchRem ≤ 1 then (if s.phase = .lz4Copy then .lz4Token else .lz8Token) else s.phase }
      ∧ (∀ i, outByte t i = if i = s.outCount then some (dictByte s s.matchSrc) else outByte s i)
      ∧ (∀ i, dictByte t i = if i = s.dictPos then dictByte s s.matchSrc else dictByte s i)
      ∧ t.dictPos.toNat = (s.dictPos.toNat + 1) % s.dsize.size
      ∧ t.matchSrc.toNat = (s.matchSrc.toNat + 1) % s.dsize.size

/-! ## Steps of the decodes -/

/-- R101: every step of the five decode phases tests the output bound first, and then does nothing else. -/
def Obligations.OutputBoundIsTestedFirst : Prop :=
  ∀ s : State,
    (s.phase = .storeRun ∨ s.phase = .lz4Token ∨ s.phase = .lz4Copy ∨ s.phase = .lz8Token ∨ s.phase = .lz8Copy) →
    s.outCount = s.outLimit →
    step (s.withTurn .engine) = .next { s with stop := .limit, phase := .idle, done := true }

/-- R110 to R112, R54, R59: the step in `LZ4_TOKEN` runs the token that stands at the bit cursor, read as one number from
the stream, in the state whose cursor is past exactly the token's bits. -/
def Obligations.StepRunsTheLz4TokenAtTheCursor : Prop :=
  ∀ (s : State) (i : Instr), s.phase = .lz4Token → s.outCount ≠ s.outLimit → s.brCount.toNat ≤ 7 →
    s.brBuf >>> s.brCount.toNat = 0 → s.inBound →
    decode .tok4 (availBits s) (streamValue s 17) = .ok i →
    ∃ u, step (s.withTurn .engine) = exec i u ∧ CursorMoved (encode i).nbits s u
      ∧ u = { s with brBuf := u.brBuf, brCount := u.brCount, inPos := u.inPos }

/-- R102: a 4 KB token that the input cuts short ends the decode EXHAUST; the fields read whole before it stay consumed,
the flag or the flag and the position, and nothing is emitted. -/
def Obligations.Lz4TokenCutShortIsDiscarded : Prop :=
  ∀ s : State, s.phase = .lz4Token → s.outCount ≠ s.outLimit → s.brCount.toNat ≤ 7 →
    s.brBuf >>> s.brCount.toNat = 0 → s.inBound →
    decode .tok4 (availBits s) (streamValue s 17) = .error .tokenCutShort →
    ∃ t, step (s.withTurn .engine) = .next t
      ∧ t = { s with
          brBuf := t.brBuf, brCount := t.brCount, inPos := t.inPos, stop := .exhaust, phase := .idle, done := true }
      ∧ CursorMoved
          (if availBits s = 0 then 0 else if streamBit s 0 = some true ∨ availBits s < 13 then 1 else 13) s t

/-- R116 to R118: the step in `LZ8_TOKEN` runs the item at `IN_POS` that the flag bits select, past its bytes and its
flag bit; or ends EXHAUST when its bytes are not there, the flag bit being used up. Where IN_POS is past IN_LEN, which no decode
reaches (R79), a match's bytes are not there by the model's reading of `IN_LEN - IN_POS < 2` (log 14). -/
def Obligations.StepRunsTheLz8ItemAtInPos : Prop :=
  ∀ s : State, s.phase = .lz8Token → s.outCount ≠ s.outLimit →
    (s.flagLeft = 0 → ∀ f, s.inPos < s.inLen → inByte s s.inPos = some f →
      step (s.withTurn .engine) = exec (.lz8Flag f) { s with inPos := s.inPos + 1 })
    ∧ (s.flagLeft = 0 → s.inLen ≤ s.inPos →
      step (s.withTurn .engine) = .next { s with stop := .exhaust, phase := .idle, done := true })
    ∧ (s.flagLeft ≠ 0 → s.flagByte.getLsbD 0 = true → ∀ b, s.inPos < s.inLen → inByte s s.inPos = some b →
      step (s.withTurn .engine) = exec (.lz8Literal b)
        { s with inPos := s.inPos + 1, flagByte := s.flagByte >>> 1, flagLeft := s.flagLeft - 1 })
    ∧ (s.flagLeft ≠ 0 → s.flagByte.getLsbD 0 = false → ∀ b1 b2 i, s.inPos.toNat + 2 ≤ s.inLen.toNat →
      inByte s s.inPos = some b1 → inByte s (s.inPos + 1) = some b2 → decodeBytes .tok8Match [b1, b2] = .ok i →
      step (s.withTurn .engine) = exec i
        { s with inPos := s.inPos + 2, flagByte := s.flagByte >>> 1, flagLeft := s.flagLeft - 1 })
    ∧ (s.flagLeft ≠ 0 →
      (if s.flagByte.getLsbD 0 = true then s.inLen ≤ s.inPos else s.inLen.toNat < s.inPos.toNat + 2) →
      step (s.withTurn .engine) = .next
        { s with
          flagByte := s.flagByte >>> 1, flagLeft := s.flagLeft - 1, stop := .exhaust, phase := .idle, done := true })

/-! ## Laws of the units -/

/-- R84, its four laws: chaining, linearity, residue, and one byte from zero. -/
def Obligations.CrcLaws : Prop :=
  (∀ a b : List Byte, crcFold (crc16 a) b = crc16 (a ++ b))
  ∧ (∀ (x x' : Half) (b b' : Byte), crcStep (x ^^^ x') (b ^^^ b') = crcStep x b ^^^ crcStep x' b')
  ∧ (∀ a : List Byte, crc16 (a ++ [(crc16 a).extractLsb' 8 8, (crc16 a).extractLsb' 0 8]) = 0x0000)
  ∧ (∀ b : Byte, crcStep 0x0000 b = crc16 [b]) ∧ crc16 [0x01] = 0x1021

/-- R93, item 1: two reads are one read of both widths. -/
def Obligations.TwoReadsAreOneWiderRead : Prop :=
  ∀ (n m : Nat) (s t u : State) (a b : Half), 1 ≤ n → 1 ≤ m → n + m ≤ 16 → s.brCount.toNat ≤ 7 →
    s.brBuf >>> s.brCount.toNat = 0 → readBits n s = .ok a t → readBits m t = .ok b u →
    readBits (n + m) s = .ok (a ||| (b <<< n)) u

/-- R92: how many bytes a successful read pulls, and how many bits it leaves held. -/
def Obligations.ReadPullsOnlyTheBytesItNeeds : Prop :=
  ∀ (n : Nat) (s t : State) (v : Half), 1 ≤ n → n ≤ 16 → readBits n s = .ok v t →
    t.inPos.toNat = s.inPos.toNat + (n - s.brCount.toNat + 7) / 8
      ∧ (s.brCount.toNat ≤ 7 → t.brCount.toNat ≤ 7)
      ∧ (t.inPos ≠ s.inPos → t.inPos ≤ s.inLen)
      ∧ t = { s with brBuf := t.brBuf, brCount := t.brCount, inPos := t.inPos }

/-! ## Whole commands -/

/-- R87, R88, R83: `CRC_BUF`, launched as R144 says, folds the whole input into the accumulator, in `IN_LEN + 2` engine
steps, and changes nothing else of the block; the host may act meanwhile as R144 (c) allows. Which turns are the engine's
is said by the schedule, and with none left they all are (log 1). -/
def Obligations.CrcBufFoldsTheWholeInput : Prop :=
  ∀ (s : State) (k : Nat) (bytes : List Byte), s.Launched 0x00000003 k → s.memWf = true →
    bytes.length = s.inLen.toNat →
    (∀ i (h : i < bytes.length), inByte s (BitVec.ofNat 32 i) = some bytes[i]) →
    s.inLen.toNat + 2 ≤ engineTurns (k + 1) s →
    ∃ j t, j ≤ k ∧ stepN (j + 1) s = .next t ∧ engineTurns (j + 1) s = s.inLen.toNat + 2
      ∧ UpToHost (s.sched.tail = [])
          { accept 0x00000003 s.popped with
            crcAcc := crcFold s.crcAcc bytes, crcIdx := s.inLen, phase := .idle, done := true } t
      ∧ ∀ i : Word, i < s.outLimit ∨ s.sched.tail = [] → outByte t i = outByte s i

/-- R105, R106: `DEC_STORE`, launched as R144 says, copies the first `min(IN_LEN, OUT_LIMIT)` bytes and says which bound
stopped it; no other byte of OUT changes (R104), but where the host writes from `OUT_LIMIT` on. Which turns are the
engine's is said by the schedule, and with none left they all are (log 1). -/
def Obligations.DecStoreCopiesTheSmallerLength : Prop :=
  ∀ (s : State) (k : Nat), s.Launched 0x00000006 k → s.memWf = true →
    let n := min s.inLen.toNat s.outLimit.toNat
    n + 2 ≤ engineTurns (k + 1) s →
    ∃ j t, j ≤ k ∧ stepN (j + 1) s = .next t ∧ engineTurns (j + 1) s = n + 2
      ∧ UpToHost (s.sched.tail = [])
          { accept 0x00000006 s.popped with
            inPos := BitVec.ofNat 32 n, brBuf := 0, brCount := 0, outCount := BitVec.ofNat 32 n
            stop := if s.inLen < s.outLimit then .exhaust else .limit, phase := .idle, done := true } t
      ∧ ∀ i : Word, i < s.outLimit ∨ s.sched.tail = [] →
          outByte t i = if i.toNat < n then inByte s i else outByte s i

/-- R75, under the launch premise of R144: an accepted command ends within `2 + 8 × IN_LEN + OUT_LIMIT` engine steps,
without a fault and with `DONE` set, if the turns looked at hold that many of the engine's. That they come to hold them is
the engine's fairness, which the schedule says (log 1, log 18). -/
def Obligations.EveryLaunchedCommandEnds : Prop :=
  ∀ (s : State) (w : Word) (k : Nat), s.Launched w k → s.Inv →
    2 + 8 * s.inLen.toNat + s.outLimit.toNat ≤ engineTurns (k + 1) s →
    ∃ j t, j ≤ k ∧ stepN (j + 1) s = .next t ∧ engineTurns (j + 1) s ≤ 2 + 8 * s.inLen.toNat + s.outLimit.toNat
      ∧ t.phase = .idle ∧ t.done = true

/-- R114, items 2 and 3, R147: with write positions from 0 and fewer than 4096 bytes emitted, a 4 KB match at a position
already written copies the output from that position on, into the bytes it is itself producing; the output before and
after the match stays as it was. With nothing scheduled every turn is the engine's (log 1). -/
def Obligations.Lz4MatchRepeatsTheOutput : Prop :=
  ∀ s : State, s.Inv → s.DictTracks → s.phase = .lz4Copy → s.sched = [] →
    s.cfg.dict4InitPos = 0 → s.outCount.toNat < 4096 → s.matchSrc.toNat < s.outCount.toNat →
    s.outCount.toNat + s.matchRem ≤ s.outLimit.toNat →
    ∃ t, stepN s.matchRem s = .next t ∧ t.phase = .lz4Token
      ∧ t.outCount.toNat = s.outCount.toNat + s.matchRem
      ∧ (∀ i : Word, i < s.outCount ∨ t.outCount ≤ i → outByte t i = outByte s i)
      ∧ ∀ k, k < s.matchRem →
        outByte t (BitVec.ofNat 32 (s.outCount.toNat + k)) = outByte t (BitVec.ofNat 32 (s.matchSrc.toNat + k))

/-- R120, item 2, R147: an 8 KB match at distance `d` repeats the output `d` bytes back, including bytes the match itself
produced; the output before and after the match stays as it was. With nothing scheduled every turn is the engine's
(log 1). -/
def Obligations.Lz8MatchRepeatsTheOutput : Prop :=
  ∀ (s : State) (d : BitVec 12), s.Inv → s.DictTracks → s.phase = .lz8Copy → s.sched = [] →
    s.matchSrc = matchSource8 s.dictPos d → 1 ≤ d.toNat → d.toNat ≤ s.outCount.toNat →
    s.outCount.toNat + s.matchRem ≤ s.outLimit.toNat →
    ∃ t, stepN s.matchRem s = .next t ∧ t.phase = .lz8Token
      ∧ t.outCount.toNat = s.outCount.toNat + s.matchRem
      ∧ (∀ i : Word, i < s.outCount ∨ t.outCount ≤ i → outByte t i = outByte s i)
      ∧ ∀ k, k < s.matchRem →
        outByte t (BitVec.ofNat 32 (s.outCount.toNat + k)) = outByte t (BitVec.ofNat 32 (s.outCount.toNat + k - d.toNat))

/-! ## The buffers -/

/-- R44, R146: while busy a host write below `IN_LEN` or `OUT_LIMIT` is a fault; while idle a write to a bound byte
changes that byte and no other. That a host write moves one byte is the model's choice (log 21). -/
def Obligations.BufferWritesOnlyWhileIdle : Prop :=
  ∀ (s : State) (i : Word) (b : Byte), s.memWf = true →
    (s.busy = true → i < s.inLen → step (s.withTurn (.host (.writeIn i b))) = .fault .inputWrittenWhileBusy)
    ∧ (s.busy = true → i < s.outLimit → step (s.withTurn (.host (.writeOut i b))) = .fault .outputWrittenWhileBusy)
    ∧ (s.busy = false → (inByte s i).isSome → ∃ t, step (s.withTurn (.host (.writeIn i b))) = .next t
        ∧ t = { s with inMem := t.inMem } ∧ ∀ j, inByte t j = if j = i then some b else inByte s j)
    ∧ (s.busy = false → (outByte s i).isSome → ∃ t, step (s.withTurn (.host (.writeOut i b))) = .next t
        ∧ t = { s with outMem := t.outMem } ∧ ∀ j, outByte t j = if j = i then some b else outByte s j)

/-- R139, R143 step 2, U4: issuing a command with less of IN or OUT bound than it uses is a fault, at the host's write
(the model's reading of when, log 6). In a state that no launch leads to, a step or an instruction that needs a byte that
is not bound is the same fault: of IN in `CRC_RUN`, `STORE_RUN`, `BR_READ` and both token phases, of OUT in `STORE_RUN`,
both literals and both copy phases. -/
def Obligations.UnboundByteFaults : Prop :=
  ∀ s : State,
    (∀ w : Word, s.busy = false → legal w = true → (w.toNat % 2 ^ 4 = 3 ∨ w.toNat % 2 ^ 4 = 5) → ¬s.inBound →
      step (s.writing 0x00 w) = .fault .inputNotBound)
    ∧ (∀ w : Word, s.busy = false → w = 0x00000006 ∨ w = 0x00000007 ∨ w = 0x00000008 →
      s.outLimit.toNat ≤ s.cfg.maxOut →
      (¬s.inBound → step (s.writing 0x00 w) = .fault .inputNotBound)
      ∧ (s.memWf = true → s.inBound → ¬s.outBound → step (s.writing 0x00 w) = .fault .outputNotBound))
    ∧ (s.phase = .crcRun → s.crcIdx < s.inLen → inByte s s.crcIdx = none →
      step (s.withTurn .engine) = .fault .inputNotBound)
    ∧ (s.phase = .storeRun → s.outCount ≠ s.outLimit → s.inPos < s.inLen →
      (inByte s s.inPos = none → step (s.withTurn .engine) = .fault .inputNotBound)
      ∧ ((inByte s s.inPos).isSome → outByte s s.outCount = none →
        step (s.withTurn .engine) = .fault .outputNotBound))
    ∧ (∀ n : BitVec 5, 1 ≤ n.toNat → n.toNat ≤ 16 → n.toNat ≤ availBits s →
      (∃ j, j < (n.toNat - s.brCount.toNat + 7) / 8 ∧ Mem.lookup s.inMem (s.inPos.toNat + j) = none) →
      exec (.brRead n) s = .fault .inputNotBound)
    ∧ (s.phase = .lz4Token → s.outCount ≠ s.outLimit → s.brCount.toNat ≤ 7 → s.brBuf >>> s.brCount.toNat = 0 →
      ∀ m : Nat, m = 1 ∨ (m = 9 ∧ streamBit s 0 = some true) ∨ ((m = 13 ∨ m = 17) ∧ streamBit s 0 = some false) →
        m ≤ availBits s →
        (∃ j, j < (m - s.brCount.toNat + 7) / 8 ∧ Mem.lookup s.inMem (s.inPos.toNat + j) = none) →
        step (s.withTurn .engine) = .fault .inputNotBound)
    ∧ (s.phase = .lz8Token → s.outCount ≠ s.outLimit →
      (s.flagLeft = 0 ∨ s.flagByte.getLsbD 0 = true → s.inPos < s.inLen → inByte s s.inPos = none →
        step (s.withTurn .engine) = .fault .inputNotBound)
      ∧ (s.flagLeft ≠ 0 → s.flagByte.getLsbD 0 = false → s.inPos.toNat + 2 ≤ s.inLen.toNat →
        inByte s s.inPos = none ∨ inByte s (s.inPos + 1) = none →
        step (s.withTurn .engine) = .fault .inputNotBound))
    ∧ (∀ b : Byte, outByte s s.outCount = none →
      exec (.lz4Literal b) s = .fault .outputNotBound ∧ exec (.lz8Literal b) s = .fault .outputNotBound)
    ∧ (s.phase = .lz4Copy ∨ s.phase = .lz8Copy → s.outCount ≠ s.outLimit → outByte s s.outCount = none →
      step (s.withTurn .engine) = .fault .outputNotBound)

/-- R32, U2, R77 (the model's reading, log 7, log 8): binding IN where it shares a platform address with OUT is a fault,
and binding it elsewhere while idle gives exactly the bytes bound; while busy binding it is a fault. -/
def Obligations.BindingInWhereItOverlapsFaults : Prop :=
  ∀ (s : State) (base : Nat) (bytes : List Byte),
    (s.busy = true → step (s.withTurn (.host (.bindIn base bytes))) = .fault .reboundWhileBusy)
    ∧ (s.busy = false → bytes.length ≤ 2 ^ 32 →
      ((∃ (i : Nat) (j : Word), i < bytes.length ∧ (outByte s j).isSome ∧ base + i = s.outBase + j.toNat) →
        step (s.withTurn (.host (.bindIn base bytes))) = .fault .buffersOverlap)
      ∧ ((∀ i j : Nat, i < bytes.length → j ∈ s.outMem.map Prod.fst → base + i ≠ s.outBase + j) →
        ∃ t, step (s.withTurn (.host (.bindIn base bytes))) = .next t
          ∧ t = { s with inBase := base, inMem := t.inMem } ∧ ∀ i : Word, inByte t i = bytes[i.toNat]?))

/-- R32, U2, R77 (the model's reading, log 7, log 8): binding OUT where it shares a platform address with IN is a fault,
and binding it elsewhere while idle gives memory with exactly the bytes bound; while busy binding it is a fault. -/
def Obligations.BindingOutWhereItOverlapsFaults : Prop :=
  ∀ (s : State) (base : Nat) (bytes : List Byte),
    (s.busy = true → step (s.withTurn (.host (.bindOut base bytes))) = .fault .reboundWhileBusy)
    ∧ (s.busy = false → bytes.length ≤ 2 ^ 32 →
      ((∃ (i : Word) (j : Nat), (inByte s i).isSome ∧ j < bytes.length ∧ s.inBase + i.toNat = base + j) →
        step (s.withTurn (.host (.bindOut base bytes))) = .fault .buffersOverlap)
      ∧ ((∀ i j : Nat, i ∈ s.inMem.map Prod.fst → j < bytes.length → s.inBase + i ≠ base + j) →
        ∃ t, step (s.withTurn (.host (.bindOut base bytes))) = .next t
          ∧ t = { s with outBase := base, outMem := t.outMem } ∧ ∀ i : Word, outByte t i = bytes[i.toNat]?))

/-- R42, R104: an engine turn never writes IN, and changes no byte of OUT but the one at `OUT_COUNT`, which it then
counts. -/
def Obligations.EngineWritesOutOnlyAtOutCount : Prop :=
  ∀ s t : State, step (s.withTurn .engine) = .next t →
    t.inMem = s.inMem ∧ ∀ i : Word, outByte t i ≠ outByte s i →
      i = s.outCount ∧ t.outCount = s.outCount + 1 ∧ s.phase.decoding = true ∧ s.outCount ≠ s.outLimit

/-! ## Whole-machine rules -/

/-- R13: no step changes the configuration. -/
def Obligations.ConfigurationNeverChanges : Prop := ∀ s t : State, step s = .next t → t.cfg = s.cfg

/-- R72, R76, R78: a busy block becomes idle only by `finish`, which sets `DONE`, or by a reset. -/
def Obligations.OnlyFinishOrResetLeavesBusy : Prop :=
  ∀ s t : State, step s = .next t → s.busy = true → t.busy = false →
    (s.engineNext ∧ t.done = true) ∨ s.sched.head? = some .reset

/-- R30, R122: a condition once raised is cleared only by a host write of 1 to its `STATUS` bit, or by a reset. -/
def Obligations.ConditionsAreSticky : Prop :=
  ∀ s t : State, step s = .next t →
    ((s.brShort = true ∧ t.brShort = false) ∨ (s.cmdErr = true ∧ t.cmdErr = false)
      ∨ (s.limitErr = true ∧ t.limitErr = false)) →
    s.sched.head? = some .reset
      ∨ ∃ w : Word, s.sched.head? = some (.host (.regWrite 4 (s.cfg.regBase + 0x04) w))
          ∧ (s.brShort = true → t.brShort = false → w.getLsbD 4 = true)
          ∧ (s.cmdErr = true → t.cmdErr = false → w.getLsbD 5 = true)
          ∧ (s.limitErr = true → t.limitErr = false → w.getLsbD 6 = true)

/-- R21, R22: what writes `CRC_ACC` and `BR_DATA`, and that nothing else does. -/
def Obligations.OnlyTheirCommandsWriteCrcAccAndBrData : Prop :=
  ∀ s t : State, s.Inv → step s = .next t →
    (t.crcAcc ≠ s.crcAcc →
      (s.engineNext ∧ s.busy = true ∧ (s.curOp = 0x1#4 ∨ s.curOp = 0x2#4 ∨ s.curOp = 0x3#4))
      ∨ (s.busy = false ∧ ∃ w, s.sched.head? = some (.host (.regWrite 4 (s.cfg.regBase + 0x1C) w)))
      ∨ s.sched.head? = some .reset)
    ∧ (t.brData ≠ s.brData →
      (s.engineNext ∧ s.phase = .start ∧ s.curOp = 0x5#4) ∨ s.sched.head? = some .reset)

/-- R30: no engine step reads a flag: two states that differ in flags only take steps that differ in flags only. -/
def Obligations.NoResultDependsOnTheFlags : Prop :=
  ∀ s s' t : State, s.sameButFlags s' → step (s.withTurn .engine) = .next t →
    ∃ t', step (s'.withTurn .engine) = .next t' ∧ t.sameButFlags t'

/-- R141, R142: the platform's reset, at any time: every register reads 0, every piece of hidden state has its reset
value, no command runs, `DONE` stays 0 and `IRQ` is 0; IN and OUT keep every byte. Nothing is said of DICT, whose contents
are unspecified (log 5). -/
def Obligations.PlatformResetLeavesTheResetValues : Prop :=
  ∀ s : State, ∃ t, step (s.withTurn .reset) = .next t
    ∧ (∀ off, readOffset off t = 0) ∧ t.busy = false ∧ t.done = false ∧ irq t = false
    ∧ t.inMem = s.inMem ∧ t.outMem = s.outMem
    ∧ t = { t with
        irqEn := false, done := false, stop := .none, brShort := false, cmdErr := false, limitErr := false
        inLen := 0, inPos := 0, outLimit := 0, outCount := 0, crcAcc := 0x0000, brData := 0x0000, brBuf := 0
        brCount := 0, dictPos := 0, phase := .idle, curOp := 0, curN := 0, curData := 0, crcIdx := 0, flagByte := 0
        flagLeft := 0, matchSrc := 0, matchRem := 0, dsize := .k4 }

/-- R136: a step of one instance changes that instance only, and is its own step. One that leaves the instance's OUT
overlapping another's is a fault, and one that leaves it sharing no written memory with another is none; that the OUT of
one over the IN of another counts as sharing is the model's reading (log 17). -/
def Obligations.InstancesAreIndependent : Prop :=
  ∀ (k : Nat) (sys : System) (s : State), sys[k]? = some s →
    (∀ sys', systemStep k sys = .next sys' →
      sys'.length = sys.length ∧ (∀ j, j ≠ k → sys'[j]? = sys[j]?) ∧ ∃ t, step s = .next t ∧ sys'[k]? = some t)
    ∧ (∀ (t u : State) (j : Nat) (a b : Word), step s = .next t → j ≠ k → sys[j]? = some u →
      (outByte t a).isSome → (outByte u b).isSome → t.outBase + a.toNat = u.outBase + b.toNat →
      systemStep k sys = .fault .instancesOverlap)
    ∧ (∀ t, step s = .next t → (∀ (j : Nat) (u : State), j ≠ k → sys[j]? = some u → sharesMemory t u = false) →
      systemStep k sys = .next (sys.set k t))

/-! ## Invariants -/

/-- The invariant holds after reset, under every configuration, and the dictionary relation with it. -/
def Obligations.ResetMeetsTheInvariant : Prop :=
  ∀ cfg : Config, (State.resetWith cfg).Inv ∧ (State.resetWith cfg).DictTracks

/-- The invariant is kept by every step of every agent (R15, R18, R20, R23, R24, R26, R27, R29, R79, R89,
R92). -/
def Obligations.EveryStepKeepsTheInvariant : Prop := ∀ s t : State, s.Inv → step s = .next t → t.Inv

/-- R70, R139, R143: from every state that meets the invariant an engine turn answers a next state: the engine is never
stuck, and no command that was launched faults. -/
def Obligations.EngineTurnAlwaysAnswersNext : Prop :=
  ∀ s : State, s.Inv → ∃ t, step (s.withTurn .engine) = .next t

/-- R114 item 1, R120 item 1, R98: in a running dictionary decode the write position and the window follow the output,
and the cells not yet reached hold `DICT_FILL`, whatever the host does. -/
def Obligations.EveryStepKeepsTheDictionaryOnTheOutput : Prop :=
  ∀ s t : State, s.Inv → s.DictTracks → step s = .next t → t.DictTracks
end

