-- ==== Sys2Proof/Laws/State.lean ====
section
/-! SUPPORT. One lemma per field per named update of the state, so that no proof unfolds an update. -/

namespace Sys2Proof.Machine


/-! ## finish -/

@[simp] theorem finish_cfg (s : State) : (finish s).cfg = s.cfg := rfl
@[simp] theorem finish_irqEn (s : State) : (finish s).irqEn = s.irqEn := rfl
@[simp] theorem finish_done (s : State) : (finish s).done = true := rfl
@[simp] theorem finish_stop (s : State) : (finish s).stop = s.stop := rfl
@[simp] theorem finish_brShort (s : State) : (finish s).brShort = s.brShort := rfl
@[simp] theorem finish_cmdErr (s : State) : (finish s).cmdErr = s.cmdErr := rfl
@[simp] theorem finish_limitErr (s : State) : (finish s).limitErr = s.limitErr := rfl
@[simp] theorem finish_inLen (s : State) : (finish s).inLen = s.inLen := rfl
@[simp] theorem finish_inPos (s : State) : (finish s).inPos = s.inPos := rfl
@[simp] theorem finish_outLimit (s : State) : (finish s).outLimit = s.outLimit := rfl
@[simp] theorem finish_outCount (s : State) : (finish s).outCount = s.outCount := rfl
@[simp] theorem finish_crcAcc (s : State) : (finish s).crcAcc = s.crcAcc := rfl
@[simp] theorem finish_brData (s : State) : (finish s).brData = s.brData := rfl
@[simp] theorem finish_brBuf (s : State) : (finish s).brBuf = s.brBuf := rfl
@[simp] theorem finish_brCount (s : State) : (finish s).brCount = s.brCount := rfl
@[simp] theorem finish_dictPos (s : State) : (finish s).dictPos = s.dictPos := rfl
@[simp] theorem finish_phase (s : State) : (finish s).phase = .idle := rfl
@[simp] theorem finish_curOp (s : State) : (finish s).curOp = s.curOp := rfl
@[simp] theorem finish_curN (s : State) : (finish s).curN = s.curN := rfl
@[simp] theorem finish_curData (s : State) : (finish s).curData = s.curData := rfl
@[simp] theorem finish_crcIdx (s : State) : (finish s).crcIdx = s.crcIdx := rfl
@[simp] theorem finish_flagByte (s : State) : (finish s).flagByte = s.flagByte := rfl
@[simp] theorem finish_flagLeft (s : State) : (finish s).flagLeft = s.flagLeft := rfl
@[simp] theorem finish_matchSrc (s : State) : (finish s).matchSrc = s.matchSrc := rfl
@[simp] theorem finish_matchRem (s : State) : (finish s).matchRem = s.matchRem := rfl
@[simp] theorem finish_dsize (s : State) : (finish s).dsize = s.dsize := rfl
@[simp] theorem finish_dict (s : State) : (finish s).dict = s.dict := rfl
@[simp] theorem finish_inBase (s : State) : (finish s).inBase = s.inBase := rfl
@[simp] theorem finish_inMem (s : State) : (finish s).inMem = s.inMem := rfl
@[simp] theorem finish_outBase (s : State) : (finish s).outBase = s.outBase := rfl
@[simp] theorem finish_outMem (s : State) : (finish s).outMem = s.outMem := rfl
@[simp] theorem finish_sched (s : State) : (finish s).sched = s.sched := rfl
@[simp] theorem finish_rdata (s : State) : (finish s).rdata = s.rdata := rfl

/-! ## finishWith -/

@[simp] theorem finishWith_cfg (k : StopKind) (s : State) : (finishWith k s).cfg = s.cfg := rfl
@[simp] theorem finishWith_irqEn (k : StopKind) (s : State) : (finishWith k s).irqEn = s.irqEn := rfl
@[simp] theorem finishWith_done (k : StopKind) (s : State) : (finishWith k s).done = true := rfl
@[simp] theorem finishWith_stop (k : StopKind) (s : State) : (finishWith k s).stop = k := rfl
@[simp] theorem finishWith_brShort (k : StopKind) (s : State) : (finishWith k s).brShort = s.brShort := rfl
@[simp] theorem finishWith_cmdErr (k : StopKind) (s : State) : (finishWith k s).cmdErr = s.cmdErr := rfl
@[simp] theorem finishWith_limitErr (k : StopKind) (s : State) : (finishWith k s).limitErr = s.limitErr := rfl
@[simp] theorem finishWith_inLen (k : StopKind) (s : State) : (finishWith k s).inLen = s.inLen := rfl
@[simp] theorem finishWith_inPos (k : StopKind) (s : State) : (finishWith k s).inPos = s.inPos := rfl
@[simp] theorem finishWith_outLimit (k : StopKind) (s : State) : (finishWith k s).outLimit = s.outLimit := rfl
@[simp] theorem finishWith_outCount (k : StopKind) (s : State) : (finishWith k s).outCount = s.outCount := rfl
@[simp] theorem finishWith_crcAcc (k : StopKind) (s : State) : (finishWith k s).crcAcc = s.crcAcc := rfl
@[simp] theorem finishWith_brData (k : StopKind) (s : State) : (finishWith k s).brData = s.brData := rfl
@[simp] theorem finishWith_brBuf (k : StopKind) (s : State) : (finishWith k s).brBuf = s.brBuf := rfl
@[simp] theorem finishWith_brCount (k : StopKind) (s : State) : (finishWith k s).brCount = s.brCount := rfl
@[simp] theorem finishWith_dictPos (k : StopKind) (s : State) : (finishWith k s).dictPos = s.dictPos := rfl
@[simp] theorem finishWith_phase (k : StopKind) (s : State) : (finishWith k s).phase = .idle := rfl
@[simp] theorem finishWith_curOp (k : StopKind) (s : State) : (finishWith k s).curOp = s.curOp := rfl
@[simp] theorem finishWith_curN (k : StopKind) (s : State) : (finishWith k s).curN = s.curN := rfl
@[simp] theorem finishWith_curData (k : StopKind) (s : State) : (finishWith k s).curData = s.curData := rfl
@[simp] theorem finishWith_crcIdx (k : StopKind) (s : State) : (finishWith k s).crcIdx = s.crcIdx := rfl
@[simp] theorem finishWith_flagByte (k : StopKind) (s : State) : (finishWith k s).flagByte = s.flagByte := rfl
@[simp] theorem finishWith_flagLeft (k : StopKind) (s : State) : (finishWith k s).flagLeft = s.flagLeft := rfl
@[simp] theorem finishWith_matchSrc (k : StopKind) (s : State) : (finishWith k s).matchSrc = s.matchSrc := rfl
@[simp] theorem finishWith_matchRem (k : StopKind) (s : State) : (finishWith k s).matchRem = s.matchRem := rfl
@[simp] theorem finishWith_dsize (k : StopKind) (s : State) : (finishWith k s).dsize = s.dsize := rfl
@[simp] theorem finishWith_dict (k : StopKind) (s : State) : (finishWith k s).dict = s.dict := rfl
@[simp] theorem finishWith_inBase (k : StopKind) (s : State) : (finishWith k s).inBase = s.inBase := rfl
@[simp] theorem finishWith_inMem (k : StopKind) (s : State) : (finishWith k s).inMem = s.inMem := rfl
@[simp] theorem finishWith_outBase (k : StopKind) (s : State) : (finishWith k s).outBase = s.outBase := rfl
@[simp] theorem finishWith_outMem (k : StopKind) (s : State) : (finishWith k s).outMem = s.outMem := rfl
@[simp] theorem finishWith_sched (k : StopKind) (s : State) : (finishWith k s).sched = s.sched := rfl
@[simp] theorem finishWith_rdata (k : StopKind) (s : State) : (finishWith k s).rdata = s.rdata := rfl

/-! ## accept -/

@[simp] theorem accept_cfg (w : Word) (s : State) : (accept w s).cfg = s.cfg := rfl
@[simp] theorem accept_irqEn (w : Word) (s : State) : (accept w s).irqEn = s.irqEn := rfl
@[simp] theorem accept_done (w : Word) (s : State) : (accept w s).done = false := rfl
@[simp] theorem accept_stop (w : Word) (s : State) : (accept w s).stop = .none := rfl
@[simp] theorem accept_brShort (w : Word) (s : State) : (accept w s).brShort = s.brShort := rfl
@[simp] theorem accept_cmdErr (w : Word) (s : State) : (accept w s).cmdErr = s.cmdErr := rfl
@[simp] theorem accept_limitErr (w : Word) (s : State) : (accept w s).limitErr = s.limitErr := rfl
@[simp] theorem accept_inLen (w : Word) (s : State) : (accept w s).inLen = s.inLen := rfl
@[simp] theorem accept_inPos (w : Word) (s : State) : (accept w s).inPos = s.inPos := rfl
@[simp] theorem accept_outLimit (w : Word) (s : State) : (accept w s).outLimit = s.outLimit := rfl
@[simp] theorem accept_outCount (w : Word) (s : State) : (accept w s).outCount = s.outCount := rfl
@[simp] theorem accept_crcAcc (w : Word) (s : State) : (accept w s).crcAcc = s.crcAcc := rfl
@[simp] theorem accept_brData (w : Word) (s : State) : (accept w s).brData = s.brData := rfl
@[simp] theorem accept_brBuf (w : Word) (s : State) : (accept w s).brBuf = s.brBuf := rfl
@[simp] theorem accept_brCount (w : Word) (s : State) : (accept w s).brCount = s.brCount := rfl
@[simp] theorem accept_dictPos (w : Word) (s : State) : (accept w s).dictPos = s.dictPos := rfl
@[simp] theorem accept_phase (w : Word) (s : State) : (accept w s).phase = .start := rfl
@[simp] theorem accept_curOp (w : Word) (s : State) : (accept w s).curOp = opField w := rfl
@[simp] theorem accept_curN (w : Word) (s : State) : (accept w s).curN = nField w := rfl
@[simp] theorem accept_curData (w : Word) (s : State) : (accept w s).curData = dataField w := rfl
@[simp] theorem accept_crcIdx (w : Word) (s : State) : (accept w s).crcIdx = s.crcIdx := rfl
@[simp] theorem accept_flagByte (w : Word) (s : State) : (accept w s).flagByte = s.flagByte := rfl
@[simp] theorem accept_flagLeft (w : Word) (s : State) : (accept w s).flagLeft = s.flagLeft := rfl
@[simp] theorem accept_matchSrc (w : Word) (s : State) : (accept w s).matchSrc = s.matchSrc := rfl
@[simp] theorem accept_matchRem (w : Word) (s : State) : (accept w s).matchRem = s.matchRem := rfl
@[simp] theorem accept_dsize (w : Word) (s : State) : (accept w s).dsize = s.dsize := rfl
@[simp] theorem accept_dict (w : Word) (s : State) : (accept w s).dict = s.dict := rfl
@[simp] theorem accept_inBase (w : Word) (s : State) : (accept w s).inBase = s.inBase := rfl
@[simp] theorem accept_inMem (w : Word) (s : State) : (accept w s).inMem = s.inMem := rfl
@[simp] theorem accept_outBase (w : Word) (s : State) : (accept w s).outBase = s.outBase := rfl
@[simp] theorem accept_outMem (w : Word) (s : State) : (accept w s).outMem = s.outMem := rfl
@[simp] theorem accept_sched (w : Word) (s : State) : (accept w s).sched = s.sched := rfl
@[simp] theorem accept_rdata (w : Word) (s : State) : (accept w s).rdata = s.rdata := rfl

/-! ## decInit -/

@[simp] theorem decInit_cfg (s : State) : (decInit s).cfg = s.cfg := rfl
@[simp] theorem decInit_irqEn (s : State) : (decInit s).irqEn = s.irqEn := rfl
@[simp] theorem decInit_done (s : State) : (decInit s).done = s.done := rfl
@[simp] theorem decInit_stop (s : State) : (decInit s).stop = s.stop := rfl
@[simp] theorem decInit_brShort (s : State) : (decInit s).brShort = s.brShort := rfl
@[simp] theorem decInit_cmdErr (s : State) : (decInit s).cmdErr = s.cmdErr := rfl
@[simp] theorem decInit_limitErr (s : State) : (decInit s).limitErr = s.limitErr := rfl
@[simp] theorem decInit_inLen (s : State) : (decInit s).inLen = s.inLen := rfl
@[simp] theorem decInit_inPos (s : State) : (decInit s).inPos = 0 := rfl
@[simp] theorem decInit_outLimit (s : State) : (decInit s).outLimit = s.outLimit := rfl
@[simp] theorem decInit_outCount (s : State) : (decInit s).outCount = 0 := rfl
@[simp] theorem decInit_crcAcc (s : State) : (decInit s).crcAcc = s.crcAcc := rfl
@[simp] theorem decInit_brData (s : State) : (decInit s).brData = s.brData := rfl
@[simp] theorem decInit_brBuf (s : State) : (decInit s).brBuf = 0 := rfl
@[simp] theorem decInit_brCount (s : State) : (decInit s).brCount = 0 := rfl
@[simp] theorem decInit_dictPos (s : State) : (decInit s).dictPos = s.dictPos := rfl
@[simp] theorem decInit_phase (s : State) : (decInit s).phase = s.phase := rfl
@[simp] theorem decInit_curOp (s : State) : (decInit s).curOp = s.curOp := rfl
@[simp] theorem decInit_curN (s : State) : (decInit s).curN = s.curN := rfl
@[simp] theorem decInit_curData (s : State) : (decInit s).curData = s.curData := rfl
@[simp] theorem decInit_crcIdx (s : State) : (decInit s).crcIdx = s.crcIdx := rfl
@[simp] theorem decInit_flagByte (s : State) : (decInit s).flagByte = s.flagByte := rfl
@[simp] theorem decInit_flagLeft (s : State) : (decInit s).flagLeft = s.flagLeft := rfl
@[simp] theorem decInit_matchSrc (s : State) : (decInit s).matchSrc = s.matchSrc := rfl
@[simp] theorem decInit_matchRem (s : State) : (decInit s).matchRem = s.matchRem := rfl
@[simp] theorem decInit_dsize (s : State) : (decInit s).dsize = s.dsize := rfl
@[simp] theorem decInit_dict (s : State) : (decInit s).dict = s.dict := rfl
@[simp] theorem decInit_inBase (s : State) : (decInit s).inBase = s.inBase := rfl
@[simp] theorem decInit_inMem (s : State) : (decInit s).inMem = s.inMem := rfl
@[simp] theorem decInit_outBase (s : State) : (decInit s).outBase = s.outBase := rfl
@[simp] theorem decInit_outMem (s : State) : (decInit s).outMem = s.outMem := rfl
@[simp] theorem decInit_sched (s : State) : (decInit s).sched = s.sched := rfl
@[simp] theorem decInit_rdata (s : State) : (decInit s).rdata = s.rdata := rfl

/-! ## dictInit -/

@[simp] theorem dictInit_cfg (d : DictSize) (p : DictIdx) (s : State) : (dictInit d p s).cfg = s.cfg := rfl
@[simp] theorem dictInit_irqEn (d : DictSize) (p : DictIdx) (s : State) : (dictInit d p s).irqEn = s.irqEn := rfl
@[simp] theorem dictInit_done (d : DictSize) (p : DictIdx) (s : State) : (dictInit d p s).done = s.done := rfl
@[simp] theorem dictInit_stop (d : DictSize) (p : DictIdx) (s : State) : (dictInit d p s).stop = s.stop := rfl
@[simp] theorem dictInit_brShort (d : DictSize) (p : DictIdx) (s : State) : (dictInit d p s).brShort = s.brShort := rfl
@[simp] theorem dictInit_cmdErr (d : DictSize) (p : DictIdx) (s : State) : (dictInit d p s).cmdErr = s.cmdErr := rfl
@[simp] theorem dictInit_limitErr (d : DictSize) (p : DictIdx) (s : State) : (dictInit d p s).limitErr = s.limitErr := rfl
@[simp] theorem dictInit_inLen (d : DictSize) (p : DictIdx) (s : State) : (dictInit d p s).inLen = s.inLen := rfl
@[simp] theorem dictInit_inPos (d : DictSize) (p : DictIdx) (s : State) : (dictInit d p s).inPos = s.inPos := rfl
@[simp] theorem dictInit_outLimit (d : DictSize) (p : DictIdx) (s : State) : (dictInit d p s).outLimit = s.outLimit := rfl
@[simp] theorem dictInit_outCount (d : DictSize) (p : DictIdx) (s : State) : (dictInit d p s).outCount = s.outCount := rfl
@[simp] theorem dictInit_crcAcc (d : DictSize) (p : DictIdx) (s : State) : (dictInit d p s).crcAcc = s.crcAcc := rfl
@[simp] theorem dictInit_brData (d : DictSize) (p : DictIdx) (s : State) : (dictInit d p s).brData = s.brData := rfl
@[simp] theorem dictInit_brBuf (d : DictSize) (p : DictIdx) (s : State) : (dictInit d p s).brBuf = s.brBuf := rfl
@[simp] theorem dictInit_brCount (d : DictSize) (p : DictIdx) (s : State) : (dictInit d p s).brCount = s.brCount := rfl
@[simp] theorem dictInit_dictPos (d : DictSize) (p : DictIdx) (s : State) : (dictInit d p s).dictPos = p := rfl
@[simp] theorem dictInit_phase (d : DictSize) (p : DictIdx) (s : State) : (dictInit d p s).phase = s.phase := rfl
@[simp] theorem dictInit_curOp (d : DictSize) (p : DictIdx) (s : State) : (dictInit d p s).curOp = s.curOp := rfl
@[simp] theorem dictInit_curN (d : DictSize) (p : DictIdx) (s : State) : (dictInit d p s).curN = s.curN := rfl
@[simp] theorem dictInit_curData (d : DictSize) (p : DictIdx) (s : State) : (dictInit d p s).curData = s.curData := rfl
@[simp] theorem dictInit_crcIdx (d : DictSize) (p : DictIdx) (s : State) : (dictInit d p s).crcIdx = s.crcIdx := rfl
@[simp] theorem dictInit_flagByte (d : DictSize) (p : DictIdx) (s : State) : (dictInit d p s).flagByte = 0 := rfl
@[simp] theorem dictInit_flagLeft (d : DictSize) (p : DictIdx) (s : State) : (dictInit d p s).flagLeft = 0 := rfl
@[simp] theorem dictInit_matchSrc (d : DictSize) (p : DictIdx) (s : State) : (dictInit d p s).matchSrc = 0 := rfl
@[simp] theorem dictInit_matchRem (d : DictSize) (p : DictIdx) (s : State) : (dictInit d p s).matchRem = 0 := rfl
@[simp] theorem dictInit_dsize (d : DictSize) (p : DictIdx) (s : State) : (dictInit d p s).dsize = d := rfl
@[simp] theorem dictInit_dict (d : DictSize) (p : DictIdx) (s : State) : (dictInit d p s).dict = [] := rfl
@[simp] theorem dictInit_inBase (d : DictSize) (p : DictIdx) (s : State) : (dictInit d p s).inBase = s.inBase := rfl
@[simp] theorem dictInit_inMem (d : DictSize) (p : DictIdx) (s : State) : (dictInit d p s).inMem = s.inMem := rfl
@[simp] theorem dictInit_outBase (d : DictSize) (p : DictIdx) (s : State) : (dictInit d p s).outBase = s.outBase := rfl
@[simp] theorem dictInit_outMem (d : DictSize) (p : DictIdx) (s : State) : (dictInit d p s).outMem = s.outMem := rfl
@[simp] theorem dictInit_sched (d : DictSize) (p : DictIdx) (s : State) : (dictInit d p s).sched = s.sched := rfl
@[simp] theorem dictInit_rdata (d : DictSize) (p : DictIdx) (s : State) : (dictInit d p s).rdata = s.rdata := rfl

/-! ## appendDict -/

@[simp] theorem appendDict_cfg (b : Byte) (s : State) : (appendDict b s).cfg = s.cfg := rfl
@[simp] theorem appendDict_irqEn (b : Byte) (s : State) : (appendDict b s).irqEn = s.irqEn := rfl
@[simp] theorem appendDict_done (b : Byte) (s : State) : (appendDict b s).done = s.done := rfl
@[simp] theorem appendDict_stop (b : Byte) (s : State) : (appendDict b s).stop = s.stop := rfl
@[simp] theorem appendDict_brShort (b : Byte) (s : State) : (appendDict b s).brShort = s.brShort := rfl
@[simp] theorem appendDict_cmdErr (b : Byte) (s : State) : (appendDict b s).cmdErr = s.cmdErr := rfl
@[simp] theorem appendDict_limitErr (b : Byte) (s : State) : (appendDict b s).limitErr = s.limitErr := rfl
@[simp] theorem appendDict_inLen (b : Byte) (s : State) : (appendDict b s).inLen = s.inLen := rfl
@[simp] theorem appendDict_inPos (b : Byte) (s : State) : (appendDict b s).inPos = s.inPos := rfl
@[simp] theorem appendDict_outLimit (b : Byte) (s : State) : (appendDict b s).outLimit = s.outLimit := rfl
@[simp] theorem appendDict_outCount (b : Byte) (s : State) : (appendDict b s).outCount = s.outCount := rfl
@[simp] theorem appendDict_crcAcc (b : Byte) (s : State) : (appendDict b s).crcAcc = s.crcAcc := rfl
@[simp] theorem appendDict_brData (b : Byte) (s : State) : (appendDict b s).brData = s.brData := rfl
@[simp] theorem appendDict_brBuf (b : Byte) (s : State) : (appendDict b s).brBuf = s.brBuf := rfl
@[simp] theorem appendDict_brCount (b : Byte) (s : State) : (appendDict b s).brCount = s.brCount := rfl
@[simp] theorem appendDict_dictPos (b : Byte) (s : State) : (appendDict b s).dictPos = nextIdx s.dsize s.dictPos := rfl
@[simp] theorem appendDict_phase (b : Byte) (s : State) : (appendDict b s).phase = s.phase := rfl
@[simp] theorem appendDict_curOp (b : Byte) (s : State) : (appendDict b s).curOp = s.curOp := rfl
@[simp] theorem appendDict_curN (b : Byte) (s : State) : (appendDict b s).curN = s.curN := rfl
@[simp] theorem appendDict_curData (b : Byte) (s : State) : (appendDict b s).curData = s.curData := rfl
@[simp] theorem appendDict_crcIdx (b : Byte) (s : State) : (appendDict b s).crcIdx = s.crcIdx := rfl
@[simp] theorem appendDict_flagByte (b : Byte) (s : State) : (appendDict b s).flagByte = s.flagByte := rfl
@[simp] theorem appendDict_flagLeft (b : Byte) (s : State) : (appendDict b s).flagLeft = s.flagLeft := rfl
@[simp] theorem appendDict_matchSrc (b : Byte) (s : State) : (appendDict b s).matchSrc = s.matchSrc := rfl
@[simp] theorem appendDict_matchRem (b : Byte) (s : State) : (appendDict b s).matchRem = s.matchRem := rfl
@[simp] theorem appendDict_dsize (b : Byte) (s : State) : (appendDict b s).dsize = s.dsize := rfl
@[simp] theorem appendDict_dict (b : Byte) (s : State) : (appendDict b s).dict = Mem.set (some s.cfg.dictFill) s.dict s.dictPos.toNat b := rfl
@[simp] theorem appendDict_inBase (b : Byte) (s : State) : (appendDict b s).inBase = s.inBase := rfl
@[simp] theorem appendDict_inMem (b : Byte) (s : State) : (appendDict b s).inMem = s.inMem := rfl
@[simp] theorem appendDict_outBase (b : Byte) (s : State) : (appendDict b s).outBase = s.outBase := rfl
@[simp] theorem appendDict_outMem (b : Byte) (s : State) : (appendDict b s).outMem = s.outMem := rfl
@[simp] theorem appendDict_sched (b : Byte) (s : State) : (appendDict b s).sched = s.sched := rfl
@[simp] theorem appendDict_rdata (b : Byte) (s : State) : (appendDict b s).rdata = s.rdata := rfl

/-! ## useFlag -/

@[simp] theorem useFlag_cfg (s : State) : (useFlag s).cfg = s.cfg := rfl
@[simp] theorem useFlag_irqEn (s : State) : (useFlag s).irqEn = s.irqEn := rfl
@[simp] theorem useFlag_done (s : State) : (useFlag s).done = s.done := rfl
@[simp] theorem useFlag_stop (s : State) : (useFlag s).stop = s.stop := rfl
@[simp] theorem useFlag_brShort (s : State) : (useFlag s).brShort = s.brShort := rfl
@[simp] theorem useFlag_cmdErr (s : State) : (useFlag s).cmdErr = s.cmdErr := rfl
@[simp] theorem useFlag_limitErr (s : State) : (useFlag s).limitErr = s.limitErr := rfl
@[simp] theorem useFlag_inLen (s : State) : (useFlag s).inLen = s.inLen := rfl
@[simp] theorem useFlag_inPos (s : State) : (useFlag s).inPos = s.inPos := rfl
@[simp] theorem useFlag_outLimit (s : State) : (useFlag s).outLimit = s.outLimit := rfl
@[simp] theorem useFlag_outCount (s : State) : (useFlag s).outCount = s.outCount := rfl
@[simp] theorem useFlag_crcAcc (s : State) : (useFlag s).crcAcc = s.crcAcc := rfl
@[simp] theorem useFlag_brData (s : State) : (useFlag s).brData = s.brData := rfl
@[simp] theorem useFlag_brBuf (s : State) : (useFlag s).brBuf = s.brBuf := rfl
@[simp] theorem useFlag_brCount (s : State) : (useFlag s).brCount = s.brCount := rfl
@[simp] theorem useFlag_dictPos (s : State) : (useFlag s).dictPos = s.dictPos := rfl
@[simp] theorem useFlag_phase (s : State) : (useFlag s).phase = s.phase := rfl
@[simp] theorem useFlag_curOp (s : State) : (useFlag s).curOp = s.curOp := rfl
@[simp] theorem useFlag_curN (s : State) : (useFlag s).curN = s.curN := rfl
@[simp] theorem useFlag_curData (s : State) : (useFlag s).curData = s.curData := rfl
@[simp] theorem useFlag_crcIdx (s : State) : (useFlag s).crcIdx = s.crcIdx := rfl
@[simp] theorem useFlag_flagByte (s : State) : (useFlag s).flagByte = s.flagByte >>> 1 := rfl
@[simp] theorem useFlag_flagLeft (s : State) : (useFlag s).flagLeft = s.flagLeft - 1 := rfl
@[simp] theorem useFlag_matchSrc (s : State) : (useFlag s).matchSrc = s.matchSrc := rfl
@[simp] theorem useFlag_matchRem (s : State) : (useFlag s).matchRem = s.matchRem := rfl
@[simp] theorem useFlag_dsize (s : State) : (useFlag s).dsize = s.dsize := rfl
@[simp] theorem useFlag_dict (s : State) : (useFlag s).dict = s.dict := rfl
@[simp] theorem useFlag_inBase (s : State) : (useFlag s).inBase = s.inBase := rfl
@[simp] theorem useFlag_inMem (s : State) : (useFlag s).inMem = s.inMem := rfl
@[simp] theorem useFlag_outBase (s : State) : (useFlag s).outBase = s.outBase := rfl
@[simp] theorem useFlag_outMem (s : State) : (useFlag s).outMem = s.outMem := rfl
@[simp] theorem useFlag_sched (s : State) : (useFlag s).sched = s.sched := rfl
@[simp] theorem useFlag_rdata (s : State) : (useFlag s).rdata = s.rdata := rfl

/-! ## statusW1c -/

@[simp] theorem statusW1c_cfg (w : Word) (s : State) : (statusW1c w s).cfg = s.cfg := rfl
@[simp] theorem statusW1c_irqEn (w : Word) (s : State) : (statusW1c w s).irqEn = s.irqEn := rfl
@[simp] theorem statusW1c_done (w : Word) (s : State) : (statusW1c w s).done = (s.done && !w.getLsbD 1) := rfl
@[simp] theorem statusW1c_stop (w : Word) (s : State) : (statusW1c w s).stop = s.stop := rfl
@[simp] theorem statusW1c_brShort (w : Word) (s : State) : (statusW1c w s).brShort = (s.brShort && !w.getLsbD 4) := rfl
@[simp] theorem statusW1c_cmdErr (w : Word) (s : State) : (statusW1c w s).cmdErr = (s.cmdErr && !w.getLsbD 5) := rfl
@[simp] theorem statusW1c_limitErr (w : Word) (s : State) : (statusW1c w s).limitErr = (s.limitErr && !w.getLsbD 6) := rfl
@[simp] theorem statusW1c_inLen (w : Word) (s : State) : (statusW1c w s).inLen = s.inLen := rfl
@[simp] theorem statusW1c_inPos (w : Word) (s : State) : (statusW1c w s).inPos = s.inPos := rfl
@[simp] theorem statusW1c_outLimit (w : Word) (s : State) : (statusW1c w s).outLimit = s.outLimit := rfl
@[simp] theorem statusW1c_outCount (w : Word) (s : State) : (statusW1c w s).outCount = s.outCount := rfl
@[simp] theorem statusW1c_crcAcc (w : Word) (s : State) : (statusW1c w s).crcAcc = s.crcAcc := rfl
@[simp] theorem statusW1c_brData (w : Word) (s : State) : (statusW1c w s).brData = s.brData := rfl
@[simp] theorem statusW1c_brBuf (w : Word) (s : State) : (statusW1c w s).brBuf = s.brBuf := rfl
@[simp] theorem statusW1c_brCount (w : Word) (s : State) : (statusW1c w s).brCount = s.brCount := rfl
@[simp] theorem statusW1c_dictPos (w : Word) (s : State) : (statusW1c w s).dictPos = s.dictPos := rfl
@[simp] theorem statusW1c_phase (w : Word) (s : State) : (statusW1c w s).phase = s.phase := rfl
@[simp] theorem statusW1c_curOp (w : Word) (s : State) : (statusW1c w s).curOp = s.curOp := rfl
@[simp] theorem statusW1c_curN (w : Word) (s : State) : (statusW1c w s).curN = s.curN := rfl
@[simp] theorem statusW1c_curData (w : Word) (s : State) : (statusW1c w s).curData = s.curData := rfl
@[simp] theorem statusW1c_crcIdx (w : Word) (s : State) : (statusW1c w s).crcIdx = s.crcIdx := rfl
@[simp] theorem statusW1c_flagByte (w : Word) (s : State) : (statusW1c w s).flagByte = s.flagByte := rfl
@[simp] theorem statusW1c_flagLeft (w : Word) (s : State) : (statusW1c w s).flagLeft = s.flagLeft := rfl
@[simp] theorem statusW1c_matchSrc (w : Word) (s : State) : (statusW1c w s).matchSrc = s.matchSrc := rfl
@[simp] theorem statusW1c_matchRem (w : Word) (s : State) : (statusW1c w s).matchRem = s.matchRem := rfl
@[simp] theorem statusW1c_dsize (w : Word) (s : State) : (statusW1c w s).dsize = s.dsize := rfl
@[simp] theorem statusW1c_dict (w : Word) (s : State) : (statusW1c w s).dict = s.dict := rfl
@[simp] theorem statusW1c_inBase (w : Word) (s : State) : (statusW1c w s).inBase = s.inBase := rfl
@[simp] theorem statusW1c_inMem (w : Word) (s : State) : (statusW1c w s).inMem = s.inMem := rfl
@[simp] theorem statusW1c_outBase (w : Word) (s : State) : (statusW1c w s).outBase = s.outBase := rfl
@[simp] theorem statusW1c_outMem (w : Word) (s : State) : (statusW1c w s).outMem = s.outMem := rfl
@[simp] theorem statusW1c_sched (w : Word) (s : State) : (statusW1c w s).sched = s.sched := rfl
@[simp] theorem statusW1c_rdata (w : Word) (s : State) : (statusW1c w s).rdata = s.rdata := rfl

/-! ## raise -/

@[simp] theorem raise_cfg (c : Condition) (s : State) : (raise c s).cfg = s.cfg := by cases c <;> rfl
@[simp] theorem raise_irqEn (c : Condition) (s : State) : (raise c s).irqEn = s.irqEn := by cases c <;> rfl
@[simp] theorem raise_done (c : Condition) (s : State) : (raise c s).done = s.done := by cases c <;> rfl
@[simp] theorem raise_stop (c : Condition) (s : State) : (raise c s).stop = s.stop := by cases c <;> rfl
@[simp] theorem raise_brShort (c : Condition) (s : State) : (raise c s).brShort = (s.brShort || decide (c = .brShort)) := by cases c <;> cases h : s.brShort <;> simp [raise, h]
@[simp] theorem raise_cmdErr (c : Condition) (s : State) : (raise c s).cmdErr = (s.cmdErr || decide (c = .cmdErr)) := by cases c <;> cases h : s.cmdErr <;> simp [raise, h]
@[simp] theorem raise_limitErr (c : Condition) (s : State) : (raise c s).limitErr = (s.limitErr || decide (c = .limitErr)) := by cases c <;> cases h : s.limitErr <;> simp [raise, h]
@[simp] theorem raise_inLen (c : Condition) (s : State) : (raise c s).inLen = s.inLen := by cases c <;> rfl
@[simp] theorem raise_inPos (c : Condition) (s : State) : (raise c s).inPos = s.inPos := by cases c <;> rfl
@[simp] theorem raise_outLimit (c : Condition) (s : State) : (raise c s).outLimit = s.outLimit := by cases c <;> rfl
@[simp] theorem raise_outCount (c : Condition) (s : State) : (raise c s).outCount = s.outCount := by cases c <;> rfl
@[simp] theorem raise_crcAcc (c : Condition) (s : State) : (raise c s).crcAcc = s.crcAcc := by cases c <;> rfl
@[simp] theorem raise_brData (c : Condition) (s : State) : (raise c s).brData = s.brData := by cases c <;> rfl
@[simp] theorem raise_brBuf (c : Condition) (s : State) : (raise c s).brBuf = s.brBuf := by cases c <;> rfl
@[simp] theorem raise_brCount (c : Condition) (s : State) : (raise c s).brCount = s.brCount := by cases c <;> rfl
@[simp] theorem raise_dictPos (c : Condition) (s : State) : (raise c s).dictPos = s.dictPos := by cases c <;> rfl
@[simp] theorem raise_phase (c : Condition) (s : State) : (raise c s).phase = s.phase := by cases c <;> rfl
@[simp] theorem raise_curOp (c : Condition) (s : State) : (raise c s).curOp = s.curOp := by cases c <;> rfl
@[simp] theorem raise_curN (c : Condition) (s : State) : (raise c s).curN = s.curN := by cases c <;> rfl
@[simp] theorem raise_curData (c : Condition) (s : State) : (raise c s).curData = s.curData := by cases c <;> rfl
@[simp] theorem raise_crcIdx (c : Condition) (s : State) : (raise c s).crcIdx = s.crcIdx := by cases c <;> rfl
@[simp] theorem raise_flagByte (c : Condition) (s : State) : (raise c s).flagByte = s.flagByte := by cases c <;> rfl
@[simp] theorem raise_flagLeft (c : Condition) (s : State) : (raise c s).flagLeft = s.flagLeft := by cases c <;> rfl
@[simp] theorem raise_matchSrc (c : Condition) (s : State) : (raise c s).matchSrc = s.matchSrc := by cases c <;> rfl
@[simp] theorem raise_matchRem (c : Condition) (s : State) : (raise c s).matchRem = s.matchRem := by cases c <;> rfl
@[simp] theorem raise_dsize (c : Condition) (s : State) : (raise c s).dsize = s.dsize := by cases c <;> rfl
@[simp] theorem raise_dict (c : Condition) (s : State) : (raise c s).dict = s.dict := by cases c <;> rfl
@[simp] theorem raise_inBase (c : Condition) (s : State) : (raise c s).inBase = s.inBase := by cases c <;> rfl
@[simp] theorem raise_inMem (c : Condition) (s : State) : (raise c s).inMem = s.inMem := by cases c <;> rfl
@[simp] theorem raise_outBase (c : Condition) (s : State) : (raise c s).outBase = s.outBase := by cases c <;> rfl
@[simp] theorem raise_outMem (c : Condition) (s : State) : (raise c s).outMem = s.outMem := by cases c <;> rfl
@[simp] theorem raise_sched (c : Condition) (s : State) : (raise c s).sched = s.sched := by cases c <;> rfl
@[simp] theorem raise_rdata (c : Condition) (s : State) : (raise c s).rdata = s.rdata := by cases c <;> rfl

/-! ## withHostOf -/

@[simp] theorem withHostOf_cfg (u t : State) : (u.withHostOf t).cfg = u.cfg := rfl
@[simp] theorem withHostOf_irqEn (u t : State) : (u.withHostOf t).irqEn = t.irqEn := rfl
@[simp] theorem withHostOf_done (u t : State) : (u.withHostOf t).done = u.done := rfl
@[simp] theorem withHostOf_stop (u t : State) : (u.withHostOf t).stop = u.stop := rfl
@[simp] theorem withHostOf_brShort (u t : State) : (u.withHostOf t).brShort = t.brShort := rfl
@[simp] theorem withHostOf_cmdErr (u t : State) : (u.withHostOf t).cmdErr = t.cmdErr := rfl
@[simp] theorem withHostOf_limitErr (u t : State) : (u.withHostOf t).limitErr = t.limitErr := rfl
@[simp] theorem withHostOf_inLen (u t : State) : (u.withHostOf t).inLen = u.inLen := rfl
@[simp] theorem withHostOf_inPos (u t : State) : (u.withHostOf t).inPos = u.inPos := rfl
@[simp] theorem withHostOf_outLimit (u t : State) : (u.withHostOf t).outLimit = u.outLimit := rfl
@[simp] theorem withHostOf_outCount (u t : State) : (u.withHostOf t).outCount = u.outCount := rfl
@[simp] theorem withHostOf_crcAcc (u t : State) : (u.withHostOf t).crcAcc = u.crcAcc := rfl
@[simp] theorem withHostOf_brData (u t : State) : (u.withHostOf t).brData = u.brData := rfl
@[simp] theorem withHostOf_brBuf (u t : State) : (u.withHostOf t).brBuf = u.brBuf := rfl
@[simp] theorem withHostOf_brCount (u t : State) : (u.withHostOf t).brCount = u.brCount := rfl
@[simp] theorem withHostOf_dictPos (u t : State) : (u.withHostOf t).dictPos = u.dictPos := rfl
@[simp] theorem withHostOf_phase (u t : State) : (u.withHostOf t).phase = u.phase := rfl
@[simp] theorem withHostOf_curOp (u t : State) : (u.withHostOf t).curOp = u.curOp := rfl
@[simp] theorem withHostOf_curN (u t : State) : (u.withHostOf t).curN = u.curN := rfl
@[simp] theorem withHostOf_curData (u t : State) : (u.withHostOf t).curData = u.curData := rfl
@[simp] theorem withHostOf_crcIdx (u t : State) : (u.withHostOf t).crcIdx = u.crcIdx := rfl
@[simp] theorem withHostOf_flagByte (u t : State) : (u.withHostOf t).flagByte = u.flagByte := rfl
@[simp] theorem withHostOf_flagLeft (u t : State) : (u.withHostOf t).flagLeft = u.flagLeft := rfl
@[simp] theorem withHostOf_matchSrc (u t : State) : (u.withHostOf t).matchSrc = u.matchSrc := rfl
@[simp] theorem withHostOf_matchRem (u t : State) : (u.withHostOf t).matchRem = u.matchRem := rfl
@[simp] theorem withHostOf_dsize (u t : State) : (u.withHostOf t).dsize = u.dsize := rfl
@[simp] theorem withHostOf_dict (u t : State) : (u.withHostOf t).dict = u.dict := rfl
@[simp] theorem withHostOf_inBase (u t : State) : (u.withHostOf t).inBase = u.inBase := rfl
@[simp] theorem withHostOf_inMem (u t : State) : (u.withHostOf t).inMem = t.inMem := rfl
@[simp] theorem withHostOf_outBase (u t : State) : (u.withHostOf t).outBase = u.outBase := rfl
@[simp] theorem withHostOf_outMem (u t : State) : (u.withHostOf t).outMem = t.outMem := rfl
@[simp] theorem withHostOf_sched (u t : State) : (u.withHostOf t).sched = t.sched := rfl
@[simp] theorem withHostOf_rdata (u t : State) : (u.withHostOf t).rdata = t.rdata := rfl

/-! ## Busy -/

/-- `BUSY = 1` exactly when `PHASE != IDLE` (R26). -/
theorem busy_eq_true (s : State) : s.busy = true ↔ s.phase ≠ .idle := by simp [State.busy]

theorem busy_eq_false (s : State) : s.busy = false ↔ s.phase = .idle := by simp [State.busy]

@[simp] theorem finish_busy (s : State) : (finish s).busy = false := rfl
@[simp] theorem finishWith_busy (k : StopKind) (s : State) : (finishWith k s).busy = false := rfl
@[simp] theorem accept_busy (w : Word) (s : State) : (accept w s).busy = true := rfl
@[simp] theorem raise_busy (c : Condition) (s : State) : (raise c s).busy = s.busy := by cases c <;> rfl

end Sys2Proof.Machine
end

