-- ==== Sys2Proof/Laws/Memory.lean ====
section
/-! SUPPORT. The laws of a byte memory: a read after a write, every other index left alone, and that each operation keeps
the canonical form. -/

namespace Sys2Proof.Machine

namespace Mem

theorem wfFrom_cons {size : Nat} {d : Option Byte} {lo k : Nat} {b : Byte} {m : Mem} :
    wfFrom size d lo ((k, b) :: m) = true ↔ lo ≤ k ∧ k < size ∧ some b ≠ d ∧ wfFrom size d (k + 1) m = true := by
  simp [wfFrom, and_assoc]

theorem wfFrom_mono {size : Nat} {d : Option Byte} {lo lo' : Nat} {m : Mem} (h : lo' ≤ lo)
    (hm : wfFrom size d lo m = true) : wfFrom size d lo' m = true := by
  cases m with
  | nil => rfl
  | cons c m =>
    obtain ⟨k, b⟩ := c
    rw [wfFrom_cons] at hm ⊢
    exact ⟨h.trans hm.1, hm.2⟩

/-- Below its first index a memory lists nothing. -/
theorem lookup_below {size : Nat} {d : Option Byte} {lo a : Nat} {m : Mem} (hm : wfFrom size d lo m = true)
    (ha : a < lo) : lookup m a = none := by
  induction m generalizing lo with
  | nil => rfl
  | cons c m ih =>
    obtain ⟨k, b⟩ := c
    rw [wfFrom_cons] at hm
    have hk : k ≠ a := by omega
    rw [lookup, if_neg hk]
    exact ih hm.2.2.2 (by omega)

/-- Past the space a memory lists nothing. -/
theorem lookup_beyond {size : Nat} {d : Option Byte} {lo a : Nat} {m : Mem} (hm : wfFrom size d lo m = true)
    (ha : size ≤ a) : lookup m a = none := by
  induction m generalizing lo with
  | nil => rfl
  | cons c m ih =>
    obtain ⟨k, b⟩ := c
    rw [wfFrom_cons] at hm
    have hk : k ≠ a := by omega
    rw [lookup, if_neg hk]
    exact ih hm.2.2.2

/-- A listed cell never holds what an unlisted one reads as. -/
theorem lookup_ne_default {size : Nat} {d : Option Byte} {lo a : Nat} {m : Mem} {b : Byte}
    (hm : wfFrom size d lo m = true) (h : lookup m a = some b) : some b ≠ d := by
  induction m generalizing lo with
  | nil => simp [lookup] at h
  | cons c m ih =>
    obtain ⟨k, x⟩ := c
    rw [wfFrom_cons] at hm
    by_cases hk : k = a
    · rw [lookup, if_pos hk] at h
      exact Option.some.inj h ▸ hm.2.2.1
    · rw [lookup, if_neg hk] at h
      exact ih hm.2.2.2 h

/-- A write leaves every other index alone. -/
theorem lookup_set_ne (d : Option Byte) (m : Mem) {a a' : Nat} (v : Byte) (h : a ≠ a') :
    lookup (set d m a v) a' = lookup m a' := by
  induction m with
  | nil =>
    by_cases hv : some v = d <;> simp [set, lookup, hv, h]
  | cons c m ih =>
    obtain ⟨k, b⟩ := c
    by_cases h1 : a < k
    · by_cases hv : some v = d <;> simp [set, lookup, h1, hv, h]
    · by_cases h2 : a = k
      · subst h2
        by_cases hv : some v = d <;> simp [set, lookup, hv, h]
      · simp [set, lookup, h1, h2, ih]

/-- The written index lists the value, or nothing when the value is what an unlisted index reads as. -/
theorem lookup_set_self {size : Nat} {d : Option Byte} {lo : Nat} {m : Mem} (hm : wfFrom size d lo m = true) (a : Nat)
    (v : Byte) : lookup (set d m a v) a = if some v = d then none else some v := by
  induction m generalizing lo with
  | nil =>
    by_cases hv : some v = d <;> simp [set, lookup, hv]
  | cons c m ih =>
    obtain ⟨k, b⟩ := c
    rw [wfFrom_cons] at hm
    have below : ∀ x, x < k + 1 → lookup m x = none := fun x hx => lookup_below hm.2.2.2 hx
    by_cases h1 : a < k
    · have hk : k ≠ a := by omega
      by_cases hv : some v = d <;> simp [set, lookup, h1, hv, hk, below a (by omega)]
    · by_cases h2 : a = k
      · subst h2
        by_cases hv : some v = d <;> simp [set, lookup, hv, below a (by omega)]
      · have hk : k ≠ a := fun e => h2 e.symm
        simp only [set, h1, h2, if_false, lookup, hk]
        exact ih hm.2.2.2

/-- Where an unlisted index has no value, a written index reads the value. -/
theorem lookup_set_none {size : Nat} {lo : Nat} {m : Mem} (hm : wfFrom size none lo m = true) (a : Nat) (v : Byte) :
    lookup (set none m a v) a = some v := by
  rw [lookup_set_self hm]
  simp

/-- Where an unlisted index reads `f`, a written index reads the value. -/
theorem getD_lookup_set {size : Nat} {f : Byte} {lo : Nat} {m : Mem} (hm : wfFrom size (some f) lo m = true) (a : Nat)
    (v : Byte) : (lookup (set (some f) m a v) a).getD f = v := by
  rw [lookup_set_self hm]
  by_cases hv : v = f <;> simp [hv]

/-- A write keeps the canonical form. -/
theorem wfFrom_set {size : Nat} {d : Option Byte} {lo a : Nat} {m : Mem} (hm : wfFrom size d lo m = true) (hlo : lo ≤ a)
    (ha : a < size) (v : Byte) : wfFrom size d lo (set d m a v) = true := by
  induction m generalizing lo with
  | nil =>
    by_cases hv : some v = d
    · simp [set, hv, wfFrom]
    · simp [set, hv, wfFrom, hlo, ha]
  | cons c m ih =>
    obtain ⟨k, b⟩ := c
    rw [wfFrom_cons] at hm
    by_cases h1 : a < k
    · by_cases hv : some v = d
      · simp only [set, h1, hv, if_true, wfFrom_cons]
        exact hm
      · simp only [set, h1, hv, if_true, if_false, wfFrom_cons]
        exact ⟨hlo, ha, hv, by omega, hm.2.1, hm.2.2.1, hm.2.2.2⟩
    · by_cases h2 : a = k
      · subst h2
        by_cases hv : some v = d
        · simp only [set, lt_irrefl, hv, if_true, if_false]
          exact wfFrom_mono (by omega) hm.2.2.2
        · simp only [set, lt_irrefl, hv, if_true, if_false, wfFrom_cons]
          exact ⟨hlo, ha, hv, hm.2.2.2⟩
      · simp only [set, h1, h2, if_false, wfFrom_cons]
        exact ⟨hm.1, hm.2.1, hm.2.2.1, ih hm.2.2.2 (by omega)⟩

/-- A write keeps the canonical form of a whole memory. -/
theorem wf_set {size : Nat} {d : Option Byte} {a : Nat} {m : Mem} (hm : wf size d m = true) (ha : a < size) (v : Byte) :
    wf size d (set d m a v) = true :=
  wfFrom_set hm (Nat.zero_le a) ha v

/-- A bound buffer has the canonical form. -/
theorem wfFrom_ofBytesFrom {size k : Nat} {bytes : List Byte} (h : k + bytes.length ≤ size) :
    wfFrom size none k (ofBytesFrom k bytes) = true := by
  induction bytes generalizing k with
  | nil => rfl
  | cons b bs ih =>
    simp only [List.length_cons] at h
    rw [ofBytesFrom, wfFrom_cons]
    exact ⟨le_refl k, by omega, by simp, ih (by omega)⟩

theorem wf_ofBytes {size : Nat} {bytes : List Byte} (h : bytes.length ≤ size) : wf size none (ofBytes bytes) = true :=
  wfFrom_ofBytesFrom (by simpa using h)

/-- A bound buffer reads as the bytes it was bound to. -/
theorem lookup_ofBytesFrom (bytes : List Byte) (k i : Nat) : lookup (ofBytesFrom k bytes) (k + i) = bytes[i]? := by
  induction bytes generalizing k i with
  | nil => rfl
  | cons b bs ih =>
    cases i with
    | zero => simp [ofBytesFrom, lookup]
    | succ i =>
      have hk : k ≠ k + (i + 1) := by omega
      have e : k + (i + 1) = k + 1 + i := by omega
      rw [ofBytesFrom, lookup, if_neg hk, e, ih]
      simp

theorem lookup_ofBytes (bytes : List Byte) (i : Nat) : lookup (ofBytes bytes) i = bytes[i]? := by
  have h := lookup_ofBytesFrom bytes 0 i
  rwa [Nat.zero_add] at h

/-- What a covered range says: every index of it is listed. -/
theorem lookup_of_coversFrom {n k i : Nat} {m : Mem} (h : coversFrom n k m = true) (hk : k ≤ i) (hi : i < n) :
    (lookup m i).isSome := by
  induction m generalizing k with
  | nil =>
    simp only [coversFrom, decide_eq_true_eq] at h
    omega
  | cons c m ih =>
    obtain ⟨a, b⟩ := c
    simp only [coversFrom, Bool.or_eq_true, Bool.and_eq_true, decide_eq_true_eq] at h
    obtain ⟨rfl, h⟩ := h.resolve_left (by omega)
    by_cases e : a = i
    · simp [lookup, e]
    · rw [lookup, if_neg e]
      exact ih h (by omega)

/-- In canonical form a range whose every index is listed is covered. -/
theorem coversFrom_of_lookup {size n k : Nat} {d : Option Byte} {m : Mem} (hm : wfFrom size d k m = true)
    (h : ∀ i, k ≤ i → i < n → (lookup m i).isSome) : coversFrom n k m = true := by
  induction m generalizing k with
  | nil =>
    simp only [coversFrom, decide_eq_true_eq]
    by_contra hk
    simpa [lookup] using h k (le_refl k) (by omega)
  | cons c m ih =>
    obtain ⟨a, b⟩ := c
    rw [wfFrom_cons] at hm
    simp only [coversFrom, Bool.or_eq_true, Bool.and_eq_true, decide_eq_true_eq]
    by_cases hn : n ≤ k
    · exact Or.inl hn
    · have hka : a = k := by
        by_contra e
        have hl := h k (le_refl k) (by omega)
        rw [lookup, if_neg e, lookup_below hm.2.2.2 (by omega)] at hl
        simp at hl
      subst hka
      refine Or.inr ⟨rfl, ih hm.2.2.2 fun i hi hin => ?_⟩
      have hl := h i (by omega) hin
      rwa [lookup, if_neg (by omega)] at hl

/-- A buffer covers its first `n` indices exactly when they are all listed. -/
theorem covers_iff {size n : Nat} {d : Option Byte} {m : Mem} (hm : wf size d m = true) :
    covers n m = true ↔ ∀ i, i < n → (lookup m i).isSome :=
  ⟨fun h i hi => lookup_of_coversFrom h (Nat.zero_le i) hi, fun h => coversFrom_of_lookup hm fun i _ hi => h i hi⟩

/-- Writing a listed index where nothing is ever unlisted keeps which indices are listed. -/
theorem map_fst_set_none {size lo a : Nat} {m : Mem} (hm : wfFrom size none lo m = true)
    (h : (lookup m a).isSome) (v : Byte) : (set none m a v).map Prod.fst = m.map Prod.fst := by
  induction m generalizing lo with
  | nil => simp [lookup] at h
  | cons c m ih =>
    obtain ⟨k, b⟩ := c
    rw [wfFrom_cons] at hm
    by_cases h1 : a < k
    · have hk : k ≠ a := by omega
      rw [lookup, if_neg hk, lookup_below hm.2.2.2 (by omega)] at h
      simp at h
    · by_cases h2 : a = k
      · subst h2
        simp [set]
      · have hk : k ≠ a := fun e => h2 e.symm
        rw [lookup, if_neg hk] at h
        simp [set, h1, h2, ih hm.2.2.2 h]

end Mem

/-! ## Overlap -/

/-- Overlap depends on which indices are listed, not on what they hold. -/
theorem buffersOverlap_eq (ib ob : Nat) (im om : Mem) :
    buffersOverlap ib im ob om
      = (im.map Prod.fst).any (fun c => (om.map Prod.fst).any (fun d => ib + c == ob + d)) := by
  simp [buffersOverlap, List.any_map, Function.comp_def]

theorem buffersOverlap_congr {ib ob : Nat} {im im' om om' : Mem} (hi : im'.map Prod.fst = im.map Prod.fst)
    (ho : om'.map Prod.fst = om.map Prod.fst) : buffersOverlap ib im' ob om' = buffersOverlap ib im ob om := by
  rw [buffersOverlap_eq, buffersOverlap_eq, hi, ho]

/-- Which indices are bound depends on the listed indices alone. -/
theorem Mem.isSome_lookup_iff (m : Mem) (i : Nat) : (Mem.lookup m i).isSome ↔ i ∈ m.map Prod.fst := by
  induction m with
  | nil => simp [Mem.lookup]
  | cons c m ih =>
    obtain ⟨a, b⟩ := c
    by_cases e : a = i
    · simp [Mem.lookup, e]
    · rw [Mem.lookup, if_neg e, ih]
      simp [Ne.symm e]

theorem inBound_iff (s : State) : s.inBound ↔ ∀ i, i < s.inLen.toNat → (Mem.lookup s.inMem i).isSome :=
  ⟨fun h i hi => by
    have e : (BitVec.ofNat 32 i).toNat = i := Nat.mod_eq_of_lt (hi.trans s.inLen.isLt)
    have := h (BitVec.ofNat 32 i) (show (BitVec.ofNat 32 i).toNat < s.inLen.toNat by rwa [e])
    rwa [inByte, e] at this,
  fun h i hi => h i.toNat hi⟩

theorem outBound_iff (s : State) : s.outBound ↔ ∀ i, i < s.outLimit.toNat → (Mem.lookup s.outMem i).isSome :=
  ⟨fun h i hi => by
    have e : (BitVec.ofNat 32 i).toNat = i := Nat.mod_eq_of_lt (hi.trans s.outLimit.isLt)
    have := h (BitVec.ofNat 32 i) (show (BitVec.ofNat 32 i).toNat < s.outLimit.toNat by rwa [e])
    rwa [outByte, e] at this,
  fun h i hi => h i.toNat hi⟩

theorem memWf_iff (s : State) : s.memWf = true ↔
    Mem.wf bufferSize none s.inMem = true ∧ Mem.wf bufferSize none s.outMem = true
      ∧ Mem.wf dictRamSize (some s.cfg.dictFill) s.dict = true := by
  simp [State.memWf, and_assoc]

end Sys2Proof.Machine
end

