-- ==== Sys2Proof/Laws/Ops.lean ====
section
/-! SUPPORT. What each shared operation over memory and registers can do, said once. -/

namespace Sys2Proof.Machine

/-! ## Byte accesses -/

/-- The state after a byte is emitted (R99). -/
def emitted (b : Byte) (s : State) : State :=
  { s with
    outMem := Mem.set none s.outMem s.outCount.toNat b
    outCount := s.outCount + 1
    dict := if usesDict s then Mem.set (some s.cfg.dictFill) s.dict s.dictPos.toNat b else s.dict
    dictPos := if usesDict s then nextIdx s.dsize s.dictPos else s.dictPos }

/-- The state after a match byte is copied (R100). -/
def copied (s : State) : State :=
  { emitted (dictByte s s.matchSrc) s with matchSrc := nextIdx s.dsize s.matchSrc, matchRem := s.matchRem - 1 }

theorem setOut_of_bound {s : State} {i : Word} (b : Byte) (h : (outByte s i).isSome) :
    setOut i b s = some { s with outMem := Mem.set none s.outMem i.toNat b } := by
  obtain ⟨x, hx⟩ := Option.isSome_iff_exists.mp h
  simp [setOut, hx]

theorem setOut_of_not_bound {s : State} {i : Word} (b : Byte) (h : outByte s i = none) : setOut i b s = none := by
  simp [setOut, h]

/-- Writing OUT: the index was bound, and only its byte changes. -/
theorem setOut_eq_some {s t : State} {i : Word} {b : Byte} (h : setOut i b s = some t) :
    (outByte s i).isSome ∧ t = { s with outMem := Mem.set none s.outMem i.toNat b } := by
  cases hb : outByte s i with
  | none => rw [setOut_of_not_bound b hb] at h; cases h
  | some x =>
    rw [setOut_of_bound b (by simp [hb])] at h
    exact ⟨rfl, (Option.some.inj h).symm⟩

theorem emit_of_bound {s : State} (b : Byte) (h : (outByte s s.outCount).isSome) : emit b s = some (emitted b s) := by
  rw [emit, setOut_of_bound b h]
  by_cases hd : usesDict s = true <;>
    simp_all [usesDict, emitted, appendDict, setDict]

theorem emit_of_not_bound {s : State} (b : Byte) (h : outByte s s.outCount = none) : emit b s = none := by
  rw [emit, setOut_of_not_bound b h]

/-- Emitting a byte: OUT was bound at `OUT_COUNT`, and the state is the one R99 gives. -/
theorem emit_eq_some {s t : State} {b : Byte} (h : emit b s = some t) :
    (outByte s s.outCount).isSome ∧ t = emitted b s := by
  cases hb : outByte s s.outCount with
  | none => rw [emit_of_not_bound b hb] at h; cases h
  | some x =>
    rw [emit_of_bound b (by simp [hb])] at h
    exact ⟨rfl, (Option.some.inj h).symm⟩

theorem copyByte_of_bound {s : State} (h : (outByte s s.outCount).isSome) : copyByte s = some (copied s) := by
  rw [copyByte, emit_of_bound _ h]
  rfl

theorem copyByte_of_not_bound {s : State} (h : outByte s s.outCount = none) : copyByte s = none := by
  rw [copyByte, emit_of_not_bound _ h]

/-- Copying a match byte: OUT was bound at `OUT_COUNT`, and the state is the one R100 gives. -/
theorem copyByte_eq_some {s t : State} (h : copyByte s = some t) :
    (outByte s s.outCount).isSome ∧ t = copied s := by
  cases hb : outByte s s.outCount with
  | none => rw [copyByte_of_not_bound hb] at h; cases h
  | some x =>
    rw [copyByte_of_bound (by simp [hb])] at h
    exact ⟨rfl, (Option.some.inj h).symm⟩

theorem orOutputNotBound_eq_next {o : Option State} {t : State} (h : orOutputNotBound o = .next t) : o = some t := by
  cases o with
  | none => cases h
  | some u => exact congrArg some (Host.Outcome.next.inj h)

/-! ## Reading after writing -/

/-- Emitting a byte writes OUT at `OUT_COUNT` and nowhere else. -/
theorem outByte_emitted {s : State} (hs : s.memWf = true) (b : Byte) (i : Word) :
    outByte (emitted b s) i = if i = s.outCount then some b else outByte s i := by
  by_cases h : i = s.outCount
  · subst h
    simpa [outByte, emitted] using Mem.lookup_set_none ((memWf_iff s).mp hs).2.1 s.outCount.toNat b
  · have hn : s.outCount.toNat ≠ i.toNat := fun e => h (BitVec.eq_of_toNat_eq e.symm)
    simp [outByte, emitted, h, Mem.lookup_set_ne _ _ _ hn]

/-- Emitting a byte in a dictionary decode writes DICT at `DICT_POS` and nowhere else. -/
theorem dictByte_emitted {s : State} (hs : s.memWf = true) (b : Byte) (i : DictIdx) :
    dictByte (emitted b s) i = if usesDict s = true ∧ i = s.dictPos then b else dictByte s i := by
  by_cases hd : usesDict s = true
  · by_cases h : i = s.dictPos
    · subst h
      simpa [dictByte, emitted, hd] using Mem.getD_lookup_set ((memWf_iff s).mp hs).2.2 s.dictPos.toNat b
    · have hn : s.dictPos.toNat ≠ i.toNat := fun e => h (BitVec.eq_of_toNat_eq e.symm)
      simp [dictByte, emitted, hd, h, Mem.lookup_set_ne _ _ _ hn]
  · simp [dictByte, emitted, hd]

/-- A freshly filled dictionary reads `DICT_FILL` everywhere (R98). -/
theorem dictByte_dictInit (d : DictSize) (p : DictIdx) (s : State) (i : DictIdx) :
    dictByte (dictInit d p s) i = s.cfg.dictFill := rfl

/-! ## Canonical form -/

theorem memWf_setOut {s t : State} {i : Word} {b : Byte} (hs : s.memWf = true) (h : setOut i b s = some t) :
    t.memWf = true := by
  obtain ⟨-, rfl⟩ := setOut_eq_some h
  rw [memWf_iff] at hs ⊢
  exact ⟨hs.1, Mem.wf_set hs.2.1 i.isLt b, hs.2.2⟩

theorem memWf_emitted {s : State} (hs : s.memWf = true) (b : Byte) : (emitted b s).memWf = true := by
  rw [memWf_iff] at hs ⊢
  refine ⟨hs.1, Mem.wf_set hs.2.1 s.outCount.isLt b, ?_⟩
  by_cases hd : usesDict s = true
  · simpa [emitted, hd] using Mem.wf_set hs.2.2 (by have := s.dictPos.isLt; simp [dictRamSize]; omega) b
  · simpa [emitted, hd] using hs.2.2

theorem memWf_copied {s : State} (hs : s.memWf = true) : (copied s).memWf = true :=
  (memWf_iff _).mpr ((memWf_iff _).mp (memWf_emitted hs (dictByte s s.matchSrc)))

theorem memWf_dictInit {s : State} (hs : s.memWf = true) (d : DictSize) (p : DictIdx) :
    (dictInit d p s).memWf = true := by
  rw [memWf_iff] at hs ⊢
  exact ⟨hs.1, hs.2.1, rfl⟩

/-- Writing OUT keeps which of its indices are bound. -/
theorem outMem_keys_emitted {s : State} (hs : s.memWf = true) (h : (outByte s s.outCount).isSome) (b : Byte) :
    (emitted b s).outMem.map Prod.fst = s.outMem.map Prod.fst :=
  Mem.map_fst_set_none ((memWf_iff s).mp hs).2.1 h b

end Sys2Proof.Machine
end

