-- ==== Sys2Proof/Laws/Operands.lean ====
section
/-! SUPPORT. What the bit cursor can do, said once (42_bit_extractor.md R91, R92). -/

namespace Sys2Proof.Machine

/-- The state after a byte is pulled (R91). -/
def pulled (b : Byte) (s : State) : State :=
  { s with
    brBuf := s.brBuf ||| (b.setWidth 24 <<< s.brCount.toNat)
    inPos := s.inPos + 1
    brCount := s.brCount + 8 }

/-- The state after `n` bits are taken off the buffer (R91). -/
def dropped (n : Nat) (s : State) : State :=
  { s with brBuf := s.brBuf >>> n, brCount := s.brCount - BitVec.ofNat 5 n }

theorem pullByte_eq_some {s t : State} (h : pullByte s = some t) :
    ∃ b, inByte s s.inPos = some b ∧ t = pulled b s := by
  cases hb : inByte s s.inPos with
  | none => simp [pullByte, hb] at h
  | some b =>
    simp only [pullByte, hb] at h
    exact ⟨b, rfl, (Option.some.inj h).symm⟩

theorem pullByte_of_bound {s : State} {b : Byte} (h : inByte s s.inPos = some b) : pullByte s = some (pulled b s) := by
  simp [pullByte, h, pulled]

theorem pulled_brCount {s : State} (b : Byte) (h : s.brCount.toNat < 16) :
    (pulled b s).brCount.toNat = s.brCount.toNat + 8 := by
  simp [pulled, BitVec.toNat_add]
  omega

/-- Pulling for a field of up to 16 bits: no byte, one or two, each only while the buffer is short of `n` (R91). -/
theorem pullTo_cases {n : Nat} {s t : State} (hn : n ≤ 16) (h : pullTo n 2 s = some t) :
    (n ≤ s.brCount.toNat ∧ t = s)
    ∨ (s.brCount.toNat < n ∧ n ≤ s.brCount.toNat + 8 ∧ ∃ b, inByte s s.inPos = some b ∧ t = pulled b s)
    ∨ (s.brCount.toNat + 8 < n ∧ ∃ b b', inByte s s.inPos = some b ∧ inByte s (s.inPos + 1) = some b'
        ∧ t = pulled b' (pulled b s)) := by
  by_cases h0 : s.brCount.toNat < n
  · cases hp : pullByte s with
    | none => simp [pullTo, h0, hp] at h
    | some u =>
      obtain ⟨b, hb, rfl⟩ := pullByte_eq_some hp
      have hc := pulled_brCount b (s := s) (by omega)
      simp only [pullTo, h0, if_true, hp] at h
      by_cases h1 : s.brCount.toNat + 8 < n
      · rw [hc, if_pos h1] at h
        cases hq : pullByte (pulled b s) with
        | none => simp [hq] at h
        | some u' =>
          obtain ⟨b', hb', rfl⟩ := pullByte_eq_some hq
          simp only [hq] at h
          exact Or.inr (Or.inr ⟨h1, b, b', hb, hb', (Option.some.inj h).symm⟩)
      · rw [hc, if_neg h1] at h
        exact Or.inr (Or.inl ⟨h0, by omega, b, hb, (Option.some.inj h).symm⟩)
  · simp only [pullTo, h0, if_false] at h
    exact Or.inl ⟨by omega, (Option.some.inj h).symm⟩

theorem readBits_short_iff {n : Nat} {s : State} : readBits n s = .short ↔ availBits s < n := by
  unfold readBits
  by_cases h : availBits s < n
  · simp [h]
  · simp only [h, if_false, iff_false]
    cases pullTo n 2 s <;> simp

/-- A read that succeeds: enough bits were left, and the field came off the buffer after the pulls (R91). -/
theorem readBits_eq_ok {n : Nat} {s t : State} {v : Half} (h : readBits n s = .ok v t) :
    n ≤ availBits s ∧ ∃ u, pullTo n 2 s = some u ∧ v = BitVec.ofNat 16 (u.brBuf.toNat % 2 ^ n) ∧ t = dropped n u := by
  unfold readBits at h
  by_cases ha : availBits s < n
  · simp [ha] at h
  · simp only [ha, if_false] at h
    cases hp : pullTo n 2 s with
    | none => simp [hp] at h
    | some u =>
      simp only [hp, ReadBits.ok.injEq] at h
      exact ⟨by omega, u, rfl, h.1.symm, h.2.symm⟩

/-- What a successful read changes: the cursor, and nothing else. -/
theorem readBits_frame {n : Nat} {s t : State} {v : Half} (hn : n ≤ 16) (h : readBits n s = .ok v t) :
    t = { s with brBuf := t.brBuf, brCount := t.brCount, inPos := t.inPos } := by
  obtain ⟨-, u, hu, -, rfl⟩ := readBits_eq_ok h
  rcases pullTo_cases hn hu with ⟨-, rfl⟩ | ⟨-, -, b, -, rfl⟩ | ⟨-, b, b', -, -, rfl⟩ <;> rfl

theorem toNat_sub_of_le {w : Nat} {x y : BitVec w} (h : y.toNat ≤ x.toNat) : (x - y).toNat = x.toNat - y.toNat := by
  have := x.isLt
  rw [BitVec.toNat_sub]
  have e : 2 ^ w - y.toNat + x.toNat = 2 ^ w + (x.toNat - y.toNat) := by have := y.isLt; omega
  rw [e, Nat.add_mod_left, Nat.mod_eq_of_lt (by omega)]

theorem dropped_brCount {n : Nat} {s : State} (hn : n ≤ 16) (h : n ≤ s.brCount.toNat) :
    (dropped n s).brCount.toNat = s.brCount.toNat - n := by
  have e : (BitVec.ofNat 5 n).toNat = n := by simp; omega
  have := toNat_sub_of_le (x := s.brCount) (y := BitVec.ofNat 5 n) (by omega)
  rw [e] at this
  exact this

theorem toNat_add_one {x y : Word} (h : x < y) : (x + 1).toNat = x.toNat + 1 := by
  have h1 : x.toNat < y.toNat := h
  have := y.isLt
  simp [BitVec.toNat_add]
  omega

/-- How far a successful read moves the cursor (R92): exactly `n` bits, by whole bytes, within the input, with at most 7
bits held afterwards when at most 7 were held before. -/
theorem readBits_cursor {n : Nat} {s t : State} {v : Half} (hn : n ≤ 16) (h : readBits n s = .ok v t) :
    s.inPos.toNat ≤ t.inPos.toNat
      ∧ t.brCount.toNat + n = s.brCount.toNat + 8 * (t.inPos.toNat - s.inPos.toNat)
      ∧ (s.brCount.toNat ≤ 7 → t.brCount.toNat ≤ 7)
      ∧ (s.inPos ≤ s.inLen → t.inPos ≤ s.inLen) := by
  obtain ⟨ha, u, hu, -, rfl⟩ := readBits_eq_ok h
  rcases pullTo_cases hn hu with ⟨h0, rfl⟩ | ⟨h0, h1, b, -, rfl⟩ | ⟨h0, b, b', -, -, rfl⟩
  · have e := dropped_brCount hn h0
    have hp : (dropped n u).inPos.toNat = u.inPos.toNat := rfl
    exact ⟨by omega, by omega, by omega, id⟩
  · have hlt : s.inPos < s.inLen := by
      show s.inPos.toNat < s.inLen.toNat
      unfold availBits at ha
      omega
    have hc := pulled_brCount b (s := s) (by omega)
    have e := dropped_brCount (s := pulled b s) hn (by omega)
    have hp : (dropped n (pulled b s)).inPos.toNat = s.inPos.toNat + 1 := toNat_add_one hlt
    have hl : s.inPos.toNat < s.inLen.toNat := hlt
    refine ⟨by omega, by omega, by omega, fun _ => ?_⟩
    show (dropped n (pulled b s)).inPos.toNat ≤ s.inLen.toNat
    omega
  · have hlt : s.inPos.toNat + 1 < s.inLen.toNat := by
      unfold availBits at ha
      omega
    have hc := pulled_brCount b (s := s) (by omega)
    have hc' := pulled_brCount b' (s := pulled b s) (by omega)
    have e := dropped_brCount (s := pulled b' (pulled b s)) hn (by omega)
    have hp1 : (s.inPos + 1).toNat = s.inPos.toNat + 1 :=
      toNat_add_one (y := s.inLen) (show s.inPos.toNat < s.inLen.toNat by omega)
    have hp : (dropped n (pulled b' (pulled b s))).inPos.toNat = s.inPos.toNat + 2 := by
      have h2 : (s.inPos + 1 + 1).toNat = (s.inPos + 1).toNat + 1 :=
        toNat_add_one (y := s.inLen) (show (s.inPos + 1).toNat < s.inLen.toNat by omega)
      show (s.inPos + 1 + 1).toNat = _
      omega
    refine ⟨by omega, by omega, by omega, fun _ => ?_⟩
    show (dropped n (pulled b' (pulled b s))).inPos.toNat ≤ s.inLen.toNat
    omega

/-! ## No bits above the count (R89) -/

/-- The top of the buffer, in bits. -/
theorem bufferTop_iff (s : State) :
    s.brBuf >>> s.brCount.toNat = 0 ↔ ∀ i, s.brCount.toNat ≤ i → s.brBuf.getLsbD i = false := by
  constructor
  · intro h i hi
    have e : (s.brBuf >>> s.brCount.toNat).getLsbD (i - s.brCount.toNat) = s.brBuf.getLsbD i := by
      rw [BitVec.getLsbD_ushiftRight]
      congr 1
      omega
    rw [← e, h]
    simp
  · intro h
    apply BitVec.eq_of_getLsbD_eq
    intro i _
    rw [BitVec.getLsbD_ushiftRight, h _ (Nat.le_add_right _ _)]
    simp

theorem bufferTop_pulled {s : State} (b : Byte) (hc : s.brCount.toNat < 16) (h : s.brBuf >>> s.brCount.toNat = 0) :
    (pulled b s).brBuf >>> (pulled b s).brCount.toNat = 0 := by
  rw [bufferTop_iff] at h ⊢
  intro i hi
  rw [pulled_brCount b hc] at hi
  simp only [pulled, BitVec.getLsbD_or, h i (by omega), Bool.false_or, BitVec.getLsbD_shiftLeft, BitVec.getLsbD_setWidth]
  have : b.getLsbD (i - s.brCount.toNat) = false := BitVec.getLsbD_of_ge _ _ (by omega)
  simp [this]

theorem bufferTop_dropped {n : Nat} {s : State} (hn : n ≤ 16) (hle : n ≤ s.brCount.toNat)
    (h : s.brBuf >>> s.brCount.toNat = 0) : (dropped n s).brBuf >>> (dropped n s).brCount.toNat = 0 := by
  rw [bufferTop_iff] at h ⊢
  intro i hi
  rw [dropped_brCount hn hle] at hi
  simp only [dropped, BitVec.getLsbD_ushiftRight]
  exact h _ (by omega)

/-- A successful read keeps the buffer clear above its count (R89). -/
theorem bufferTop_readBits {n : Nat} {s t : State} {v : Half} (hn : n ≤ 16) (h : readBits n s = .ok v t)
    (hs : s.brBuf >>> s.brCount.toNat = 0) : t.brBuf >>> t.brCount.toNat = 0 := by
  obtain ⟨-, u, hu, -, rfl⟩ := readBits_eq_ok h
  rcases pullTo_cases hn hu with ⟨h0, rfl⟩ | ⟨h0, h1, b, -, rfl⟩ | ⟨h0, b, b', -, -, rfl⟩
  · exact bufferTop_dropped hn h0 hs
  · have hc := pulled_brCount b (s := s) (by omega)
    exact bufferTop_dropped hn (by omega) (bufferTop_pulled b (by omega) hs)
  · have hc := pulled_brCount b (s := s) (by omega)
    have hc' := pulled_brCount b' (s := pulled b s) (by omega)
    exact bufferTop_dropped hn (by omega) (bufferTop_pulled b' (by omega) (bufferTop_pulled b (by omega) hs))

end Sys2Proof.Machine
end

