-- ==== Sys2Proof/Laws/Decode.lean ====
section
/-! SUPPORT. The command word's fields, and which words are legal (30_encoding.md R49 to R53). -/

namespace Sys2Proof

theorem getLsbD_opField (w : Word) (i : Nat) : (opField w).getLsbD i = (decide (i < 4) && w.getLsbD i) := by
  simp [opField]

theorem getLsbD_nField (w : Word) (i : Nat) : (nField w).getLsbD i = (decide (i < 5) && w.getLsbD (4 + i)) := by
  simp [nField]

theorem getLsbD_dataField (w : Word) (i : Nat) : (dataField w).getLsbD i = (decide (i < 8) && w.getLsbD (16 + i)) := by
  simp [dataField]

/-- The bits of an assembled word (R49). -/
theorem getLsbD_commandWord (o : BitVec 4) (n : BitVec 5) (d : Byte) (i : Nat) (hi : i < 32) :
    (commandWord o n d).getLsbD i
      = ((decide (16 ≤ i) && d.getLsbD (i - 16)) || (decide (4 ≤ i) && n.getLsbD (i - 4)) || o.getLsbD i) := by
  have e16 : (!decide (i < 16)) = decide (16 ≤ i) := Bool.eq_iff_iff.mpr (by simp)
  have e4 : (!decide (i < 4)) = decide (4 ≤ i) := Bool.eq_iff_iff.mpr (by simp)
  simp [commandWord, hi, e16, e4]

@[simp] theorem opField_commandWord (o : BitVec 4) (n : BitVec 5) (d : Byte) : opField (commandWord o n d) = o := by
  apply BitVec.eq_of_getLsbD_eq
  intro i hi
  rw [getLsbD_opField, getLsbD_commandWord _ _ _ _ (by omega)]
  have h1 : decide (16 ≤ i) = false := by simp; omega
  have h2 : decide (4 ≤ i) = false := by simp; omega
  simp [hi, h1, h2]

@[simp] theorem nField_commandWord (o : BitVec 4) (n : BitVec 5) (d : Byte) : nField (commandWord o n d) = n := by
  apply BitVec.eq_of_getLsbD_eq
  intro i hi
  rw [getLsbD_nField, getLsbD_commandWord _ _ _ _ (by omega)]
  have h1 : decide (16 ≤ 4 + i) = false := by simp; omega
  simp [hi, h1]

@[simp] theorem dataField_commandWord (o : BitVec 4) (n : BitVec 5) (d : Byte) :
    dataField (commandWord o n d) = d := by
  apply BitVec.eq_of_getLsbD_eq
  intro i hi
  rw [getLsbD_dataField, getLsbD_commandWord _ _ _ _ (by omega)]
  have h1 : o.getLsbD (16 + i) = false := BitVec.getLsbD_of_ge _ _ (by omega)
  have h2 : n.getLsbD (16 + i - 4) = false := BitVec.getLsbD_of_ge _ _ (by omega)
  simp [hi, h1, h2]

/-- A word whose reserved bits are 0 is its three fields (R49). -/
theorem commandWord_fields {w : Word} (hi : w.extractLsb' 24 8 = 0) (mid : w.extractLsb' 9 7 = 0) :
    commandWord (opField w) (nField w) (dataField w) = w := by
  apply BitVec.eq_of_getLsbD_eq
  intro i h
  rw [getLsbD_commandWord _ _ _ _ h, getLsbD_opField, getLsbD_nField, getLsbD_dataField]
  have top : ∀ j, 24 ≤ j → j < 32 → w.getLsbD j = false := by
    intro j h1 h2
    have e := congrArg (fun x => x.getLsbD (j - 24)) hi
    have hj : decide (j - 24 < 8) = true := by simp; omega
    have ej : 24 + (j - 24) = j := by omega
    simpa [hj, ej] using e
  have gap : ∀ j, 9 ≤ j → j < 16 → w.getLsbD j = false := by
    intro j h1 h2
    have e := congrArg (fun x => x.getLsbD (j - 9)) mid
    have hj : decide (j - 9 < 7) = true := by simp; omega
    have ej : 9 + (j - 9) = j := by omega
    simpa [hj, ej] using e
  by_cases h4 : i < 4
  · have a : decide (16 ≤ i) = false := by simp; omega
    have b : decide (4 ≤ i) = false := by simp; omega
    simp [a, b, h4]
  · by_cases h9 : i < 9
    · have a : decide (16 ≤ i) = false := by simp; omega
      have b : decide (i - 4 < 5) = true := by simp; omega
      have e : 4 + (i - 4) = i := by omega
      simp [a, b, e, h4]
      omega
    · by_cases h16 : i < 16
      · have a : decide (16 ≤ i) = false := by simp; omega
        have b : decide (i - 4 < 5) = false := by simp; omega
        simp [a, b, h4, gap i (by omega) h16]
      · by_cases h24 : i < 24
        · have a : decide (16 ≤ i) = true := by simp; omega
          have b : decide (i - 4 < 5) = false := by simp; omega
          have c : decide (i - 16 < 8) = true := by simp; omega
          have e : 16 + (i - 16) = i := by omega
          simp [a, b, c, e, h4]
        · have b : decide (i - 4 < 5) = false := by simp; omega
          have c : decide (i - 16 < 8) = false := by simp; omega
          simp [b, c, h4, top i (by omega) h]

/-- A legal word is its three fields (R52). -/
theorem commandWord_fields_of_legal {w : Word} (h : legal w = true) :
    commandWord (opField w) (nField w) (dataField w) = w := by
  simp only [legal, Bool.and_eq_true, beq_iff_eq] at h
  exact commandWord_fields h.1.1.1.1 h.1.1.1.2

/-- The legal words (R51, R52): the eight fixed ones, `CRC_BYTE` with any byte, `BR_READ` with 1..16. -/
theorem legal_cases {w : Word} (h : legal w = true) :
    (∃ o : BitVec 4, o.toNat ≤ 9 ∧ o ≠ 0x2#4 ∧ o ≠ 0x5#4 ∧ w = commandWord o 0 0)
    ∨ (∃ d : Byte, w = commandWord 0x2 0 d)
    ∨ (∃ n : BitVec 5, 1 ≤ n.toNat ∧ n.toNat ≤ maxField ∧ w = commandWord 0x5 n 0) := by
  have e := commandWord_fields_of_legal h
  simp only [legal, Bool.and_eq_true, decide_eq_true_eq] at h
  obtain ⟨⟨⟨-, hop⟩, hn⟩, hd⟩ := h
  change (opField w).toNat ≤ 9 at hop
  change (if opField w = 0x5#4 then decide (1 ≤ (nField w).toNat) && decide ((nField w).toNat ≤ maxField)
    else nField w == 0) = true at hn
  change (if opField w = 0x2#4 then true else dataField w == 0) = true at hd
  by_cases h2 : opField w = 0x2#4
  · rw [if_neg (by rw [h2]; decide), beq_iff_eq] at hn
    exact Or.inr (Or.inl ⟨dataField w, by rw [← e, h2, hn]; simp⟩)
  · rw [if_neg h2, beq_iff_eq] at hd
    by_cases h5 : opField w = 0x5#4
    · rw [if_pos h5, Bool.and_eq_true, decide_eq_true_eq, decide_eq_true_eq] at hn
      exact Or.inr (Or.inr ⟨nField w, hn.1, hn.2, by rw [← e, h5, hd]; simp⟩)
    · rw [if_neg h5, beq_iff_eq] at hn
      exact Or.inl ⟨opField w, hop, h2, h5, by rw [← e, hd, hn]; simp⟩

/-- `CRC_BYTE` with every byte decodes to itself. -/
theorem decodeCommand_crcByte (d : Byte) : decodeCommand (commandWord 0x2 0 d) = .crcByte d := by
  revert d
  decide +kernel

/-- `BR_READ` with 1..16 decodes to itself. -/
theorem decodeCommand_brRead {n : BitVec 5} (h1 : 1 ≤ n.toNat) (h2 : n.toNat ≤ maxField) :
    decodeCommand (commandWord 0x5 n 0) = .brRead n := by
  revert n
  decide +kernel

/-- The command with OP 0x0, 0x1, 0x3, 0x4, 0x6 .. 0x9 and no operand (R51). -/
def plainCommand (o : BitVec 4) : Instr :=
  if o = 0x0#4 then .nop
  else if o = 0x1#4 then .crcInit
  else if o = 0x3#4 then .crcBuf
  else if o = 0x4#4 then .brInit
  else if o = 0x6#4 then .decStore
  else if o = 0x7#4 then .decLz4k
  else if o = 0x8#4 then .decLz8k
  else .decEmpty

theorem decodeCommand_plain {o : BitVec 4} (h : o.toNat ≤ 9) (h2 : o ≠ 0x2#4) (h5 : o ≠ 0x5#4) :
    decodeCommand (commandWord o 0 0) = plainCommand o := by
  revert o
  decide +kernel

/-- What a legal word decodes to, with its OP (R51): never the illegal space. -/
theorem decodeCommand_of_legal {w : Word} (h : legal w = true) :
    (decodeCommand w = .nop ∧ opField w = 0x0#4)
    ∨ (decodeCommand w = .crcInit ∧ opField w = 0x1#4)
    ∨ (decodeCommand w = .crcByte (dataField w) ∧ opField w = 0x2#4)
    ∨ (decodeCommand w = .crcBuf ∧ opField w = 0x3#4)
    ∨ (decodeCommand w = .brInit ∧ opField w = 0x4#4)
    ∨ (decodeCommand w = .brRead (nField w) ∧ opField w = 0x5#4 ∧ 1 ≤ (nField w).toNat ∧ (nField w).toNat ≤ 16)
    ∨ (decodeCommand w = .decStore ∧ opField w = 0x6#4)
    ∨ (decodeCommand w = .decLz4k ∧ opField w = 0x7#4)
    ∨ (decodeCommand w = .decLz8k ∧ opField w = 0x8#4)
    ∨ (decodeCommand w = .decEmpty ∧ opField w = 0x9#4) := by
  rcases legal_cases h with ⟨o, h9, h2, h5, rfl⟩ | ⟨d, rfl⟩ | ⟨n, h1, h16, rfl⟩
  · rw [decodeCommand_plain h9 h2 h5, opField_commandWord]
    revert o
    decide +kernel
  · rw [decodeCommand_crcByte, dataField_commandWord, opField_commandWord]
    exact Or.inr (Or.inr (Or.inl ⟨rfl, rfl⟩))
  · rw [decodeCommand_brRead h1 h16]
    simp only [maxField] at h16
    simp [h1, h16]

/-- Latching a legal word keeps it whole (R67). -/
theorem Machine.latchedWord_accept {w : Word} (h : legal w = true) (s : Machine.State) :
    Machine.latchedWord (Machine.accept w s) = w :=
  commandWord_fields_of_legal h

end Sys2Proof
end

