-- ==== Sys2Proof/Laws/PerInstr.lean ====
section
/-! SUPPORT. Statements about every instruction as syntax, one lemma per constructor (LAWS.json). Fits: an encoding's
bits fit its width (30_encoding.md R49, R54, R57, R59). -/

namespace Sys2Proof.Laws.Fits

/-- The encoding's value is a number of its `nbits` bits. -/
def Statement (i : Instr) : Prop := (encode i).value < 2 ^ (encode i).nbits

theorem nop : Statement .nop := (commandWord 0x0 0 0).isLt
theorem crcInit : Statement .crcInit := (commandWord 0x1 0 0).isLt
theorem crcByte (d : Byte) : Statement (.crcByte d) := (commandWord 0x2 0 d).isLt
theorem crcBuf : Statement .crcBuf := (commandWord 0x3 0 0).isLt
theorem brInit : Statement .brInit := (commandWord 0x4 0 0).isLt
theorem brRead (n : BitVec 5) : Statement (.brRead n) := (commandWord 0x5 n 0).isLt
theorem decStore : Statement .decStore := (commandWord 0x6 0 0).isLt
theorem decLz4k : Statement .decLz4k := (commandWord 0x7 0 0).isLt
theorem decLz8k : Statement .decLz8k := (commandWord 0x8 0 0).isLt
theorem decEmpty : Statement .decEmpty := (commandWord 0x9 0 0).isLt
theorem illegalCommand (w : Word) : Statement (.illegalCommand w) := w.isLt

theorem lz4Literal (b : Byte) : Statement (.lz4Literal b) := by
  have := b.isLt
  simp only [Statement, encode]; omega

theorem lz4Match (p : BitVec 12) (n : BitVec 4) : Statement (.lz4Match p n) := by
  have := p.isLt
  have := n.isLt
  simp only [Statement, encode]; omega

theorem lz8Flag (f : Byte) : Statement (.lz8Flag f) := f.isLt
theorem lz8Literal (b : Byte) : Statement (.lz8Literal b) := b.isLt

theorem lz8Match (o : BitVec 12) (n : BitVec 4) : Statement (.lz8Match o n) := by
  have := o.isLt
  have := n.isLt
  simp only [Statement, encode]; omega

end Sys2Proof.Laws.Fits
end

