-- ==== Sys2Proof/Laws/Step.lean ====
section
/-! SUPPORT. What one step can do, said once: every next state of the engine, of a host access and of the machine is one
of the cases listed here, each with its guard. Invariants are proved from these cases. -/

namespace Sys2Proof.Machine

/-! ## The engine -/

/-- The next states of an engine turn, by phase (40_control.md R70, R71). -/
inductive EngineStep (s : State) : State → Prop
  /-- No step is enabled (R138). -/
  | idle (hp : s.phase = .idle) : EngineStep s s
  /-- R73. -/
  | nop (hp : s.phase = .start) (ho : s.curOp = 0x0#4) : EngineStep s (finish s)
  /-- R85. -/
  | crcInit (hp : s.phase = .start) (ho : s.curOp = 0x1#4) : EngineStep s (finish { s with crcAcc := 0x0000 })
  /-- R86. -/
  | crcByte (hp : s.phase = .start) (ho : s.curOp = 0x2#4) :
      EngineStep s (finish { s with crcAcc := crcStep s.crcAcc s.curData })
  /-- R87. -/
  | crcBuf (hp : s.phase = .start) (ho : s.curOp = 0x3#4) : EngineStep s { s with crcIdx := 0, phase := .crcRun }
  /-- R94. -/
  | brInit (hp : s.phase = .start) (ho : s.curOp = 0x4#4) :
      EngineStep s (finish { s with inPos := 0, brBuf := 0, brCount := 0 })
  /-- R95, enough bits. -/
  | brRead (hp : s.phase = .start) (ho : s.curOp = 0x5#4) (h1 : 1 ≤ s.curN.toNat) (h16 : s.curN.toNat ≤ 16) (v : Half)
      (u : State) (hr : readBits s.curN.toNat s = .ok v u) : EngineStep s (finish { u with brData := v })
  /-- R95, too few bits. -/
  | brShort (hp : s.phase = .start) (ho : s.curOp = 0x5#4) (h1 : 1 ≤ s.curN.toNat) (h16 : s.curN.toNat ≤ 16)
      (hr : availBits s < s.curN.toNat) : EngineStep s (finish (raise .brShort s))
  /-- R105. -/
  | decStore (hp : s.phase = .start) (ho : s.curOp = 0x6#4) : EngineStep s { decInit s with phase := .storeRun }
  /-- R109. -/
  | decLz4k (hp : s.phase = .start) (ho : s.curOp = 0x7#4) :
      EngineStep s { dictInit .k4 (s.cfg.dict4InitPos.setWidth 13) (decInit s) with phase := .lz4Token }
  /-- R115. -/
  | decLz8k (hp : s.phase = .start) (ho : s.curOp = 0x8#4) :
      EngineStep s { dictInit .k8 s.cfg.dict8InitPos (decInit s) with phase := .lz8Token }
  /-- R107. -/
  | decEmpty (hp : s.phase = .start) (ho : s.curOp = 0x9#4) : EngineStep s (finishWith .empty (decInit s))
  /-- R88, all bytes read. -/
  | crcEnd (hp : s.phase = .crcRun) (h : s.inLen ≤ s.crcIdx) : EngineStep s (finish s)
  /-- R88, one byte. -/
  | crcRun (hp : s.phase = .crcRun) (h : s.crcIdx < s.inLen) (b : Byte) (hb : inByte s s.crcIdx = some b) :
      EngineStep s { s with crcAcc := crcStep s.crcAcc b, crcIdx := s.crcIdx + 1 }
  /-- R101, in every phase of a decode. -/
  | limit (hp : s.phase.decoding = true) (h : s.outCount = s.outLimit) : EngineStep s (finishWith .limit s)
  /-- R106, input used up. -/
  | storeEnd (hp : s.phase = .storeRun) (ho : s.outCount ≠ s.outLimit) (h : s.inLen ≤ s.inPos) :
      EngineStep s (finishWith .exhaust s)
  /-- R106, one byte. -/
  | storeRun (hp : s.phase = .storeRun) (ho : s.outCount ≠ s.outLimit) (h : s.inPos < s.inLen) (b : Byte)
      (hb : inByte s s.inPos = some b) (hout : (outByte s s.outCount).isSome) :
      EngineStep s (emitted b { s with inPos := s.inPos + 1 })
  /-- R110, no flag bit left. -/
  | lz4NoFlag (hp : s.phase = .lz4Token) (ho : s.outCount ≠ s.outLimit) (h : availBits s < 1) :
      EngineStep s (finishWith .exhaust s)
  /-- R111, literal cut short. -/
  | lz4NoLiteral (hp : s.phase = .lz4Token) (ho : s.outCount ≠ s.outLimit) (s1 : State)
      (h1 : readBits 1 s = .ok 1 s1) (h : availBits s1 < 8) : EngineStep s (finishWith .exhaust s1)
  /-- R111. -/
  | lz4Literal (hp : s.phase = .lz4Token) (ho : s.outCount ≠ s.outLimit) (s1 s2 : State) (l : Half)
      (h1 : readBits 1 s = .ok 1 s1) (h2 : readBits 8 s1 = .ok l s2) (hout : (outByte s2 s2.outCount).isSome) :
      EngineStep s (emitted (BitVec.ofNat 8 l.toNat) s2)
  /-- R112, position cut short. -/
  | lz4NoPosition (hp : s.phase = .lz4Token) (ho : s.outCount ≠ s.outLimit) (f : Half) (s1 : State)
      (h1 : readBits 1 s = .ok f s1) (hf : f ≠ 1) (h : availBits s1 < 12) : EngineStep s (finishWith .exhaust s1)
  /-- R112, length cut short. -/
  | lz4NoLength (hp : s.phase = .lz4Token) (ho : s.outCount ≠ s.outLimit) (f p : Half) (s1 s2 : State)
      (h1 : readBits 1 s = .ok f s1) (hf : f ≠ 1) (h2 : readBits 12 s1 = .ok p s2) (h : availBits s2 < 4) :
      EngineStep s (finishWith .exhaust s2)
  /-- R112. -/
  | lz4Match (hp : s.phase = .lz4Token) (ho : s.outCount ≠ s.outLimit) (f p n : Half) (s1 s2 s3 : State)
      (h1 : readBits 1 s = .ok f s1) (hf : f ≠ 1) (h2 : readBits 12 s1 = .ok p s2) (h3 : readBits 4 s2 = .ok n s3) :
      EngineStep s { s3 with
        matchSrc := (BitVec.ofNat 12 p.toNat).setWidth 13
        matchRem := matchLength (BitVec.ofNat 4 n.toNat)
        phase := .lz4Copy }
  /-- R113, R119, a byte that is not the match's last. -/
  | copy (hp : s.phase.copying = true) (ho : s.outCount ≠ s.outLimit) (hout : (outByte s s.outCount).isSome)
      (h : s.matchRem - 1 ≠ 0) : EngineStep s (copied s)
  /-- R113, the match's last byte. -/
  | lz4CopyEnd (hp : s.phase = .lz4Copy) (ho : s.outCount ≠ s.outLimit) (hout : (outByte s s.outCount).isSome)
      (h : s.matchRem - 1 = 0) : EngineStep s { copied s with phase := .lz4Token }
  /-- R119, the match's last byte. -/
  | lz8CopyEnd (hp : s.phase = .lz8Copy) (ho : s.outCount ≠ s.outLimit) (hout : (outByte s s.outCount).isSome)
      (h : s.matchRem - 1 = 0) : EngineStep s { copied s with phase := .lz8Token }
  /-- R116, no flag byte left. -/
  | lz8NoFlag (hp : s.phase = .lz8Token) (ho : s.outCount ≠ s.outLimit) (hf : s.flagLeft = 0) (h : s.inLen ≤ s.inPos) :
      EngineStep s (finishWith .exhaust s)
  /-- R116, a flag byte. -/
  | lz8Flag (hp : s.phase = .lz8Token) (ho : s.outCount ≠ s.outLimit) (hf : s.flagLeft = 0) (h : s.inPos < s.inLen)
      (f : Byte) (hb : inByte s s.inPos = some f) :
      EngineStep s { s with inPos := s.inPos + 1, flagByte := f, flagLeft := 8 }
  /-- R117, no byte left. -/
  | lz8NoLiteral (hp : s.phase = .lz8Token) (ho : s.outCount ≠ s.outLimit) (hf : s.flagLeft ≠ 0)
      (hbit : s.flagByte.getLsbD 0 = true) (h : s.inLen ≤ s.inPos) : EngineStep s (finishWith .exhaust (useFlag s))
  /-- R117. -/
  | lz8Literal (hp : s.phase = .lz8Token) (ho : s.outCount ≠ s.outLimit) (hf : s.flagLeft ≠ 0)
      (hbit : s.flagByte.getLsbD 0 = true) (h : s.inPos < s.inLen) (b : Byte) (hb : inByte s s.inPos = some b)
      (hout : (outByte s s.outCount).isSome) : EngineStep s (emitted b { useFlag s with inPos := s.inPos + 1 })
  /-- R118, fewer than two bytes left. -/
  | lz8NoMatch (hp : s.phase = .lz8Token) (ho : s.outCount ≠ s.outLimit) (hf : s.flagLeft ≠ 0)
      (hbit : s.flagByte.getLsbD 0 = false) (h : s.inLen.toNat - s.inPos.toNat < 2) :
      EngineStep s (finishWith .exhaust (useFlag s))
  /-- R118. -/
  | lz8Match (hp : s.phase = .lz8Token) (ho : s.outCount ≠ s.outLimit) (hf : s.flagLeft ≠ 0)
      (hbit : s.flagByte.getLsbD 0 = false) (h : 2 ≤ s.inLen.toNat - s.inPos.toNat) (b1 b2 : Byte)
      (hb1 : inByte s s.inPos = some b1) (hb2 : inByte s (s.inPos + 1) = some b2) :
      EngineStep s { useFlag s with
        inPos := s.inPos + 1 + 1
        matchSrc := matchSource8 s.dictPos (((b2.setWidth 12 &&& 0xF0#12) <<< 4) ||| b1.setWidth 12)
        matchRem := matchLength (b2.extractLsb' 0 4)
        phase := .lz8Copy }

theorem runTurn_done {r : Result} {t : State} (h : runTurn (.done r) = .next t) : r = .next t := h

theorem underLimit_next {s t : State} {f : Fetched} (hd : s.phase.decoding = true)
    (h : runTurn (underLimit s f) = .next t) : EngineStep s t ∨ (s.outCount ≠ s.outLimit ∧ runTurn f = .next t) := by
  unfold underLimit at h
  by_cases hl : s.outCount = s.outLimit
  · rw [if_pos hl] at h
    cases h
    exact Or.inl (.limit hd hl)
  · rw [if_neg hl] at h
    exact Or.inr ⟨hl, h⟩

theorem withField_next {n : Nat} {s t : State} {k : Half → State → Fetched} (h : runTurn (withField n s k) = .next t) :
    (availBits s < n ∧ t = finishWith .exhaust s) ∨ ∃ v u, readBits n s = .ok v u ∧ runTurn (k v u) = .next t := by
  unfold withField at h
  cases hr : readBits n s with
  | ok v u =>
    rw [hr] at h
    exact Or.inr ⟨v, u, rfl, h⟩
  | short =>
    rw [hr] at h
    cases h
    exact Or.inl ⟨readBits_short_iff.mp hr, rfl⟩
  | notBound =>
    rw [hr] at h
    cases h

theorem withByte_next {s t : State} {k : Byte → State → Fetched} (h : runTurn (withByte s k) = .next t) :
    ∃ b, inByte s s.inPos = some b ∧ runTurn (k b { s with inPos := s.inPos + 1 }) = .next t := by
  unfold withByte at h
  cases hb : inByte s s.inPos with
  | none =>
    rw [hb] at h
    cases h
  | some b =>
    rw [hb] at h
    exact ⟨b, rfl, h⟩

theorem fetchCommand_next {s t : State} (hp : s.phase = .start) (h : runTurn (fetchCommand s) = .next t) :
    EngineStep s t := by
  unfold fetchCommand at h
  cases hl : legal (latchedWord s) with
  | false =>
    rw [hl] at h
    cases h
  | true =>
    rw [hl] at h
    change exec (decodeCommand (latchedWord s)) s = .next t at h
    have ho : opField (latchedWord s) = s.curOp := opField_commandWord _ _ _
    have hn : nField (latchedWord s) = s.curN := nField_commandWord _ _ _
    have hd : dataField (latchedWord s) = s.curData := dataField_commandWord _ _ _
    have hc := decodeCommand_of_legal hl
    rw [ho, hn, hd] at hc
    rcases hc with ⟨e, o⟩ | ⟨e, o⟩ | ⟨e, o⟩ | ⟨e, o⟩ | ⟨e, o⟩ | ⟨e, o, h1, h16⟩ | ⟨e, o⟩ | ⟨e, o⟩ | ⟨e, o⟩ | ⟨e, o⟩ <;>
      rw [e] at h
    · cases h
      exact .nop hp o
    · cases h
      exact .crcInit hp o
    · cases h
      exact .crcByte hp o
    · cases h
      exact .crcBuf hp o
    · cases h
      exact .brInit hp o
    · change execBrRead s.curN s = .next t at h
      unfold execBrRead at h
      cases hr : readBits s.curN.toNat s with
      | ok v u =>
        rw [hr] at h
        cases h
        exact .brRead hp o h1 h16 v u hr
      | short =>
        rw [hr] at h
        cases h
        exact .brShort hp o h1 h16 (readBits_short_iff.mp hr)
      | notBound =>
        rw [hr] at h
        cases h
    · cases h
      exact .decStore hp o
    · cases h
      exact .decLz4k hp o
    · cases h
      exact .decLz8k hp o
    · cases h
      exact .decEmpty hp o

theorem crcRunStep_next {s t : State} (hp : s.phase = .crcRun) (h : crcRunStep s = .next t) : EngineStep s t := by
  unfold crcRunStep at h
  by_cases hl : s.inLen ≤ s.crcIdx
  · rw [if_pos hl] at h
    cases h
    exact .crcEnd hp hl
  · rw [if_neg hl] at h
    cases hb : inByte s s.crcIdx with
    | none =>
      rw [hb] at h
      cases h
    | some b =>
      rw [hb] at h
      cases h
      exact .crcRun hp (BitVec.not_le.mp hl) b hb

theorem storeRunStep_next {s t : State} (hp : s.phase = .storeRun) (h : storeRunStep s = .next t) : EngineStep s t := by
  unfold storeRunStep at h
  by_cases ho : s.outCount = s.outLimit
  · rw [if_pos ho] at h
    cases h
    exact .limit (by rw [hp]; rfl) ho
  · rw [if_neg ho] at h
    by_cases hl : s.inLen ≤ s.inPos
    · rw [if_pos hl] at h
      cases h
      exact .storeEnd hp ho hl
    · rw [if_neg hl] at h
      cases hb : inByte s s.inPos with
      | none =>
        rw [hb] at h
        cases h
      | some b =>
        rw [hb] at h
        obtain ⟨hout, rfl⟩ := emit_eq_some (orOutputNotBound_eq_next h)
        exact .storeRun hp ho (BitVec.not_le.mp hl) b hb hout

theorem copyStep_next {s t : State} {token : Phase} (hc : s.phase.copying = true) (hd : s.phase.decoding = true)
    (hend : s.outCount ≠ s.outLimit → (outByte s s.outCount).isSome → s.matchRem - 1 = 0 →
      EngineStep s { copied s with phase := token })
    (h : copyStep token s = .next t) : EngineStep s t := by
  unfold copyStep at h
  by_cases ho : s.outCount = s.outLimit
  · rw [if_pos ho] at h
    cases h
    exact .limit hd ho
  · rw [if_neg ho] at h
    cases hcb : copyByte s with
    | none =>
      rw [hcb] at h
      cases h
    | some u =>
      rw [hcb] at h
      obtain ⟨hout, rfl⟩ := copyByte_eq_some hcb
      cases h
      by_cases hr : s.matchRem - 1 = 0
      · have e : (copied s).matchRem = 0 := hr
        rw [if_pos e]
        exact hend ho hout hr
      · have e : (copied s).matchRem ≠ 0 := hr
        rw [if_neg e]
        exact .copy hc ho hout hr

theorem fetchLz4_next {s t : State} (hp : s.phase = .lz4Token) (h : runTurn (fetchLz4 s) = .next t) :
    EngineStep s t := by
  rcases underLimit_next (by rw [hp]; rfl) h with he | ⟨ho, h⟩
  · exact he
  rcases withField_next h with ⟨ha, rfl⟩ | ⟨f, s1, h1, h⟩
  · exact .lz4NoFlag hp ho ha
  by_cases hf : f = 1
  · subst hf
    rw [if_pos rfl] at h
    rcases withField_next h with ⟨ha, rfl⟩ | ⟨l, s2, h2, h⟩
    · exact .lz4NoLiteral hp ho s1 h1 ha
    · change execLz4Literal (BitVec.ofNat 8 l.toNat) s2 = .next t at h
      obtain ⟨hout, rfl⟩ := emit_eq_some (orOutputNotBound_eq_next h)
      exact .lz4Literal hp ho s1 s2 l h1 h2 hout
  · rw [if_neg hf] at h
    rcases withField_next h with ⟨ha, rfl⟩ | ⟨p, s2, h2, h⟩
    · exact .lz4NoPosition hp ho f s1 h1 hf ha
    · rcases withField_next h with ⟨ha, rfl⟩ | ⟨n, s3, h3, h⟩
      · exact .lz4NoLength hp ho f p s1 s2 h1 hf h2 ha
      · cases h
        exact .lz4Match hp ho f p n s1 s2 s3 h1 hf h2 h3

theorem fetchLz8_next {s t : State} (hp : s.phase = .lz8Token) (h : runTurn (fetchLz8 s) = .next t) :
    EngineStep s t := by
  rcases underLimit_next (by rw [hp]; rfl) h with he | ⟨ho, h⟩
  · exact he
  by_cases hf : s.flagLeft = 0
  · rw [if_pos hf] at h
    by_cases hl : s.inLen ≤ s.inPos
    · rw [if_pos hl] at h
      cases h
      exact .lz8NoFlag hp ho hf hl
    · rw [if_neg hl] at h
      obtain ⟨f, hb, h⟩ := withByte_next h
      cases h
      exact .lz8Flag hp ho hf (BitVec.not_le.mp hl) f hb
  · rw [if_neg hf] at h
    cases hbit : s.flagByte.getLsbD 0 with
    | true =>
      rw [hbit, if_pos rfl] at h
      by_cases hl : s.inLen ≤ s.inPos
      · rw [if_pos hl] at h
        cases h
        exact .lz8NoLiteral hp ho hf hbit hl
      · rw [if_neg hl] at h
        obtain ⟨b, hb, h⟩ := withByte_next h
        change execLz8Literal b { useFlag s with inPos := s.inPos + 1 } = .next t at h
        obtain ⟨hout, rfl⟩ := emit_eq_some (orOutputNotBound_eq_next h)
        exact .lz8Literal hp ho hf hbit (BitVec.not_le.mp hl) b hb hout
    | false =>
      rw [hbit, if_neg Bool.false_ne_true] at h
      by_cases hl : s.inLen.toNat - s.inPos.toNat < 2
      · rw [if_pos hl] at h
        cases h
        exact .lz8NoMatch hp ho hf hbit hl
      · rw [if_neg hl] at h
        obtain ⟨b1, hb1, h⟩ := withByte_next h
        obtain ⟨b2, hb2, h⟩ := withByte_next h
        cases h
        exact .lz8Match hp ho hf hbit (by omega) b1 b2 hb1 hb2

/-- Every next state of an engine turn is one of the cases. -/
theorem engineTurn_next {s t : State} (h : runTurn (engineTurn s) = .next t) : EngineStep s t := by
  unfold engineTurn at h
  cases hp : s.phase <;> rw [hp] at h
  · cases h
    exact .idle hp
  · exact fetchCommand_next hp h
  · exact crcRunStep_next hp h
  · exact storeRunStep_next hp h
  · exact fetchLz4_next hp h
  · exact copyStep_next (by rw [hp]; rfl) (by rw [hp]; rfl) (fun a b c => .lz4CopyEnd hp a b c) h
  · exact fetchLz8_next hp h
  · exact copyStep_next (by rw [hp]; rfl) (by rw [hp]; rfl) (fun a b c => .lz8CopyEnd hp a b c) h

/-! ## The host -/

/-- The next states of a host access (40_control.md R63 to R69, R77). -/
inductive HostStep (s : State) : State → Prop
  /-- R68. -/
  | busyCommand (hb : s.busy = true) : HostStep s (refuseBusy s)
  /-- R69. -/
  | illegalCommand (hb : s.busy = false) (w : Word) (hl : legal w = false) : HostStep s (refuseIllegal s)
  /-- R96. -/
  | overLimit (hb : s.busy = false) (w : Word) (hl : legal w = true) (hw : boundedCommand w = true)
      (hm : s.cfg.maxOut < s.outLimit.toNat) : HostStep s (refuseLimit s)
  /-- R67. -/
  | accepted (hb : s.busy = false) (w : Word) (hl : legal w = true)
      (hm : boundedCommand w = true → s.outLimit.toNat ≤ s.cfg.maxOut)
      (hi : usesInput (opField w) = true → s.inBound) (ho : usesOutput (opField w) = true → s.outBound) :
      HostStep s (accept w s)
  /-- R65. -/
  | statusClear (w : Word) : HostStep s (statusW1c w s)
  /-- R16. -/
  | ctrl (b : Bool) : HostStep s { s with irqEn := b }
  /-- R66. -/
  | refusedWrite (hb : s.busy = true) : HostStep s (cfgRefused s)
  /-- R17. -/
  | inLen (hb : s.busy = false) (w : Word) : HostStep s { s with inLen := w }
  /-- R19. -/
  | outLimit (hb : s.busy = false) (w : Word) : HostStep s { s with outLimit := w }
  /-- R21. -/
  | crcAcc (hb : s.busy = false) (v : Half) : HostStep s { s with crcAcc := v }
  /-- R25. -/
  | ignored : HostStep s s
  /-- R39, R63. -/
  | read (v : Word) : HostStep s { s with rdata := v }
  /-- R29, R77. -/
  | bindIn (hb : s.busy = false) (base : Nat) (bytes : List Byte) (hlen : bytes.length ≤ bufferSize)
      (hd : buffersOverlap base (Mem.ofBytes bytes) s.outBase s.outMem = false) :
      HostStep s { s with inBase := base, inMem := Mem.ofBytes bytes }
  /-- R29, R77. -/
  | bindOut (hb : s.busy = false) (base : Nat) (bytes : List Byte) (hlen : bytes.length ≤ bufferSize)
      (hd : buffersOverlap s.inBase s.inMem base (Mem.ofBytes bytes) = false) :
      HostStep s { s with outBase := base, outMem := Mem.ofBytes bytes }
  /-- R44. -/
  | writeIn (i : Word) (b : Byte) (hduty : s.busy = true → s.inLen ≤ i) (hbound : (inByte s i).isSome) :
      HostStep s { s with inMem := Mem.set none s.inMem i.toNat b }
  /-- R44. -/
  | writeOut (i : Word) (b : Byte) (hduty : s.busy = true → s.outLimit ≤ i) (hbound : (outByte s i).isSome) :
      HostStep s { s with outMem := Mem.set none s.outMem i.toNat b }

/-- A command that is issued without a fault has the buffers it uses bound (R143). -/
theorem bound_of_issueFault {w : Word} {s : State} (h : issueFault w s = none) :
    (usesInput (opField w) = true → s.inBound) ∧ (usesOutput (opField w) = true → s.outBound) := by
  unfold issueFault at h
  by_cases hi : (usesInput (opField w) && !Mem.covers s.inLen.toNat s.inMem) = true
  · rw [if_pos hi] at h
    cases h
  · rw [if_neg hi] at h
    by_cases ho : (usesOutput (opField w) && !Mem.covers s.outLimit.toNat s.outMem) = true
    · rw [if_pos ho] at h
      cases h
    · simp only [Bool.and_eq_true, Bool.not_eq_true', not_and, Bool.not_eq_false] at hi ho
      exact ⟨fun e => (inBound_iff s).mpr fun i hlt => Mem.lookup_of_coversFrom (hi e) (Nat.zero_le i) hlt,
        fun e => (outBound_iff s).mpr fun i hlt => Mem.lookup_of_coversFrom (ho e) (Nat.zero_le i) hlt⟩

/-- A command whose buffers are bound is issued without a fault. -/
theorem issueFault_of_bound {w : Word} {s : State} (hs : s.memWf = true)
    (hi : usesInput (opField w) = true → s.inBound) (ho : usesOutput (opField w) = true → s.outBound) :
    issueFault w s = none := by
  have hw := (memWf_iff s).mp hs
  unfold issueFault
  rw [if_neg, if_neg]
  · simp only [Bool.and_eq_true, Bool.not_eq_true', not_and, Bool.not_eq_false]
    exact fun e => (Mem.covers_iff hw.2.1).mpr ((outBound_iff s).mp (ho e))
  · simp only [Bool.and_eq_true, Bool.not_eq_true', not_and, Bool.not_eq_false]
    exact fun e => (Mem.covers_iff hw.1).mpr ((inBound_iff s).mp (hi e))

theorem commandTurn_next {s t : State} {w : Word} (h : runTurn (commandTurn w s) = .next t) : HostStep s t := by
  unfold commandTurn at h
  cases hb : s.busy with
  | true =>
    rw [hb, if_pos rfl] at h
    cases h
    exact .busyCommand hb
  | false =>
    rw [hb, if_neg Bool.false_ne_true] at h
    cases hl : legal w with
    | false =>
      rw [hl] at h
      have e : execIllegalCommand w s = .next (refuseIllegal s) := by simp [execIllegalCommand, hb]
      change execIllegalCommand w s = .next t at h
      rw [e] at h
      cases h
      exact .illegalCommand hb w hl
    | true =>
      rw [hl] at h
      by_cases hm : boundedCommand w = true ∧ s.cfg.maxOut < s.outLimit.toNat
      · rw [if_neg (by decide), if_pos hm] at h
        cases h
        exact .overLimit hb w hl hm.1 hm.2
      · rw [if_neg (by decide), if_neg hm] at h
        cases hf : issueFault w s with
        | some f =>
          rw [hf] at h
          cases h
        | none =>
          rw [hf] at h
          cases h
          have hbound := bound_of_issueFault hf
          exact .accepted hb w hl (fun hw => Nat.le_of_not_lt fun hlt => hm ⟨hw, hlt⟩) hbound.1 hbound.2

/-- Every next state of a register write is one of the cases. -/
theorem hostRegWrite_next {s t : State} {width addr : Nat} {w : Word}
    (h : runTurn (hostRegWrite width addr w s) = .next t) : HostStep s t := by
  unfold hostRegWrite at h
  cases hoff : accessOffset width addr s with
  | error r =>
    rw [hoff] at h
    cases h
  | ok off =>
    rw [hoff] at h
    by_cases hc : off = Reg.offset .cmd
    · simp only [if_pos hc] at h
      exact commandTurn_next h
    · simp only [if_neg hc] at h
      cases h
      unfold writeOffset
      cases hr : regAt off with
      | none => exact .ignored
      | some r =>
        cases r
        case status => exact .statusClear w
        case ctrl => exact .ctrl _
        case inLen =>
          cases hb : s.busy <;> simp only [writeReg, writeIdle, hb]
          · exact .inLen hb w
          · exact .refusedWrite hb
        case outLimit =>
          cases hb : s.busy <;> simp only [writeReg, writeIdle, hb]
          · exact .outLimit hb w
          · exact .refusedWrite hb
        case crcAcc =>
          cases hb : s.busy <;> simp only [writeReg, writeIdle, hb]
          · exact .crcAcc hb _
          · exact .refusedWrite hb
        all_goals exact .ignored

/-- Every next state of a host access is one of the cases. -/
theorem hostTurn_next {s t : State} {op : HostOp} (h : runTurn (hostTurn op s) = .next t) : HostStep s t := by
  cases op with
  | regRead width addr =>
    change hostRegRead width addr s = .next t at h
    unfold hostRegRead at h
    cases hoff : accessOffset width addr s with
    | error r =>
      rw [hoff] at h
      cases h
    | ok off =>
      rw [hoff] at h
      cases h
      exact .read _
  | regWrite width addr w => exact hostRegWrite_next h
  | bindIn base bytes =>
    change hostBindIn base bytes s = .next t at h
    unfold hostBindIn at h
    cases hb : s.busy with
    | true => simp [hb] at h
    | false =>
      by_cases hlen : bufferSize < bytes.length
      · simp [hb, hlen] at h
      · cases hd : buffersOverlap base (Mem.ofBytes bytes) s.outBase s.outMem with
        | true => simp [hb, hlen, hd] at h
        | false =>
          simp only [hb, hlen, hd, if_false, Bool.false_eq_true] at h
          cases h
          exact .bindIn hb base bytes (by omega) hd
  | bindOut base bytes =>
    change hostBindOut base bytes s = .next t at h
    unfold hostBindOut at h
    cases hb : s.busy with
    | true => simp [hb] at h
    | false =>
      by_cases hlen : bufferSize < bytes.length
      · simp [hb, hlen] at h
      · cases hd : buffersOverlap s.inBase s.inMem base (Mem.ofBytes bytes) with
        | true => simp [hb, hlen, hd] at h
        | false =>
          simp only [hb, hlen, hd, if_false, Bool.false_eq_true] at h
          cases h
          exact .bindOut hb base bytes (by omega) hd
  | readIn i =>
    change hostReadByte (inByte s i) s = .next t at h
    cases hb : inByte s i with
    | none => rw [hb] at h; cases h
    | some v => rw [hb] at h; cases h; exact .read _
  | readOut i =>
    change hostReadByte (outByte s i) s = .next t at h
    cases hb : outByte s i with
    | none => rw [hb] at h; cases h
    | some v => rw [hb] at h; cases h; exact .read _
  | writeIn i b =>
    change hostWriteIn i b s = .next t at h
    unfold hostWriteIn at h
    by_cases hd : s.busy = true ∧ i < s.inLen
    · rw [if_pos hd] at h
      cases h
    · rw [if_neg hd] at h
      cases hb : inByte s i with
      | none => rw [hb] at h; cases h
      | some v =>
        rw [hb] at h
        cases h
        exact .writeIn i b (fun e => BitVec.not_lt.mp fun hlt => hd ⟨e, hlt⟩) (by rw [hb]; rfl)
  | writeOut i b =>
    change hostWriteOut i b s = .next t at h
    unfold hostWriteOut at h
    by_cases hd : s.busy = true ∧ i < s.outLimit
    · rw [if_pos hd] at h
      cases h
    · rw [if_neg hd] at h
      cases hb : setOut i b s with
      | none => rw [hb] at h; cases h
      | some u =>
        rw [hb] at h
        obtain ⟨hbound, rfl⟩ := setOut_eq_some hb
        cases h
        exact .writeOut i b (fun e => BitVec.not_lt.mp fun hlt => hd ⟨e, hlt⟩) hbound

/-! ## One step -/

/-- With nothing scheduled the engine moves. -/
theorem step_of_nil {s : State} (h : s.sched = []) : step s = runTurn (engineTurn s) := by
  unfold step nextTurn
  rw [h]

/-- An engine turn on the schedule. -/
theorem step_of_engine {s : State} {rest : List Turn} (h : s.sched = .engine :: rest) :
    step s = runTurn (engineTurn { s with sched := rest }) := by
  unfold step nextTurn
  rw [h]

/-- A host access on the schedule. -/
theorem step_of_host {s : State} {op : HostOp} {rest : List Turn} (h : s.sched = .host op :: rest) :
    step s = runTurn (hostTurn op { s with sched := rest }) := by
  unfold step nextTurn
  rw [h]

/-- The wait loop on the schedule. -/
theorem step_of_wait {s : State} {rest : List Turn} (h : s.sched = .wait :: rest) :
    step s = .next (waitTurn rest s) := by
  unfold step nextTurn
  rw [h]
  rfl

/-- A reset on the schedule. -/
theorem step_of_reset {s : State} {rest : List Turn} (h : s.sched = .reset :: rest) :
    step s = .next (platformReset { s with sched := rest }) := by
  unfold step nextTurn
  rw [h]
  rfl

/-- What the wait loop changes: the schedule and the value read. -/
theorem waitTurn_frame (rest : List Turn) (s : State) :
    waitTurn rest s = { s with sched := (waitTurn rest s).sched, rdata := statusWord s } := by
  unfold waitTurn
  cases s.busy <;> rfl

/-- Every next state of the machine: an engine turn, a host access, the wait loop, or a reset. -/
theorem step_next_cases {s t : State} (h : step s = .next t) :
    (s.engineNext ∧ EngineStep s.popped t)
    ∨ (∃ op, s.sched.head? = some (.host op) ∧ HostStep s.popped t)
    ∨ (s.sched.head? = some .wait ∧ t = waitTurn s.sched.tail s)
    ∨ (s.sched.head? = some .reset ∧ t = platformReset s.popped) := by
  unfold State.popped
  cases hs : s.sched with
  | nil =>
    rw [step_of_nil hs] at h
    have e : { s with sched := [].tail } = s := by rw [List.tail_nil, ← hs]
    rw [e]
    exact Or.inl ⟨Or.inl hs, engineTurn_next h⟩
  | cons turn rest =>
    rw [List.tail_cons, List.head?_cons]
    cases turn with
    | engine =>
      rw [step_of_engine hs] at h
      exact Or.inl ⟨Or.inr ⟨rest, hs⟩, engineTurn_next h⟩
    | host op =>
      rw [step_of_host hs] at h
      exact Or.inr (Or.inl ⟨op, rfl, hostTurn_next h⟩)
    | wait =>
      rw [step_of_wait hs] at h
      cases h
      exact Or.inr (Or.inr (Or.inl ⟨rfl, rfl⟩))
    | reset =>
      rw [step_of_reset hs] at h
      cases h
      exact Or.inr (Or.inr (Or.inr ⟨rfl, rfl⟩))

/-- A turn put in front of the schedule is the next one, and taking it gives the state back. -/
theorem step_withTurn_engine (s : State) : step (s.withTurn .engine) = runTurn (engineTurn s) := rfl

theorem step_withTurn_host (s : State) (op : HostOp) : step (s.withTurn (.host op)) = runTurn (hostTurn op s) := rfl

end Sys2Proof.Machine
end

