-- ==== Sys2Proof/Tests/Slice0.lean ====
section
/-! SUPPORT. Tests: ill-formed terms the check refuses, words written out from the spec's encodings, single steps whose
results are the vectors of 95_test_vectors.md (V-…) or of the rule named, and for each statement with hypotheses a
concrete input that meets them (witness_…). -/

namespace Sys2Proof.Tests

open Sys2Proof Sys2Proof.Machine

/-! ## Helpers -/

/-- The block after reset with the input bound at 0, `IN_LEN` its length, and room for `room` bytes at 1000, `OUT_LIMIT`
that number. -/
def bound (inp : List Byte) (room : Nat) : State :=
  { State.reset with
    inLen := BitVec.ofNat 32 inp.length
    inMem := Mem.ofBytes inp
    outLimit := BitVec.ofNat 32 room
    outBase := 1000
    outMem := Mem.ofBytes (List.replicate room 0x00) }

/-- The same with a command just accepted. -/
def started (w : Word) (inp : List Byte) (room : Nat) : State := accept w (bound inp room)

/-- A running decode. -/
def running (op : BitVec 4) (d : DictSize) (p : Phase) (inp : List Byte) (room : Nat) : State :=
  { bound inp room with curOp := op, dsize := d, phase := p }

/-- The result is a next state with this property. -/
def nextIs (p : State → Bool) : Result → Bool
  | .next t => p t
  | .fault _ => false
  | .refused _ => false

/-- The bytes of OUT. -/
def outBytes (s : State) : List Byte := s.outMem.map Prod.snd

/-! ## Well-formedness (R52) -/

theorem test_wf_brRead_zero : (Instr.brRead 0).wf = false := by decide
theorem test_wf_brRead_seventeen : (Instr.brRead 17).wf = false := by decide
theorem test_wf_illegal_of_legal_word : (Instr.illegalCommand 0x00000105).wf = false := by decide

/-! ## Decoding: words written out from R49, R51, R54, R57 -/

/-- R51, the words V-ENC-1, 2, 4, 5 and 9: reserved bits, N and DATA 0, then OP. -/
theorem test_decode_plain_commands :
    decodeCommand 0b00000000_00000000_0000000_00000_0000 = .nop
    ∧ decodeCommand 0b00000000_00000000_0000000_00000_0001 = .crcInit
    ∧ decodeCommand 0b00000000_00000000_0000000_00000_0011 = .crcBuf
    ∧ decodeCommand 0b00000000_00000000_0000000_00000_0100 = .brInit
    ∧ decodeCommand 0b00000000_00000000_0000000_00000_0110 = .decStore
    ∧ decodeCommand 0b00000000_00000000_0000000_00000_0111 = .decLz4k
    ∧ decodeCommand 0b00000000_00000000_0000000_00000_1000 = .decLz8k
    ∧ decodeCommand 0b00000000_00000000_0000000_00000_1001 = .decEmpty := by decide

/-- V-ENC-3: DATA = 0x41. -/
theorem test_decode_crcByte : decodeCommand 0b00000000_01000001_0000000_00000_0010 = .crcByte 0x41 := by decide

/-- V-ENC-6, V-ENC-8: N = 1 and N = 16. -/
theorem test_decode_brRead :
    decodeCommand 0b00000000_00000000_0000000_00001_0101 = .brRead 1
    ∧ decodeCommand 0b00000000_00000000_0000000_10000_0101 = .brRead 16 := by decide

/-- V-ENC-10 to V-ENC-16. -/
theorem test_decode_illegal :
    ([0x00000005, 0x00000115, 0x0000000A, 0x00010000, 0x00000200, 0x01000007, 0x00000011] : List Word).all
      (fun w => decide (decodeCommand w = .illegalCommand w)) = true := by decide

/-- R54: flag 1, then L; V-LZ4-1, its first token in the first 9 bits of `83 0A`. -/
theorem test_decode_lz4Literal : decode .tok4 9 0b01000001_1 = .ok (.lz4Literal 0x41) := by decide

/-- R54: flag 0, then P, then N; V-LZ4-13, `M 1,3` is `(0 << 13) | (1 << 1)`; the largest length has N = 15. -/
theorem test_decode_lz4Match :
    decode .tok4 17 0b0000_000000000001_0 = .ok (.lz4Match 1 0)
    ∧ decode .tok4 17 0b1111_000001100100_0 = .ok (.lz4Match 100 15) := by decide

/-- R57, V-LZ8-2. -/
theorem test_decode_lz8Flag : decodeBytes .tok8Flag [0b00000011] = .ok (.lz8Flag 0x03) := by decide

/-- R57, V-LZ8-2. -/
theorem test_decode_lz8Literal : decodeBytes .tok8Literal [0b01000001] = .ok (.lz8Literal 0x41) := by decide

/-- R58, V-SRC-7: byte1 = 0x23, byte2 = 0x10 is offset 0x123, length 3. -/
theorem test_decode_lz8Match : decodeBytes .tok8Match [0b00100011, 0b0001_0000] = .ok (.lz8Match 0x123 0) := by decide

/-- R59: a 4 KB match whose last bit is missing is no token. -/
theorem test_decode_cut_short : decode .tok4 16 0 = .error .tokenCutShort := by decide

/-- No two rows of R51's table take the same word, and each row's pattern lies in its mask. -/
theorem test_rows_disjoint :
    commandRows.Pairwise (fun r q => r.pattern &&& q.mask ≠ q.pattern &&& r.mask)
    ∧ commandRows.all (fun r => r.pattern &&& r.mask == r.pattern) = true := by decide

/-! ## Single steps -/

/-- R73: from reset, `nop` ends with `STATUS = 0x02`. -/
theorem test_nop : nextIs (fun t => statusWord t == 0x02) (step (started 0x00000000 [] 0)) = true := by decide +kernel

/-- V-CRC-20. -/
theorem test_crcInit :
    nextIs (fun t => t.crcAcc == 0x0000 && statusWord t == 0x02)
      (step { started 0x00000001 [] 0 with crcAcc := 0x1234 }) = true := by decide +kernel

/-- V-CRC-12. -/
theorem test_crcByte :
    nextIs (fun t => t.crcAcc == 0x3C40) (step { started 0x00560002 [] 0 with crcAcc := 0x1234 }) = true := by
  decide +kernel

/-- V-CRC-6: the run step over the byte 01. -/
theorem test_crcBuf_byte :
    nextIs (fun t => t.crcAcc == 0x1021 && t.crcIdx == 1 && t.busy) (step (running 0x3 .k4 .crcRun [0x01] 0)) = true := by
  decide +kernel

/-- V-CRC-19: with no byte to read the run step ends the command. -/
theorem test_crcBuf_end :
    nextIs (fun t => t.crcAcc == 0x1234 && statusWord t == 0x02)
      (step { running 0x3 .k4 .crcRun [] 0 with crcAcc := 0x1234 }) = true := by decide +kernel

/-- V-BR-17. -/
theorem test_brInit :
    nextIs (fun t => t.inPos == 0 && readOffset 0x24 t == 0 && t.brData == 0x001A)
      (step { started 0x00000004 [0xFF, 0x12, 0x34] 0 with inPos := 3, brCount := 5, brBuf := 0x1A, brData := 0x1A })
      = true := by decide +kernel

/-- V-BR-13: `br.read 16` with 7 bits held pulls two bytes. -/
theorem test_brRead_two_pulls :
    nextIs (fun t => t.brData == 0x097F && t.inPos == 3 && readOffset 0x24 t == 0x00001A07)
      (step { started 0x00000105 [0xFF, 0x12, 0x34] 0 with inPos := 1, brCount := 7, brBuf := 0x7F }) = true := by
  decide +kernel

/-- V-BR-11: `br.read 5` with 4 bits left. -/
theorem test_brRead_short :
    nextIs (fun t => t.brData == 0x0BCD && t.inPos == 4 && t.brCount == 4 && statusWord t == 0x12)
      (step { started 0x00000055 [0x34, 0x12, 0xCD, 0xAB] 0 with inPos := 4, brCount := 4, brBuf := 0xA, brData := 0xBCD })
      = true := by decide +kernel

/-- V-ST-1: the step that copies the second byte. -/
theorem test_decStore_byte :
    nextIs (fun t => outBytes t == [0x00, 0x45, 0x00] && t.inPos == 2 && t.outCount == 2 && t.dictPos == 0)
      (step { running 0x6 .k4 .storeRun [0x48, 0x45] 3 with inPos := 1, outCount := 1 }) = true := by decide +kernel

/-- V-ST-3: the input ends first. -/
theorem test_decStore_exhaust :
    nextIs (fun t => statusWord t == 0x0A && t.outCount == 2)
      (step { running 0x6 .k4 .storeRun [0x48, 0x49] 5 with inPos := 2, outCount := 2 }) = true := by decide +kernel

/-- V-LZ4-12: `DICT4_INIT_POS = 4094`. -/
theorem test_decLz4k_start :
    nextIs (fun t => readOffset 0x28 t == 4094 && t.phase == .lz4Token && t.inPos == 0)
      (step { started 0x00000007 [0x03] 6 with cfg := { dict4InitPos := 4094 }, inPos := 5 }) = true := by decide +kernel

/-- V-LZ8-13: `DICT8_INIT_POS = 8190`. -/
theorem test_decLz8k_start :
    nextIs (fun t => readOffset 0x28 t == 8190 && t.phase == .lz8Token && t.flagLeft == 0)
      (step { started 0x00000008 [0x07] 6 with cfg := { dict8InitPos := 8190 }, flagLeft := 3 }) = true := by decide +kernel

/-- V-ST-5. -/
theorem test_decEmpty :
    nextIs (fun t => statusWord t == 0x0E && t.outCount == 0)
      (step { started 0x00000009 [0x58, 0x59, 0x5A] 3 with outCount := 2 }) = true := by decide +kernel

/-- R69: `wr CMD, 0x0000000A` from reset gives `STATUS = 0x22`. -/
theorem test_illegalCommand :
    nextIs (fun t => statusWord t == 0x22) (step (State.reset.writing 0x00 0x0000000A)) = true := by decide +kernel

/-- V-LZ4-1: the first token of `83 0A 01`. -/
theorem test_lz4Literal :
    nextIs (fun t => outBytes t == [0x41, 0x00] && t.inPos == 2 && t.brCount == 7 && t.brBuf == 0x05 && t.dictPos == 1)
      (step (running 0x7 .k4 .lz4Token [0x83, 0x0A, 0x01] 2)) = true := by decide +kernel

/-- V-LZ4-4: `M 100,3` in `C8 00 00`. -/
theorem test_lz4Match :
    nextIs (fun t => t.matchSrc == 100 && t.matchRem == 3 && t.inPos == 3 && t.brCount == 7 && t.phase == .lz4Copy)
      (step (running 0x7 .k4 .lz4Token [0xC8, 0x00, 0x00] 3)) = true := by decide +kernel

/-- V-LZ4-10: flag and position are read, the length is short: 2 bits stay held. -/
theorem test_lz4Match_cut_short :
    nextIs (fun t => statusWord t == 0x0A && t.inPos == 3 && t.brCount == 2 && t.brBuf == 0x1)
      (step { running 0x7 .k4 .lz4Token [0x83, 0x00, 0x40] 10 with inPos := 2, brCount := 7, outCount := 1 }) = true := by
  decide +kernel

/-- V-LZ8-1: the flag byte of the group. -/
theorem test_lz8Flag :
    nextIs (fun t => t.flagByte == 0xFF && t.flagLeft == 8 && t.inPos == 1 && t.outCount == 0)
      (step (running 0x8 .k8 .lz8Token [0xFF, 0x41] 8)) = true := by decide +kernel

/-- V-LZ8-2: the group's first literal. -/
theorem test_lz8Literal :
    nextIs (fun t => outBytes t == [0x41, 0x00] && t.flagByte == 0x01 && t.flagLeft == 7 && t.dictPos == 1)
      (step { running 0x8 .k8 .lz8Token [0x03, 0x41, 0x42] 2 with inPos := 1, flagByte := 0x03, flagLeft := 8 }) = true := by
  decide +kernel

/-- V-LZ8-4: offset 0x123 back from 0, mod 8192, and length 3. -/
theorem test_lz8Match :
    nextIs (fun t => t.matchSrc == 7901 && t.matchRem == 3 && t.phase == .lz8Copy && t.inPos == 3)
      (step { running 0x8 .k8 .lz8Token [0x00, 0x23, 0x10] 3 with inPos := 1, flagByte := 0x00, flagLeft := 8 }) = true := by
  decide +kernel

/-- R79: a copy at the last cell of the 4 KB dictionary wraps both indices to 0. -/
theorem test_copy_wraps :
    nextIs (fun t => outBytes t == [0x00] && t.dictPos == 0 && t.matchSrc == 0 && t.matchRem == 2)
      (step { running 0x7 .k4 .lz4Copy [] 1 with dictPos := 4095, matchSrc := 4095, matchRem := 3 }) = true := by
  decide +kernel

/-- V-SRC-5: one byte over `MAX_OUT`. -/
theorem test_refuse_limit :
    nextIs (fun t => statusWord t == 0x42)
      (step ({ State.reset with outLimit := 0x06400001 }.writing 0x00 0x00000006)) = true := by decide +kernel

/-- R65, its two examples. -/
theorem test_w1c :
    nextIs (fun t => statusWord t == 0x00) (step ({ State.reset with cmdErr := true, done := true }.writing 0x04 0x22))
      = true
    ∧ nextIs (fun t => statusWord t == 0x20) (step ({ State.reset with cmdErr := true, done := true }.writing 0x04 0x02))
      = true := by decide +kernel

/-- V-CRC-18. -/
theorem test_write_crcAcc :
    nextIs (fun t => readOffset 0x1C t == 0x00005678) (step (State.reset.writing 0x1C 0x12345678)) = true := by
  decide +kernel

/-- R143: `crc.buf` issued with one byte of IN bound and `IN_LEN = 2`. -/
theorem test_issue_without_input :
    (match step ({ bound [0x41] 0 with inLen := 2 }.writing 0x00 0x00000003) with
      | .fault r => decide (r = .inputNotBound)
      | _ => false) = true := by decide +kernel

/-! ## The table's words -/

/-- V-ENC-3, V-CRC-3: the table word of `crc.byte 0x41` decodes, and the step after placing it is its effect. -/
theorem test_table_word_crcByte :
    decodeTableWord 32 0x00410002 = some (.crcByte 0x41)
    ∧ nextIs (fun t => t.crcAcc == 0x58E5) (step (State.reset.withFetchWord 32 0x00410002)) = true := by decide +kernel

/-- V-LZ4-1, V-LZ4-4, V-SRC-7: token words. -/
theorem test_table_word_tokens :
    decodeTableWord 16 0x0083 = some (.lz4Literal 0x41) ∧ decodeTableWord 24 0x0000C8 = some (.lz4Match 100 0)
    ∧ decodeTableWord 8 0x03 = some (.lz8Flag 0x03) ∧ decodeTableWord 16 0x1023 = some (.lz8Match 0x123 0)
    ∧ nextIs (fun t => outBytes t == [0x41]) (step (State.reset.withFetchWord 16 0x0083)) = true
    ∧ nextIs (fun t => t.matchSrc == 100) (step (State.reset.withFetchWord 24 0x0000C8)) = true
    ∧ nextIs (fun t => t.flagByte == 0x03) (step (State.reset.withFetchWord 8 0x03)) = true
    ∧ nextIs (fun t => t.matchSrc == 7902) (step (State.reset.withFetchWord 16 0x1022)) = true := by decide +kernel

/-! ## Witnesses: helpers -/

theorem inBound_of {s : State} (h : ∀ i, i < s.inLen.toNat → (Mem.lookup s.inMem i).isSome) : s.inBound :=
  fun i hi => h i.toNat hi

theorem outBound_of {s : State} (h : ∀ i, i < s.outLimit.toNat → (Mem.lookup s.outMem i).isSome) : s.outBound :=
  fun i hi => h i.toNat hi

theorem opOfPhase_of {p : Phase} {c : BitVec 4}
    (h : (match opOfPhase p with | none => true | some op => decide (c = op)) = true) :
    ∀ op, opOfPhase p = some op → c = op := by
  intro op hop
  rw [hop] at h
  simpa using h

theorem dictOfPhase_of {p : Phase} {c : DictSize}
    (h : (match p.dict with | none => true | some d => decide (c = d)) = true) : ∀ d, p.dict = some d → c = d := by
  intro d hd
  rw [hd] at h
  simpa using h

/-- The invariant of a concrete state, field by field. -/
def invCheck (s : State) : Bool :=
  s.memWf && !buffersOverlap s.inBase s.inMem s.outBase s.outMem && decide (s.brBuf >>> s.brCount.toNat = 0)
    && decide (s.brCount.toNat ≤ 7) && decide (s.flagLeft ≤ 8) && decide (s.flagByte.toNat < 2 ^ s.flagLeft)
    && decide (s.matchRem ≤ 18) && decide (s.dictPos.toNat < s.dsize.size) && decide (s.matchSrc.toNat < s.dsize.size)
    && decide (s.phase = .start → legal (latchedWord s) = true)
    && (match opOfPhase s.phase with | none => true | some op => decide (s.curOp = op))
    && (match s.phase.dict with | none => true | some d => decide (s.dsize = d))
    && decide (s.phase = .crcRun → s.crcIdx ≤ s.inLen) && decide (s.phase.decoding = true → s.inPos ≤ s.inLen)
    && decide (s.phase.decoding = true → s.outCount ≤ s.outLimit)
    && decide (s.phase ≠ .idle → (s.curOp = 0x6#4 ∨ s.curOp = 0x7#4 ∨ s.curOp = 0x8#4) →
        s.outLimit.toNat ≤ s.cfg.maxOut)
    && decide (s.phase.copying = true → 1 ≤ s.matchRem) && decide (s.phase.dict = some .k8 → s.brCount = 0)
    && (!(s.busy && usesInput s.curOp) || Mem.covers s.inLen.toNat s.inMem)
    && (!(s.busy && usesOutput s.curOp) || Mem.covers s.outLimit.toNat s.outMem)

theorem inv_of_check {s : State} (h : invCheck s = true) : s.Inv := by
  simp only [invCheck, Bool.and_eq_true, Bool.or_eq_true, decide_eq_true_eq, Bool.not_eq_true'] at h
  obtain ⟨⟨⟨⟨⟨⟨⟨⟨⟨⟨⟨⟨⟨⟨⟨⟨⟨⟨⟨h1, h2⟩, h3⟩, h4⟩, h5⟩, h6⟩, h7⟩, h8⟩, h9⟩, h10⟩, h11⟩, h12⟩, h13⟩, h14⟩, h15⟩, h16⟩, h17⟩, h18⟩,
    h19⟩, h20⟩ := h
  refine ⟨h1, h2, h3, h4, h5, h6, h7, h8, h9, h10, opOfPhase_of h11, dictOfPhase_of h12, h13, h14, h15, h16, h17, h18,
    fun hb hu => ?_, fun hb hu => ?_⟩
  · have hc := h19.resolve_left (by rw [hb, hu]; decide)
    exact inBound_of fun i hi => Mem.lookup_of_coversFrom hc (Nat.zero_le i) hi
  · have hc := h20.resolve_left (by rw [hb, hu]; decide)
    exact outBound_of fun i hi => Mem.lookup_of_coversFrom hc (Nat.zero_le i) hi

theorem lookup_of_above {m : Mem} {n a : Nat} (h : ∀ c ∈ m, c.1 < n) (ha : n ≤ a) : Mem.lookup m a = none := by
  induction m with
  | nil => rfl
  | cons c m ih =>
    have hc := h c (List.mem_cons_self ..)
    simp only [Mem.lookup]
    rw [if_neg (by omega), ih fun d hd => h d (List.mem_cons_of_mem _ hd)]

/-- The dictionary relation of a concrete state with few bytes emitted from position 0. -/
theorem tracks_of {s : State} (hp : s.dictPos.toNat = s.outCount.toNat % s.dsize.size)
    (hw : ∀ j, j < s.outCount.toNat →
      outByte s (BitVec.ofNat 32 j) = some (dictByte s (BitVec.ofNat 13 (j % s.dsize.size))))
    (hf : ∀ c ∈ s.dict, c.1 < s.outCount.toNat) : s.Tracks 0 := by
  refine ⟨by rw [hp, Nat.zero_add], fun j hj _ => by rw [Nat.zero_add]; exact hw j hj, fun j hj hlt => ?_⟩
  have h8 : s.dsize.size ≤ 8192 := by cases s.dsize <;> decide
  have e : (BitVec.ofNat 13 ((0 + j) % s.dsize.size)).toNat = j := by
    rw [Nat.zero_add, Nat.mod_eq_of_lt hlt, BitVec.toNat_ofNat]
    exact Nat.mod_eq_of_lt (by omega)
  rw [dictByte, e, lookup_of_above hf hj]
  rfl

/-- The host's write of `w` to `CMD` comes next, then these turns. -/
def issuing (w : Word) (s : State) (rest : List Turn) : State :=
  { s with sched := .host (.regWrite 4 (s.cfg.regBase + 0x00) w) :: rest }

theorem launched_of {s : State} {w : Word} {k : Nat} (rest : List Turn)
    (h : !s.busy && legal w && decide (s.outLimit.toNat ≤ s.cfg.maxOut)
      && (!usesInput (opField w) || Mem.covers s.inLen.toNat s.inMem)
      && (!usesOutput (opField w) || Mem.covers s.outLimit.toNat s.outMem)
      && !buffersOverlap s.inBase s.inMem s.outBase s.outMem
      && State.undisturbed k (accept w (issuing w s rest).popped) = true) : (issuing w s rest).Launched w k := by
  simp only [Bool.and_eq_true, Bool.or_eq_true, decide_eq_true_eq, Bool.not_eq_true'] at h
  obtain ⟨⟨⟨⟨⟨⟨hb, hl⟩, hm⟩, hi⟩, ho⟩, hd⟩, hu⟩ := h
  refine ⟨hb, rfl, hl, fun _ => hm, fun e => ?_, fun e => ?_, fun _ => hd, hu⟩
  · have hc := hi.resolve_left (by rw [e]; decide)
    exact inBound_of (s := issuing w s rest) fun i hlt => Mem.lookup_of_coversFrom hc (Nat.zero_le i) hlt
  · have hc := ho.resolve_left (by rw [e]; decide)
    exact outBound_of (s := issuing w s rest) fun i hlt => Mem.lookup_of_coversFrom hc (Nat.zero_le i) hlt

/-- A 4 KB decode that has emitted `A`, about to copy five bytes from position 0 (V-LZ4-3). -/
def copying4 : State :=
  { running 0x7 .k4 .lz4Copy [0x83, 0x00, 0x40, 0x00] 6 with
    inPos := 4, brCount := 6, outCount := 1, dictPos := 1, matchRem := 5
    dict := [(0, 0x41)], outMem := Mem.ofBytes [0x41, 0, 0, 0, 0, 0] }

/-- An 8 KB decode that has emitted `A`, about to copy three bytes at distance 1 (V-LZ8-3). -/
def copying8 : State :=
  { running 0x8 .k8 .lz8Copy [0x01, 0x41, 0x01, 0x00] 4 with
    inPos := 4, flagByte := 0, flagLeft := 6, outCount := 1, dictPos := 1, matchRem := 3
    dict := [(0, 0x41)], outMem := Mem.ofBytes [0x41, 0, 0, 0] }

theorem copying4_inv : copying4.Inv := inv_of_check (by decide +kernel)
theorem copying8_inv : copying8.Inv := inv_of_check (by decide +kernel)
theorem copying4_tracks : copying4.DictTracks :=
  tracks_of (s := copying4) (by decide +kernel) (by decide +kernel) (by decide +kernel)
theorem copying8_tracks : copying8.DictTracks :=
  tracks_of (s := copying8) (by decide +kernel) (by decide +kernel) (by decide +kernel)

/-! ## Witnesses -/

theorem witness_DecodeOfEncodeIsTheInstruction :
    (Instr.brRead 1).wf = true ∧ (Instr.brRead 16).wf = true ∧ (Instr.illegalCommand 0xFFFFFFFF).wf = true := by decide

theorem witness_EncodeOfDecodeIsTheBits :
    decode .tok4 17 0x1FFFE = .ok (.lz4Match 0xFFF 0xF) ∧ decode .cmd32 32 0x105 = .ok (.brRead 16)
    ∧ decode .tok8Match 16 0xFFFF = .ok (.lz8Match 0xFFF 0xF) := by decide

/-- R52's conditions at the boundary words V-ENC-6, V-ENC-8, and their failure at V-ENC-10, V-ENC-11, V-ENC-12. -/
theorem witness_LegalWordsAreExactlyTheCommands :
    ([(0x015, true), (0x105, true), (0x00FF0002, true), (0x9, true), (0x005, false), (0x115, false), (0xA, false)] :
      List (Word × Bool)).all (fun c => decide (c.2 = decide (c.1.toNat / 2 ^ 24 = 0 ∧ c.1.toNat / 2 ^ 9 % 2 ^ 7 = 0
        ∧ c.1.toNat % 2 ^ 4 ≤ 9
        ∧ (if c.1.toNat % 2 ^ 4 = 5 then 1 ≤ c.1.toNat / 2 ^ 4 % 2 ^ 5 ∧ c.1.toNat / 2 ^ 4 % 2 ^ 5 ≤ 16
            else c.1.toNat / 2 ^ 4 % 2 ^ 5 = 0)
        ∧ (if c.1.toNat % 2 ^ 4 = 2 then True else c.1.toNat / 2 ^ 16 % 2 ^ 8 = 0)))) = true
    ∧ State.reset.busy = false := by decide +kernel

/-- First and last offset of each range of offsets that a register statement speaks of. -/
theorem witness_register_offsets :
    ([0x00, 0x28, 0x2C, 0xFC] : List Nat).all (fun off => decide (off < 0x100 ∧ off % 4 = 0)) = true
    ∧ (0xFE < 0x100 ∧ 0xFE % 4 ≠ 0) ∧ (0xFF < 0x100 ∧ (1 : Nat) ≠ 4) := by decide

theorem witness_OperandRegisterWrites :
    State.reset.busy = false ∧ (started 0x00000003 [0x01] 0).busy = true := by decide +kernel

theorem witness_InterruptIsDoneAndEnabled : (1 : Nat) ≠ State.reset.cfg.irqLine := by decide

theorem witness_CommandWhileBusyIsDropped : (started 0x00000000 [] 0).busy = true := by decide +kernel

theorem witness_IllegalCommandIsRefused : State.reset.busy = false ∧ legal 0x00000115 = false := by decide +kernel

theorem witness_DecodeOverTheLimitIsRefused :
    { State.reset with outLimit := 104857601 }.busy = false
    ∧ State.reset.cfg.maxOut < ({ State.reset with outLimit := 104857601 } : State).outLimit.toNat := by decide +kernel

/-- For a decode with both buffers bound in full, at a limit equal to `MAX_OUT`; for a command that uses IN alone; and for
one that uses none. -/
theorem witness_LegalCommandIsAccepted :
    ((bound [0x48] 1).busy = false ∧ (bound [0x48] 1).memWf = true ∧ legal 0x00000006 = true
      ∧ ({ bound [0x48] 1 with cfg := { maxOut := 1 } } : State).outLimit.toNat = 1
      ∧ (bound [0x48] 1).inBound ∧ (bound [0x48] 1).outBound)
    ∧ (legal 0x00000105 = true ∧ ({ bound [0x48] 0 with outLimit := 5 } : State).inBound)
    ∧ legal 0x00FF0002 = true :=
  ⟨⟨by decide, by decide +kernel, by decide, by decide, inBound_of (by decide +kernel), outBound_of (by decide +kernel)⟩,
    ⟨by decide, inBound_of (by decide +kernel)⟩, by decide⟩

theorem witness_AcceptedCommandRunsNext : legal 0x00FF0002 = true := by decide

theorem witness_StepRunsTheLatchedCommand :
    (started 0x00000105 [] 0).phase = .start ∧ legal (latchedWord (started 0x00000105 [] 0)) = true
    ∧ decodeCommand (latchedWord (started 0x00000105 [] 0)) = .brRead 16 ∧ State.reset.sched = [] := by decide +kernel

theorem witness_IdleEngineKeepsAllState : State.reset.phase = .idle ∧ State.reset.sched = [] := by decide

/-- `CRC_RUN` over the one byte 41, at an index. -/
def crcAt (i : Word) : State := { running 0x3 .k4 .crcRun [0x41] 0 with crcIdx := i }

/-- Both sides of R88's bound. -/
theorem witness_CrcBufReadsOneByteAStep :
    ((crcAt 1).phase = .crcRun ∧ (crcAt 1).inLen ≤ (crcAt 1).crcIdx)
    ∧ (crcAt 0).phase = .crcRun ∧ (crcAt 0).crcIdx < (crcAt 0).inLen ∧ inByte (crcAt 0) (crcAt 0).crcIdx = some 0x41 := by
  decide +kernel

/-- V-BR-13: 7 bits held, 2 bytes to come. -/
def cursor23 : State := { bound [0xFF, 0x12, 0x34] 0 with inPos := 1, brCount := 7, brBuf := 0x7F }

/-- One bit left. -/
def cursor1 : State := { bound [0x80] 0 with inPos := 1, brCount := 1, brBuf := 1 }

/-- Width 16 with 23 bits left, and width 1 with one bit left. -/
theorem witness_BrReadReturnsTheNextBits :
    (cursor23.brCount.toNat ≤ 7 ∧ cursor23.brBuf >>> cursor23.brCount.toNat = 0 ∧ cursor23.inBound
      ∧ (16 : BitVec 5).toNat ≤ availBits cursor23)
    ∧ (cursor1.brCount.toNat ≤ 7 ∧ cursor1.brBuf >>> cursor1.brCount.toNat = 0 ∧ cursor1.inBound
      ∧ (1 : BitVec 5).toNat = availBits cursor1) :=
  ⟨⟨by decide, by decide, inBound_of (by decide +kernel), by decide +kernel⟩,
    by decide, by decide, inBound_of (by decide +kernel), by decide +kernel⟩

theorem witness_BrReadShortConsumesNothing :
    availBits (bound [] 0) < (1 : BitVec 5).toNat ∧ availBits (bound [0x41] 0) < (16 : BitVec 5).toNat := by decide +kernel

theorem witness_StoreRunStepCopiesOneByte :
    (running 0x6 .k4 .storeRun [0x48] 1).memWf = true
    ∧ (running 0x6 .k4 .storeRun [0x48] 1).outCount ≠ (running 0x6 .k4 .storeRun [0x48] 1).outLimit
    ∧ (running 0x6 .k4 .storeRun [0x48] 1).inPos < (running 0x6 .k4 .storeRun [0x48] 1).inLen
    ∧ inByte (running 0x6 .k4 .storeRun [0x48] 1) 0 = some 0x48
    ∧ (outByte (running 0x6 .k4 .storeRun [0x48] 1) 0).isSome := by decide +kernel

theorem witness_LiteralTokensEmitTheirByte : copying4.memWf = true ∧ (outByte copying4 copying4.outCount).isSome := by
  decide +kernel

theorem witness_CopyStepCopiesOneByte :
    (copying4.memWf = true ∧ copying4.phase = .lz4Copy ∧ usesDict copying4 = true ∧ copying4.outCount ≠ copying4.outLimit
      ∧ (outByte copying4 copying4.outCount).isSome)
    ∧ (copying8.memWf = true ∧ copying8.phase = .lz8Copy ∧ usesDict copying8 = true
      ∧ copying8.outCount ≠ copying8.outLimit ∧ (outByte copying8 copying8.outCount).isSome) := by decide +kernel

theorem witness_OutputBoundIsTestedFirst :
    ([.storeRun, .lz4Token, .lz4Copy, .lz8Token, .lz8Copy] : List Phase).all
      (fun p => decide ((running 0x7 .k4 p [] 0).outCount = (running 0x7 .k4 p [] 0).outLimit)) = true := by decide +kernel

/-- A 4 KB decode at its first token, and one past a 9-bit token of this input. -/
def token4 (inp : List Byte) : State := running 0x7 .k4 .lz4Token inp 10
def token4Held (inp : List Byte) (held : BitVec 24) : State :=
  { token4 inp with inPos := 2, brCount := 7, brBuf := held, outCount := 1 }

/-- A literal that stands in the first nine bits, and a match that begins inside a held byte (V-LZ4-3). -/
theorem witness_StepRunsTheLz4TokenAtTheCursor :
    ((token4 [0x83, 0x00]).outCount ≠ (token4 [0x83, 0x00]).outLimit ∧ (token4 [0x83, 0x00]).inBound
      ∧ decode .tok4 (availBits (token4 [0x83, 0x00])) (streamValue (token4 [0x83, 0x00]) 17) = .ok (.lz4Literal 0x41))
    ∧ ((token4Held [0x83, 0x00, 0xC0, 0x03] 0).outCount ≠ (token4Held [0x83, 0x00, 0xC0, 0x03] 0).outLimit
      ∧ (token4Held [0x83, 0x00, 0xC0, 0x03] 0).inBound
      ∧ decode .tok4 (availBits (token4Held [0x83, 0x00, 0xC0, 0x03] 0))
          (streamValue (token4Held [0x83, 0x00, 0xC0, 0x03] 0) 17) = .ok (.lz4Match 0 15)) :=
  ⟨⟨by decide, inBound_of (by decide +kernel), by decide +kernel⟩,
    by decide, inBound_of (by decide +kernel), by decide +kernel⟩

/-- V-LZ4-10 (15 bits left, flag 0), 7 bits left with flag 0, and a cut literal. -/
theorem witness_Lz4TokenCutShortIsDiscarded :
    ((token4Held [0x83, 0x00, 0x40] 0).outCount ≠ (token4Held [0x83, 0x00, 0x40] 0).outLimit
      ∧ (token4Held [0x83, 0x00, 0x40] 0).inBound ∧ availBits (token4Held [0x83, 0x00, 0x40] 0) = 15
      ∧ decode .tok4 (availBits (token4Held [0x83, 0x00, 0x40] 0))
          (streamValue (token4Held [0x83, 0x00, 0x40] 0) 17) = .error .tokenCutShort)
    ∧ ((token4Held [0x83, 0x00] 0).inBound ∧ availBits (token4Held [0x83, 0x00] 0) = 7
      ∧ decode .tok4 (availBits (token4Held [0x83, 0x00] 0)) (streamValue (token4Held [0x83, 0x00] 0) 17)
          = .error .tokenCutShort)
    ∧ ((token4 [0x83]).inBound ∧ streamBit (token4 [0x83]) 0 = some true
      ∧ decode .tok4 (availBits (token4 [0x83])) (streamValue (token4 [0x83]) 17) = .error .tokenCutShort) :=
  ⟨⟨by decide, inBound_of (by decide +kernel), by decide +kernel, by decide +kernel⟩,
    ⟨inBound_of (by decide +kernel), by decide +kernel, by decide +kernel⟩,
    inBound_of (by decide +kernel), by decide +kernel, by decide +kernel⟩

/-- An 8 KB decode past `pos` bytes of its input, with the flag bits left. -/
def item8 (inp : List Byte) (pos : Word) (flags : Byte) (left : Nat) : State :=
  { running 0x8 .k8 .lz8Token inp 4 with inPos := pos, flagByte := flags, flagLeft := left }

/-- Each of the clauses: a flag byte, no flag byte left, a literal, a match, a match whose second byte is missing, and a
literal that is missing (V-LZ8-1, V-LZ8-11, V-LZ8-2, V-LZ8-4, V-LZ8-8). -/
theorem witness_StepRunsTheLz8ItemAtInPos :
    (item8 [0xFF] 0 0 0).outCount ≠ (item8 [0xFF] 0 0 0).outLimit
    ∧ ((item8 [0xFF] 0 0 0).inPos < (item8 [0xFF] 0 0 0).inLen ∧ inByte (item8 [0xFF] 0 0 0) 0 = some 0xFF)
    ∧ (item8 [] 0 0 0).inLen ≤ (item8 [] 0 0 0).inPos
    ∧ ((item8 [0x03, 0x41] 1 0x03 8).flagByte.getLsbD 0 = true
      ∧ (item8 [0x03, 0x41] 1 0x03 8).inPos < (item8 [0x03, 0x41] 1 0x03 8).inLen
      ∧ inByte (item8 [0x03, 0x41] 1 0x03 8) 1 = some 0x41)
    ∧ ((item8 [0x00, 0x23, 0x10] 1 0x00 8).flagByte.getLsbD 0 = false
      ∧ (item8 [0x00, 0x23, 0x10] 1 0x00 8).inPos.toNat + 2 = (item8 [0x00, 0x23, 0x10] 1 0x00 8).inLen.toNat
      ∧ inByte (item8 [0x00, 0x23, 0x10] 1 0x00 8) 1 = some 0x23 ∧ inByte (item8 [0x00, 0x23, 0x10] 1 0x00 8) (1 + 1) = some 0x10
      ∧ decodeBytes .tok8Match [0x23, 0x10] = .ok (.lz8Match 0x123 0))
    ∧ ((item8 [0x01, 0x41, 0x05] 2 0x00 7).flagByte.getLsbD 0 = false
      ∧ (item8 [0x01, 0x41, 0x05] 2 0x00 7).inLen.toNat < (item8 [0x01, 0x41, 0x05] 2 0x00 7).inPos.toNat + 2)
    ∧ ((item8 [0x01] 1 0x01 8).flagByte.getLsbD 0 = true ∧ (item8 [0x01] 1 0x01 8).inLen ≤ (item8 [0x01] 1 0x01 8).inPos) := by
  decide +kernel

/-- V-BR-1 and V-BR-2: one bit, then three. -/
theorem witness_TwoReadsAreOneWiderRead :
    ∃ t u, readBits 1 (bound [0xB5, 0x3C, 0xF0] 0) = .ok 0x1 t ∧ readBits 3 t = .ok 0x2 u
      ∧ (bound [0xB5, 0x3C, 0xF0] 0).brCount.toNat ≤ 7 :=
  ⟨_, _, rfl, rfl, by decide⟩

theorem witness_ReadPullsOnlyTheBytesItNeeds :
    ∃ t, readBits 16 cursor23 = .ok 0x097F t ∧ cursor23.brCount.toNat ≤ 7 ∧ t.inPos ≠ cursor23.inPos :=
  ⟨_, rfl, by decide, by decide +kernel⟩

/-- A host that polls, enables the interrupt, sends a word that is dropped and clears `CMD_ERR` while a command runs. -/
def meddling : List Turn :=
  [.engine, .host (.regRead 4 0x04), .host (.regWrite 4 0x08 1), .engine, .host (.regWrite 4 0x00 0x00000001),
    .host (.regWrite 4 0x04 0x20), .engine]

/-- V-CRC-16's input, with OUT not bound up to `OUT_LIMIT`: silent, and with a host that acts. -/
def crcInput : State := { bound [0x42, 0x43] 0 with outLimit := 7 }

theorem witness_CrcBufFoldsTheWholeInput :
    ((issuing 0x00000003 crcInput []).Launched 0x00000003 4
      ∧ (issuing 0x00000003 crcInput []).inLen.toNat + 2 ≤ engineTurns 5 (issuing 0x00000003 crcInput []))
    ∧ ((issuing 0x00000003 crcInput meddling).Launched 0x00000003 8
      ∧ (issuing 0x00000003 crcInput meddling).inLen.toNat + 2 = engineTurns 9 (issuing 0x00000003 crcInput meddling))
    ∧ crcInput.memWf = true ∧ [0x42, 0x43].length = crcInput.inLen.toNat
    ∧ ∀ i (h : i < [0x42, 0x43].length), inByte crcInput (BitVec.ofNat 32 i) = some ([0x42, 0x43][i] : Byte) :=
  ⟨⟨launched_of _ (by decide +kernel), by decide +kernel⟩, ⟨launched_of _ (by decide +kernel), by decide +kernel⟩,
    by decide +kernel, by decide +kernel, by decide +kernel⟩

/-- The stops of R106: less input than room, more, and as much. -/
theorem witness_DecStoreCopiesTheSmallerLength :
    ((issuing 0x00000006 (bound [0x48, 0x49] 5) []).Launched 0x00000006 4 ∧ (bound [0x48, 0x49] 5).memWf = true
      ∧ 4 ≤ engineTurns 5 (issuing 0x00000006 (bound [0x48, 0x49] 5) []))
    ∧ ((issuing 0x00000006 (bound [0x48, 0x45, 0x4C] 2) []).Launched 0x00000006 4
      ∧ (bound [0x48, 0x45, 0x4C] 2).memWf = true
      ∧ 4 ≤ engineTurns 5 (issuing 0x00000006 (bound [0x48, 0x45, 0x4C] 2) []))
    ∧ ((issuing 0x00000006 (bound [0x48, 0x49] 2) meddling).Launched 0x00000006 8 ∧ (bound [0x48, 0x49] 2).memWf = true
      ∧ (bound [0x48, 0x49] 2).inLen = (bound [0x48, 0x49] 2).outLimit
      ∧ 4 ≤ engineTurns 9 (issuing 0x00000006 (bound [0x48, 0x49] 2) meddling)) :=
  ⟨⟨launched_of _ (by decide +kernel), by decide +kernel, by decide +kernel⟩,
    ⟨launched_of _ (by decide +kernel), by decide +kernel, by decide +kernel⟩,
    launched_of _ (by decide +kernel), by decide +kernel, by decide, by decide +kernel⟩

/-- A decode, and `NOP` with neither buffer bound. -/
theorem witness_EveryLaunchedCommandEnds :
    ((issuing 0x00000007 (bound [0x83, 0x00] 3) meddling).Launched 0x00000007 25
      ∧ (issuing 0x00000007 (bound [0x83, 0x00] 3) meddling).Inv
      ∧ 2 + 8 * 2 + 3 ≤ engineTurns 26 (issuing 0x00000007 (bound [0x83, 0x00] 3) meddling))
    ∧ ((issuing 0x00000000 { State.reset with inLen := 1, outLimit := 1 } []).Launched 0x00000000 11
      ∧ (issuing 0x00000000 { State.reset with inLen := 1, outLimit := 1 } []).Inv
      ∧ 2 + 8 * 1 + 1 ≤ engineTurns 12 (issuing 0x00000000 { State.reset with inLen := 1, outLimit := 1 } [])) :=
  ⟨⟨launched_of _ (by decide +kernel), inv_of_check (by decide +kernel), by decide +kernel⟩,
    launched_of _ (by decide +kernel), inv_of_check (by decide +kernel), by decide +kernel⟩

theorem witness_Lz4MatchRepeatsTheOutput :
    copying4.Inv ∧ copying4.DictTracks ∧ copying4.phase = .lz4Copy ∧ copying4.sched = []
    ∧ copying4.cfg.dict4InitPos = 0 ∧ copying4.matchSrc.toNat < copying4.outCount.toNat
    ∧ copying4.outCount.toNat + copying4.matchRem = copying4.outLimit.toNat :=
  ⟨copying4_inv, copying4_tracks, by decide, by decide, by decide, by decide, by decide⟩

theorem witness_Lz8MatchRepeatsTheOutput :
    copying8.Inv ∧ copying8.DictTracks ∧ copying8.phase = .lz8Copy ∧ copying8.sched = []
    ∧ copying8.matchSrc = matchSource8 copying8.dictPos 1 ∧ (1 : BitVec 12).toNat ≤ copying8.outCount.toNat
    ∧ copying8.outCount.toNat + copying8.matchRem = copying8.outLimit.toNat :=
  ⟨copying8_inv, copying8_tracks, by decide, by decide, by decide, by decide, by decide⟩

theorem witness_BufferWritesOnlyWhileIdle :
    (started 0x00000006 [0x48] 1).memWf = true ∧ (started 0x00000006 [0x48] 1).busy = true
    ∧ (0 : Word) < (started 0x00000006 [0x48] 1).inLen ∧ (0 : Word) < (started 0x00000006 [0x48] 1).outLimit
    ∧ (bound [0x48] 1).memWf = true ∧ (bound [0x48] 1).busy = false
    ∧ (inByte (bound [0x48] 1) 0).isSome ∧ (outByte (bound [0x48] 1) 0).isSome := by decide +kernel

/-- The states of the clauses, in order: issuing without IN, and with IN but without OUT; each phase at an unbound byte
(for the 4 KB token: the flag, and the second byte of a literal and of a match); the literals and the copies. -/
theorem witness_UnboundByteFaults :
    (State.reset.busy = false ∧ legal 0x00000105 = true ∧ ¬({ State.reset with inLen := 1 } : State).inBound)
    ∧ ((bound [0x48] 0).memWf = true ∧ (bound [0x48] 0).inBound
      ∧ ¬({ bound [0x48] 0 with outLimit := 1 } : State).outBound)
    ∧ (({ running 0x3 .k4 .crcRun [] 0 with inLen := 1 } : State).crcIdx < 1 ∧ inByte (running 0x3 .k4 .crcRun [] 0) 0 = none)
    ∧ ((running 0x6 .k4 .storeRun [] 1).outCount ≠ (running 0x6 .k4 .storeRun [] 1).outLimit
      ∧ inByte (running 0x6 .k4 .storeRun [] 1) 0 = none)
    ∧ ((inByte (running 0x6 .k4 .storeRun [0x48] 0) 0).isSome ∧ outByte (running 0x6 .k4 .storeRun [0x48] 0) 0 = none
      ∧ (running 0x6 .k4 .storeRun [0x48] 0).outCount ≠ 1)
    ∧ (16 ≤ availBits { bound [0x48] 0 with inLen := 2 } ∧ 1 < (16 - 0 + 7) / 8 ∧ Mem.lookup (bound [0x48] 0).inMem 1 = none)
    ∧ (1 ≤ availBits { token4 [] with inLen := 1 } ∧ 0 < (1 - 0 + 7) / 8 ∧ Mem.lookup (token4 []).inMem 0 = none)
    ∧ (streamBit { token4 [0x83] with inLen := 3 } 0 = some true ∧ 9 ≤ availBits { token4 [0x83] with inLen := 3 }
      ∧ 1 < (9 - 0 + 7) / 8 ∧ Mem.lookup (token4 [0x83]).inMem 1 = none)
    ∧ (streamBit { token4 [0x82] with inLen := 3 } 0 = some false ∧ 17 ≤ availBits { token4 [0x82] with inLen := 3 }
      ∧ 1 < (17 - 0 + 7) / 8 ∧ Mem.lookup (token4 [0x82]).inMem 1 = none)
    ∧ inByte (item8 [] 0 0 0) 0 = none ∧ inByte (item8 [0x00, 0x23] 1 0x00 8) (1 + 1) = none
    ∧ outByte { copying4 with outMem := [] } copying4.outCount = none ∧ copying4.outCount ≠ copying4.outLimit := by
  refine ⟨⟨by decide, by decide, fun h => ?_⟩, ⟨by decide +kernel, inBound_of (by decide +kernel), fun h => ?_⟩, ?_⟩
  · exact absurd (h 0 (by decide)) (by decide)
  · exact absurd (h 0 (by decide)) (by decide)
  · decide +kernel

/-- OUT at 1000 with one byte: a byte of IN bound there, and one bound just below it; and a busy block. -/
theorem witness_BindingInWhereItOverlapsFaults :
    (bound [] 1).busy = false ∧ (outByte (bound [] 1) 0).isSome ∧ 1000 + 0 = (bound [] 1).outBase + (0 : Word).toNat
    ∧ (bound [] 1).outMem.map Prod.fst = [0] ∧ 999 + 0 ≠ (bound [] 1).outBase + 0
    ∧ (started 0x00000000 [] 0).busy = true := by decide +kernel

/-- IN at 0 with one byte: a byte of OUT bound there, and one bound just above it; and a busy block. -/
theorem witness_BindingOutWhereItOverlapsFaults :
    (bound [0x48] 0).busy = false ∧ (inByte (bound [0x48] 0) 0).isSome ∧ (bound [0x48] 0).inBase + (0 : Word).toNat = 0 + 0
    ∧ (bound [0x48] 0).inMem.map Prod.fst = [0] ∧ (bound [0x48] 0).inBase + 0 ≠ 1 + 0
    ∧ (started 0x00000000 [] 0).busy = true := by decide +kernel

/-- An engine turn that writes a byte of OUT. -/
theorem witness_EngineWritesOutOnlyAtOutCount :
    ∃ t, step (copying4.withTurn .engine) = .next t ∧ outByte t 1 ≠ outByte copying4 1 :=
  ⟨_, rfl, by decide +kernel⟩

theorem witness_ConfigurationNeverChanges : ∃ t, step copying4 = .next t := ⟨_, rfl⟩

/-- The end of a command, and a reset in mid-command. -/
theorem witness_OnlyFinishOrResetLeavesBusy :
    (∃ t, step (started 0x00000000 [] 0) = .next t ∧ (started 0x00000000 [] 0).busy = true ∧ t.busy = false)
    ∧ ∃ t, step (copying4.withTurn .reset) = .next t ∧ copying4.busy = true ∧ t.busy = false :=
  ⟨⟨_, rfl, by decide, by decide⟩, ⟨_, rfl, by decide, by decide⟩⟩

theorem witness_ConditionsAreSticky :
    ∃ t, step ({ State.reset with cmdErr := true, brShort := true, limitErr := true }.writing 0x04 0x70) = .next t
      ∧ t.cmdErr = false ∧ t.brShort = false ∧ t.limitErr = false :=
  ⟨_, rfl, by decide, by decide, by decide⟩

theorem witness_OnlyTheirCommandsWriteCrcAccAndBrData :
    (started 0x00410002 [] 0).Inv ∧ (started 0x00000085 [0x41] 0).Inv
    ∧ (∃ t, step (started 0x00410002 [] 0) = .next t ∧ t.crcAcc ≠ (started 0x00410002 [] 0).crcAcc)
    ∧ ∃ t, step (started 0x00000085 [0x41] 0) = .next t ∧ t.brData ≠ (started 0x00000085 [0x41] 0).brData :=
  ⟨inv_of_check (by decide +kernel), inv_of_check (by decide +kernel), ⟨_, rfl, by decide +kernel⟩,
    ⟨_, rfl, by decide +kernel⟩⟩

theorem witness_NoResultDependsOnTheFlags :
    copying4.sameButFlags { copying4 with done := true, cmdErr := true, irqEn := true }
    ∧ ∃ t, step (copying4.withTurn .engine) = .next t :=
  ⟨rfl, _, rfl⟩

/-- Instances that share nothing (the buffers of the second moved up), and two whose OUT buffers lie at one place. -/
theorem witness_InstancesAreIndependent :
    (∃ sys', systemStep 1 [{ copying4 with inBase := 2000, outBase := 3000 }, copying4] = .next sys')
    ∧ ∃ t, step copying4 = .next t ∧ [copying8, copying4][0]? = some copying8 ∧ (outByte t 0).isSome
      ∧ (outByte copying8 0).isSome ∧ t.outBase + (0 : Word).toNat = copying8.outBase + (0 : Word).toNat :=
  ⟨⟨_, rfl⟩, _, rfl, rfl, by decide +kernel, by decide +kernel, by decide⟩

theorem witness_EveryStepKeepsTheInvariant : copying8.Inv ∧ ∃ t, step copying8 = .next t := ⟨copying8_inv, _, rfl⟩

theorem witness_EngineTurnAlwaysAnswersNext : copying4.Inv ∧ copying8.Inv := ⟨copying4_inv, copying8_inv⟩

theorem witness_EveryStepKeepsTheDictionaryOnTheOutput :
    copying4.Inv ∧ copying4.DictTracks ∧ ∃ t, step copying4 = .next t := ⟨copying4_inv, copying4_tracks, _, rfl⟩

end Sys2Proof.Tests
end

section
/-! PROOFS. The register window as the host writes it: which offset an access reaches, what a write of an aligned word
does, and the offsets that ignore it (10_state.md R25). -/

namespace Sys2Proof.Machine

/-- One aligned word inside the window reaches its offset (R36). -/
theorem accessOffset_aligned {s : State} {off : Nat} (hwin : off < windowSize) (halign : off % 4 = 0) :
    accessOffset 4 (s.cfg.regBase + off) s = .ok off := by
  simpa [accessOffset, halign] using hwin

/-- A host write of an aligned word, anywhere but at `CMD`, is that write and nothing else (R64). -/
theorem step_writing {s : State} {off : Nat} (w : Word) (hwin : off < windowSize) (halign : off % 4 = 0)
    (hcmd : off ≠ Reg.offset .cmd) : step (s.writing off w) = .next (writeOffset off w s) := by
  change runTurn (hostRegWrite 4 (s.cfg.regBase + off) w s) = _
  simp [hostRegWrite, accessOffset_aligned hwin halign, hcmd, runTurn]

/-- Every register lies below the reserved offsets. -/
theorem Reg.offset_lt_reserved (r : Reg) : r.offset < 0x2C := by
  cases r <;> decide

/-- No register stands at a reserved offset. -/
theorem regAt_reserved {off : Nat} (h : 0x2C ≤ off) : regAt off = none := by
  refine List.find?_eq_none.mpr fun r _ => ?_
  have hlt := r.offset_lt_reserved
  simp only [beq_iff_eq]
  omega

theorem readOffset_reserved {off : Nat} (s : State) (h : 0x2C ≤ off) : readOffset off s = 0 := by
  simp [readOffset, regAt_reserved h]

theorem writeOffset_reserved {off : Nat} (w : Word) (s : State) (h : 0x2C ≤ off) : writeOffset off w s = s := by
  simp [writeOffset, regAt_reserved h]

/-- `IN_POS`, `OUT_COUNT`, `BR_DATA`, `BR_STATE`, `DICT_POS` and the reserved offsets keep the state as it was (R25). -/
theorem writeOffset_ignored {off : Nat} (w : Word) (s : State)
    (h : off = 0x10 ∨ off = 0x18 ∨ off = 0x20 ∨ off = 0x24 ∨ off = 0x28 ∨ 0x2C ≤ off) : writeOffset off w s = s := by
  obtain rfl | rfl | rfl | rfl | rfl | hres := h
  case inr.inr.inr.inr.inr => exact writeOffset_reserved w s hres
  all_goals rfl

/-- Settles O10: the write reaches its offset, which ignores it. -/
theorem readOnlyAndReservedWritesAreIgnored : Obligations.ReadOnlyAndReservedWritesAreIgnored := by
  unfold Obligations.ReadOnlyAndReservedWritesAreIgnored
  intro s w off hwin halign hoff
  have hcmd : off ≠ Reg.offset .cmd := by
    simp only [Reg.offset]
    omega
  refine ⟨?_, readOffset_reserved s⟩
  rw [step_writing w hwin halign hcmd, writeOffset_ignored w s hoff]

end Sys2Proof.Machine
end

section
/-! PROOFS. Register accesses whose form the model refuses (20_memory.md R36). -/

namespace Sys2Proof.Machine

/-- Inside the window, an access of another width or at an unaligned offset reaches no register (R36). -/
theorem accessOffset_badForm {s : State} {width off : Nat} (hwin : off < windowSize)
    (hform : width ≠ 4 ∨ off % 4 ≠ 0) :
    accessOffset width (s.cfg.regBase + off) s = .error .registerAccessForm := by
  have hinside : ¬ (s.cfg.regBase + off < s.cfg.regBase ∨ s.cfg.regBase + windowSize ≤ s.cfg.regBase + off) := by
    omega
  rw [accessOffset, if_neg hinside, Nat.add_sub_cancel_left, if_pos hform]

/-- A host register read that reaches no offset is refused, for the reason the access gives. -/
theorem step_regRead_refused {s : State} {width addr : Nat} {r : Refusal} (h : accessOffset width addr s = .error r) :
    step (s.withTurn (.host (.regRead width addr))) = .refused r := by
  rw [step_withTurn_host]
  change hostRegRead width addr s = _
  rw [hostRegRead, h]

/-- A host register write that reaches no offset is refused, for the reason the access gives. -/
theorem step_regWrite_refused {s : State} {width addr : Nat} {r : Refusal} (w : Word)
    (h : accessOffset width addr s = .error r) :
    step (s.withTurn (.host (.regWrite width addr w))) = .refused r := by
  rw [step_withTurn_host]
  change runTurn (hostRegWrite width addr w s) = _
  rw [hostRegWrite, h]
  rfl

/-- Settles O11: such an access reaches no offset, so the read and the write are both refused for its form. -/
theorem narrowOrUnalignedAccessIsRefused : Obligations.NarrowOrUnalignedAccessIsRefused := by
  unfold Obligations.NarrowOrUnalignedAccessIsRefused
  intro s width off w hwin hform
  have hoff : accessOffset width (s.cfg.regBase + off) s = .error .registerAccessForm :=
    accessOffset_badForm hwin hform
  exact ⟨step_regRead_refused hoff, step_regWrite_refused w hoff⟩

end Sys2Proof.Machine
end

section
/-! PROOFS. The words of `CMD` (30_encoding.md R51 to R53): legality in plain arithmetic, and what the decoder answers on
each side of it. -/

namespace Sys2Proof

/-- A field of a word, as a number. -/
theorem toNat_extractLsb' {m : Nat} (w : BitVec m) (start len : Nat) :
    (w.extractLsb' start len).toNat = w.toNat / 2 ^ start % 2 ^ len := by
  rw [BitVec.extractLsb'_toNat, Nat.shiftRight_eq_div_pow]

/-- A field of a word has a value exactly when its number is that value's. -/
theorem extractLsb'_eq_iff {m : Nat} (w : BitVec m) (start len : Nat) (v : BitVec len) :
    w.extractLsb' start len = v ↔ w.toNat / 2 ^ start % 2 ^ len = v.toNat := by
  rw [← BitVec.toNat_inj, toNat_extractLsb']

/-- R52's five conditions in plain arithmetic. -/
theorem legal_iff (w : Word) :
    legal w = true ↔
      w.toNat / 2 ^ 24 = 0 ∧ w.toNat / 2 ^ 9 % 2 ^ 7 = 0 ∧ w.toNat % 2 ^ 4 ≤ 9
      ∧ (if w.toNat % 2 ^ 4 = 5 then 1 ≤ w.toNat / 2 ^ 4 % 2 ^ 5 ∧ w.toNat / 2 ^ 4 % 2 ^ 5 ≤ 16
          else w.toNat / 2 ^ 4 % 2 ^ 5 = 0)
      ∧ (if w.toNat % 2 ^ 4 = 2 then True else w.toNat / 2 ^ 16 % 2 ^ 8 = 0) := by
  have hop : ∀ v : BitVec 4, w.extractLsb' 0 4 = v ↔ w.toNat % 2 ^ 4 = v.toNat := by
    simpa using extractLsb'_eq_iff w 0 4
  have htop : w.toNat / 2 ^ 24 % 2 ^ 8 = w.toNat / 2 ^ 24 :=
    Nat.mod_eq_of_lt (Nat.div_lt_of_lt_mul w.isLt)
  simp only [legal, Bool.and_eq_true, beq_iff_eq, decide_eq_true_eq, hop, htop, extractLsb'_eq_iff, toNat_extractLsb',
    apply_ite (· = true), maxField, and_assoc, BitVec.toNat_ofNat]
  simp

/-- A row without operand bits takes its pattern alone, so with a legal pattern it takes no illegal word. -/
theorem legal_of_fixed_hits {r : CommandRow} {w : Word} (hmask : r.mask = BitVec.allOnes 32)
    (hpattern : legal r.pattern = true) (h : r.hits w = true) : legal w = true := by
  rw [CommandRow.hits, hmask, BitVec.and_allOnes, beq_iff_eq] at h
  rw [h, hpattern]

/-- A word that a row takes agrees with its pattern in every field the mask covers. -/
theorem CommandRow.field_of_hits {r : CommandRow} {w : Word} (h : r.hits w = true) {start len : Nat}
    (hmask : r.mask.extractLsb' start len = BitVec.allOnes len) :
    w.extractLsb' start len = r.pattern.extractLsb' start len := by
  rw [CommandRow.hits, beq_iff_eq] at h
  rw [← h, BitVec.extractLsb'_and, hmask, BitVec.and_allOnes]

/-- `CRC_BYTE`'s row takes legal words only. -/
theorem legal_of_rowCrcByte_hits {w : Word} (h : rowCrcByte.hits w = true) : legal w = true := by
  have hop : w.extractLsb' 0 4 = 0x2#4 := CommandRow.field_of_hits h (by decide)
  have hn : w.extractLsb' 4 5 = 0#5 := CommandRow.field_of_hits h (by decide)
  have hmid : w.extractLsb' 9 7 = 0#7 := CommandRow.field_of_hits h (by decide)
  have htop : w.extractLsb' 24 8 = 0#8 := CommandRow.field_of_hits h (by decide)
  simp [legal, hop, hn, hmid, htop]

/-- `BR_READ`'s row takes legal words only, when the width is 1..16. -/
theorem legal_of_rowBrRead_hits {w : Word} (h : rowBrRead.hits w = true) (hmin : 1 ≤ (nField w).toNat)
    (hmax : (nField w).toNat ≤ maxField) : legal w = true := by
  have hop : w.extractLsb' 0 4 = 0x5#4 := CommandRow.field_of_hits h (by decide)
  have hmid : w.extractLsb' 9 7 = 0#7 := CommandRow.field_of_hits h (by decide)
  have hdata : w.extractLsb' 16 8 = 0#8 := CommandRow.field_of_hits h (by decide)
  have htop : w.extractLsb' 24 8 = 0#8 := CommandRow.field_of_hits h (by decide)
  have hwidth : (decide (1 ≤ (w.extractLsb' 4 5).toNat) && decide ((w.extractLsb' 4 5).toNat ≤ maxField)) = true := by
    simp only [Bool.and_eq_true, decide_eq_true_eq]
    exact ⟨hmin, hmax⟩
  rw [legal, hop, hmid, hdata, htop, hwidth]
  rfl

/-- No row takes an illegal word (R53). -/
theorem decodeCommand_of_illegal {w : Word} (h : legal w = false) : decodeCommand w = .illegalCommand w := by
  have hnot : ¬ legal w = true := by simp [h]
  have miss_fixed (r : CommandRow) (hmask : r.mask = BitVec.allOnes 32) (hpattern : legal r.pattern = true) :
      ¬ r.hits w = true :=
    fun hit => hnot (legal_of_fixed_hits hmask hpattern hit)
  have miss_crcByte : ¬ rowCrcByte.hits w = true := fun hit => hnot (legal_of_rowCrcByte_hits hit)
  have miss_brRead :
      ¬ (rowBrRead.hits w && decide (1 ≤ (nField w).toNat) && decide ((nField w).toNat ≤ maxField)) = true := by
    simp only [Bool.and_eq_true, decide_eq_true_eq]
    exact fun ⟨⟨hit, hmin⟩, hmax⟩ => hnot (legal_of_rowBrRead_hits hit hmin hmax)
  rw [decodeCommand, if_neg (miss_fixed rowNop rfl rfl), if_neg (miss_fixed rowCrcInit rfl rfl), if_neg miss_crcByte,
    if_neg (miss_fixed rowCrcBuf rfl rfl), if_neg (miss_fixed rowBrInit rfl rfl), if_neg miss_brRead,
    if_neg (miss_fixed rowDecStore rfl rfl), if_neg (miss_fixed rowDecLz4k rfl rfl),
    if_neg (miss_fixed rowDecLz8k rfl rfl), if_neg (miss_fixed rowDecEmpty rfl rfl)]

/-- A legal word decodes to a well-formed command outside the illegal space (R52, R53). -/
theorem decodeCommand_legal_wf {w : Word} (h : legal w = true) :
    (decodeCommand w).wf = true ∧ ∀ x, decodeCommand w ≠ .illegalCommand x := by
  rcases decodeCommand_of_legal h with
    ⟨e, -⟩ | ⟨e, -⟩ | ⟨e, -⟩ | ⟨e, -⟩ | ⟨e, -⟩ | ⟨e, -, hmin, hmax⟩ | ⟨e, -⟩ | ⟨e, -⟩ | ⟨e, -⟩ | ⟨e, -⟩
  case inr.inr.inr.inr.inr.inl =>
    have hwidth : (Instr.brRead (nField w)).wf = true := by simp [Instr.wf, maxField, hmin, hmax]
    rw [e]
    exact ⟨hwidth, fun _ => Instr.noConfusion⟩
  all_goals
    rw [e]
    exact ⟨rfl, fun _ => Instr.noConfusion⟩

end Sys2Proof

namespace Sys2Proof.Machine

/-- A host write to `CMD` is the command turn of the word (R64, R67). -/
theorem step_writing_cmd (s : State) (w : Word) :
    step (s.writing (Reg.offset .cmd) w) = runTurn (commandTurn w s) := by
  change runTurn (hostRegWrite 4 (s.cfg.regBase + Reg.offset .cmd) w s) = _
  simp [hostRegWrite, accessOffset_aligned (s := s) (off := Reg.offset .cmd) (by decide) (by decide)]

/-- An illegal word written while idle is refused and reported (R69). -/
theorem step_writing_illegal {s : State} {w : Word} (hidle : s.busy = false) (h : legal w = false) :
    step (s.writing (Reg.offset .cmd) w) = .next (refuseIllegal s) := by
  have hrun : commandTurn w s = .run (.illegalCommand w) s := by simp [commandTurn, hidle, h]
  have hexec : exec (.illegalCommand w) s = execIllegalCommand w s := rfl
  rw [step_writing_cmd, hrun, runTurn, hexec, execIllegalCommand, hidle]
  rfl

/-- Settles O3: the conditions are `legal`; the ten commands are what a legal word decodes to, and no row of the table
takes an illegal one. -/
theorem legalWordsAreExactlyTheCommands : Obligations.LegalWordsAreExactlyTheCommands := by
  unfold Obligations.LegalWordsAreExactlyTheCommands
  intro w c
  have hc : legal w = true ↔ c := legal_iff w
  rw [← hc, Bool.not_eq_true]
  exact ⟨decodeCommand_legal_wf,
    fun h => ⟨decodeCommand_of_illegal h, fun _ hidle => step_writing_illegal hidle h⟩⟩

end Sys2Proof.Machine
end

section
/-! PROOFS. The operands of an 8 KB match (30_encoding.md R58). -/

namespace Sys2Proof.Machine

/-- The offset's bits: the high half of the second byte over the first byte. -/
theorem lz8Offset_eq_append (byte1 byte2 : Byte) :
    ((byte2.setWidth 12 &&& 0xF0#12) <<< 4) ||| byte1.setWidth 12 = byte2.extractLsb' 4 4 ++ byte1 := by
  apply BitVec.eq_of_getLsbD_eq
  intro i hi
  rw [BitVec.getLsbD_append]
  interval_cases i <;> simp

/-- `offset = (byte2 / 16) * 256 + byte1` (R58). -/
theorem toNat_lz8Offset (byte1 byte2 : Byte) :
    (((byte2.setWidth 12 &&& 0xF0#12) <<< 4) ||| byte1.setWidth 12).toNat
      = byte2.toNat / 16 * 256 + byte1.toNat := by
  have hhigh : (byte2.extractLsb' 4 4).toNat = byte2.toNat / 16 := by
    have := byte2.isLt
    rw [toNat_extractLsb']
    omega
  rw [lz8Offset_eq_append, BitVec.toNat_append, ← Nat.shiftLeft_add_eq_or_of_lt byte1.isLt, hhigh, Nat.shiftLeft_eq]

/-- `length = N + 3`, which is 3 to 18 (R55, R58). -/
theorem matchLength_bounds (n : BitVec 4) : 3 ≤ matchLength n ∧ matchLength n ≤ 18 := by
  have := n.isLt
  unfold matchLength
  omega

/-- The copy source lies the offset behind the write position, modulo the dictionary's 8192 cells (R58). -/
theorem toNat_matchSource8 (pos : DictIdx) (o : BitVec 12) :
    ((matchSource8 pos o).toNat : Int) = ((pos.toNat : Int) - (o.toNat : Int)) % 8192 := by
  have := o.isLt
  have hwide : (o.setWidth 13).toNat = o.toNat := BitVec.toNat_setWidth_of_le (by decide)
  rw [matchSource8, BitVec.toNat_sub, hwide]
  omega

/-- Settles O5: the offset's two parts do not overlap, the length offset is the second byte's low half, and the source
is a subtraction of 13-bit numbers. -/
theorem lz8MatchOperandAssembly : Obligations.Lz8MatchOperandAssembly := by
  unfold Obligations.Lz8MatchOperandAssembly
  intro byte1 byte2 pos
  have hlength : matchLength (byte2.extractLsb' 0 4) = byte2.toNat % 16 + 3 := by
    simp [matchLength]
  obtain ⟨hmin, hmax⟩ := matchLength_bounds (byte2.extractLsb' 0 4)
  exact ⟨_, _, rfl, toNat_lz8Offset byte1 byte2, hlength, hmin, hmax, toNat_matchSource8 pos _⟩

end Sys2Proof.Machine
end

section
/-! PROOFS. `STATUS` bit by bit, and the host's write to it (10_state.md R15, 40_control.md R65). -/

namespace Sys2Proof.Machine

/-- The bits of `STATUS`, bit 0 first (R15). -/
def statusBits (s : State) : List Bool :=
  [s.busy, s.done, s.stop.code.testBit 0, s.stop.code.testBit 1, s.brShort, s.cmdErr, s.limitErr]

/-- `STATUS` is the number its bits stand for. -/
theorem statusWord_eq_ofBoolListLE (s : State) :
    statusWord s = (BitVec.ofBoolListLE (statusBits s)).setWidth 32 := by
  rw [statusWord, statusBits]
  cases s.busy <;> cases s.done <;> cases s.stop <;> cases s.brShort <;> cases s.cmdErr <;> cases s.limitErr <;> rfl

/-- Each bit of `STATUS`, and 0 above the last (R15). -/
theorem getLsbD_statusWord (s : State) (i : Nat) : (statusWord s).getLsbD i = (statusBits s).getD i false := by
  rw [statusWord_eq_ofBoolListLE, BitVec.getLsbD_setWidth, BitVec.getLsbD_ofBoolListLE]
  rcases Nat.lt_or_ge i 32 with h | h
  · simp [h]
  · have hlen : (statusBits s).length ≤ i := Nat.le_trans (by decide : 7 ≤ 32) h
    rw [List.getD_eq_default _ _ hlen, Bool.and_false]

/-- R65 on the status word: the bits 1, 4, 5 and 6 of the written word are cleared. -/
theorem statusWord_statusW1c (w : Word) (s : State) :
    statusWord (statusW1c w s) = statusWord s &&& ~~~(w &&& 0x00000072#32) := by
  have hbusy : (statusW1c w s).busy = s.busy := rfl
  apply BitVec.eq_of_getLsbD_eq
  intro i hi
  rw [BitVec.getLsbD_and, BitVec.getLsbD_not, BitVec.getLsbD_and, getLsbD_statusWord, getLsbD_statusWord]
  rcases i with _ | _ | _ | _ | _ | _ | _ | i <;> simp [statusBits, hbusy]

/-- Settles O8: the write is `statusW1c`. -/
theorem statusIsWriteOneToClear : Obligations.StatusIsWriteOneToClear := by
  unfold Obligations.StatusIsWriteOneToClear
  intro s w
  have hstep : step (s.writing 0x04 w) = .next (statusW1c w s) :=
    step_writing w (by decide) (by decide) (by decide)
  exact ⟨statusW1c w s, hstep, rfl, statusWord_statusW1c w s⟩

end Sys2Proof.Machine
end

section
/-! PROOFS. Operand registers and commands as the host writes them (40_control.md R66, R68, R69), and `NOP` (R73). -/

namespace Sys2Proof.Machine

/-- While busy a write to an operand register is refused (R66). -/
theorem writeIdle_busy {s : State} (h : s.busy = true) (written : State) : writeIdle s written = cfgRefused s := by
  rw [writeIdle, if_pos h]

/-- While idle a write to an operand register is made (R64). -/
theorem writeIdle_idle {s : State} (h : s.busy = false) (written : State) : writeIdle s written = written := by
  rw [writeIdle, h, if_neg Bool.false_ne_true]

/-- While busy a write to any of the operand registers is refused (R66). -/
theorem writeOffset_operand_busy {s : State} (h : s.busy = true) (w : Word) {off : Nat}
    (hoff : off = 0x0C ∨ off = 0x14 ∨ off = 0x1C) : writeOffset off w s = cfgRefused s := by
  obtain rfl | rfl | rfl := hoff
  all_goals exact writeIdle_busy h _

/-- Settles O9: each register is reached by its offset, and `writeIdle` decides. -/
theorem operandRegisterWrites : Obligations.OperandRegisterWrites := by
  unfold Obligations.OperandRegisterWrites
  intro s w
  refine ⟨fun hidle => ⟨?_, ?_, ?_⟩, fun hbusy off hoff => ?_, ?_⟩
  case refine_4 =>
    have hform : off < windowSize ∧ off % 4 = 0 ∧ off ≠ Reg.offset .cmd := by
      simp only [windowSize, Reg.offset]
      omega
    obtain ⟨hwin, halign, hcmd⟩ := hform
    rw [step_writing w hwin halign hcmd, writeOffset_operand_busy hbusy w hoff]
    rfl
  case refine_5 => exact step_writing w (by decide) (by decide) (by decide)
  all_goals
    rw [step_writing w (by decide) (by decide) (by decide)]
    exact congrArg _ (writeIdle_idle hidle _)

/-- Any word is dropped while busy (R68). -/
theorem commandTurn_busy {s : State} (h : s.busy = true) (w : Word) : commandTurn w s = .done (.next (refuseBusy s)) := by
  rw [commandTurn, if_pos h]

/-- Settles O13: the word of the write goes to `commandTurn`, which drops it. -/
theorem commandWhileBusyIsDropped : Obligations.CommandWhileBusyIsDropped := by
  unfold Obligations.CommandWhileBusyIsDropped
  intro s w hbusy
  have hstep : step (s.writing 0x00 w) = runTurn (commandTurn w s) := step_writing_cmd s w
  rw [hstep, commandTurn_busy hbusy]
  rfl

/-- The meaning of an illegal word while idle (R69). -/
theorem exec_illegalCommand_idle {s : State} (h : s.busy = false) (w : Word) :
    exec (.illegalCommand w) s = .next (refuseIllegal s) := by
  change execIllegalCommand w s = _
  rw [execIllegalCommand, h, if_neg Bool.false_ne_true]

/-- Settles O14: the write runs the illegal command, and both set the two bits. -/
theorem illegalCommandIsRefused : Obligations.IllegalCommandIsRefused := by
  unfold Obligations.IllegalCommandIsRefused
  refine ⟨fun s w hidle hillegal => ?_, refuseIllegal State.reset, ?_, by decide⟩
  · have hexec := exec_illegalCommand_idle hidle w
    exact ⟨hexec, (step_writing_illegal hidle hillegal).trans hexec.symm⟩
  · exact step_writing_illegal (by decide) (by decide)

/-- Settles O20: `NOP` is `finish`, in the example too. -/
theorem nopOnlyFinishes : Obligations.NopOnlyFinishes := by
  unfold Obligations.NopOnlyFinishes
  have hnop (s : State) : exec .nop s = .next (finish s) := rfl
  exact ⟨hnop, _, hnop _, by decide⟩

end Sys2Proof.Machine
end

section
/-! PROOFS. What an accepted command relies on while it runs, and what keeps it: the registers the host may not write
meanwhile, and the bound bytes of the two buffers (70_reset_and_hazards.md R143, R144). -/

namespace Sys2Proof.Machine

/-- Where an unlisted index has no value, a written index reads the value, in any list of cells. -/
theorem Mem.lookup_set_written (m : Mem) (a : Nat) (v : Byte) : Mem.lookup (Mem.set none m a v) a = some v := by
  induction m with
  | nil => simp [Mem.set, Mem.lookup]
  | cons c m ih =>
    obtain ⟨k, b⟩ := c
    by_cases hlt : a < k
    · simp [Mem.set, Mem.lookup, hlt]
    · by_cases heq : a = k
      · simp [Mem.set, Mem.lookup, heq]
      · have hne : k ≠ a := Ne.symm heq
        simp [Mem.set, Mem.lookup, hlt, heq, hne, ih]

/-- A write unbinds no index. -/
theorem Mem.isSome_lookup_set {m : Mem} {i : Nat} (a : Nat) (v : Byte) (h : (Mem.lookup m i).isSome) :
    (Mem.lookup (Mem.set none m a v) i).isSome := by
  by_cases heq : a = i
  · rw [heq, Mem.lookup_set_written]
    rfl
  · rwa [Mem.lookup_set_ne _ _ _ heq]

/-- From `s` to `t` the command keeps its OP and its two bounds, and no byte of a buffer gets unbound. -/
structure KeepsCommand (s t : State) : Prop where
  inLen : t.inLen = s.inLen
  outLimit : t.outLimit = s.outLimit
  curOp : t.curOp = s.curOp
  input : ∀ i, (inByte s i).isSome → (inByte t i).isSome
  output : ∀ i, (outByte s i).isSome → (outByte t i).isSome

theorem KeepsCommand.of_sameMemories {s t : State} (hlen : t.inLen = s.inLen) (hlimit : t.outLimit = s.outLimit)
    (hop : t.curOp = s.curOp) (hin : t.inMem = s.inMem) (hout : t.outMem = s.outMem) : KeepsCommand s t :=
  ⟨hlen, hlimit, hop, fun i h => by rwa [inByte, hin], fun i h => by rwa [outByte, hout]⟩

theorem KeepsCommand.trans {s t u : State} (h : KeepsCommand s t) (h' : KeepsCommand t u) : KeepsCommand s u :=
  ⟨h'.inLen.trans h.inLen, h'.outLimit.trans h.outLimit, h'.curOp.trans h.curOp,
    fun i hi => h'.input i (h.input i hi), fun i hi => h'.output i (h.output i hi)⟩

theorem KeepsCommand.inBound {s t : State} (h : KeepsCommand s t) (hs : s.inBound) : t.inBound :=
  fun i hi => h.input i (hs i (h.inLen ▸ hi))

theorem KeepsCommand.outBound {s t : State} (h : KeepsCommand s t) (hs : s.outBound) : t.outBound :=
  fun i hi => h.output i (hs i (h.outLimit ▸ hi))

/-- Emitting a byte keeps the command: OUT stays bound where it was. -/
theorem keepsCommand_emitted (b : Byte) (s : State) : KeepsCommand s (emitted b s) :=
  ⟨rfl, rfl, rfl, fun _ h => h, fun _ h => Mem.isSome_lookup_set _ _ h⟩

/-- The part of the state invariant a running command needs to come to its end; all of it is in `State.Inv` while busy. -/
structure State.UnderWay (s : State) : Prop where
  latched : s.phase = .start → legal (latchedWord s) = true
  phaseOp : ∀ op, opOfPhase s.phase = some op → s.curOp = op
  lookahead : s.brCount.toNat ≤ 7
  outCount : s.phase.decoding = true → s.outCount ≤ s.outLimit
  inBound : usesInput s.curOp = true → s.inBound
  outBound : usesOutput s.curOp = true → s.outBound

/-- A phase of a decode belongs to a command that uses both buffers (R143 step 2). -/
theorem usesBuffers_of_decoding {p : Phase} (h : p.decoding = true) :
    ∃ op, opOfPhase p = some op ∧ usesInput op = true ∧ usesOutput op = true := by
  cases p
  case idle | start | crcRun => cases h
  all_goals exact ⟨_, rfl, rfl, rfl⟩

theorem State.UnderWay.inBound_decoding {s : State} (hs : s.UnderWay) (hd : s.phase.decoding = true) : s.inBound := by
  obtain ⟨op, hop, hin, -⟩ := usesBuffers_of_decoding hd
  exact hs.inBound (hs.phaseOp op hop ▸ hin)

theorem State.UnderWay.outBound_decoding {s : State} (hs : s.UnderWay) (hd : s.phase.decoding = true) : s.outBound := by
  obtain ⟨op, hop, -, hout⟩ := usesBuffers_of_decoding hd
  exact hs.outBound (hs.phaseOp op hop ▸ hout)

/-- A decode that has not reached its limit has room for a byte. -/
theorem State.UnderWay.outCount_lt {s : State} (hs : s.UnderWay) (hd : s.phase.decoding = true)
    (hne : s.outCount ≠ s.outLimit) : s.outCount < s.outLimit :=
  BitVec.lt_of_le_ne (hs.outCount hd) hne

end Sys2Proof.Machine
end

section
/-! PROOFS. Taking input: how far a read moves the cursor, and that with the input bound no read misses a byte
(42_bit_extractor.md R90 to R92). -/

namespace Sys2Proof.Machine

/-- `t` is `s` with `n` bits of input taken, and at most 7 bits held; the flag bits of an 8 KB group may be used up
meanwhile. -/
structure Takes (n : Nat) (s t : State) : Prop where
  frame : t = { s with
    inPos := t.inPos, brBuf := t.brBuf, brCount := t.brCount, flagByte := t.flagByte, flagLeft := t.flagLeft }
  avail : availBits t + n = availBits s
  lookahead : t.brCount.toNat ≤ 7

theorem Takes.keeps {n : Nat} {s t : State} (h : Takes n s t) : KeepsCommand s t :=
  .of_sameMemories (by rw [h.frame]) (by rw [h.frame]) (by rw [h.frame]) (by rw [h.frame]) (by rw [h.frame])

theorem Takes.phase {n : Nat} {s t : State} (h : Takes n s t) : t.phase = s.phase := by rw [h.frame]

theorem Takes.outCount {n : Nat} {s t : State} (h : Takes n s t) : t.outCount = s.outCount := by
  rw [h.frame]

theorem Takes.trans {n m : Nat} {s t u : State} (h : Takes n s t) (h' : Takes m t u) : Takes (n + m) s u := by
  refine ⟨h'.frame.trans ?_, ?_, h'.lookahead⟩
  · rw [h.frame]
  · have hfirst := h.avail
    have hsecond := h'.avail
    omega

/-- A successful read of a field takes its bits (R91, R92). -/
theorem takes_readBits {n : Nat} {s t : State} {v : Half} (hn : n ≤ 16) (hl : s.brCount.toNat ≤ 7)
    (h : readBits n s = .ok v t) : Takes n s t := by
  have hframe := readBits_frame hn h
  obtain ⟨havail, -⟩ := readBits_eq_ok h
  obtain ⟨hpos, hmoved, hheld, hwithin⟩ := readBits_cursor hn h
  have hlen : t.inLen = s.inLen := by rw [hframe]
  have hlook := hheld hl
  refine ⟨hframe.trans ?_, ?_, hlook⟩
  · have hbyte : t.flagByte = s.flagByte := by rw [hframe]
    have hleft : t.flagLeft = s.flagLeft := by rw [hframe]
    rw [hbyte, hleft]
  · unfold availBits at havail ⊢
    rw [hlen]
    by_cases hin : s.inPos ≤ s.inLen
    · have hsin : s.inPos.toNat ≤ s.inLen.toNat := hin
      have htin : t.inPos.toNat ≤ s.inLen.toNat := hlen ▸ hwithin hin
      omega
    · have hpast : s.inLen.toNat < s.inPos.toNat := BitVec.not_le.mp hin
      omega

/-- A byte at `IN_POS`, whatever becomes of the flag bits (R106, R116 to R118). -/
theorem takes_byte {s : State} (hin : s.inPos < s.inLen) (hl : s.brCount.toNat ≤ 7) (flagByte : Byte)
    (flagLeft : Nat) : Takes 8 s { s with inPos := s.inPos + 1, flagByte := flagByte, flagLeft := flagLeft } := by
  refine ⟨rfl, ?_, hl⟩
  have hlt : s.inPos.toNat < s.inLen.toNat := hin
  have hpos := toNat_add_one hin
  simp only [availBits, hpos]
  omega

/-- Two bytes from `IN_POS` on (R118). -/
theorem takes_twoBytes {s : State} (hin : 2 ≤ s.inLen.toNat - s.inPos.toNat) (hl : s.brCount.toNat ≤ 7)
    (flagByte : Byte) (flagLeft : Nat) :
    Takes 16 s { s with inPos := s.inPos + 1 + 1, flagByte := flagByte, flagLeft := flagLeft } := by
  have hfirst : s.inPos < s.inLen := show s.inPos.toNat < s.inLen.toNat by omega
  have hpos := toNat_add_one hfirst
  have hsecond : s.inPos + 1 < s.inLen := show (s.inPos + 1).toNat < s.inLen.toNat by omega
  exact (takes_byte hfirst hl flagByte flagLeft).trans
    (takes_byte (s := { s with inPos := s.inPos + 1, flagByte := flagByte, flagLeft := flagLeft }) hsecond hl _ _)

/-- With the input bound and enough bits left, the pulls of a read find their bytes (R91). -/
theorem pullTo_of_inBound {n : Nat} {s : State} (hn : n ≤ 16) (hs : s.inBound) (havail : n ≤ availBits s) :
    ∃ t, pullTo n 2 s = some t := by
  unfold availBits at havail
  by_cases hone : s.brCount.toNat < n
  case neg => exact ⟨s, by simp [pullTo, hone]⟩
  have hin : s.inPos < s.inLen := show s.inPos.toNat < s.inLen.toNat by omega
  obtain ⟨b, hb⟩ := Option.isSome_iff_exists.mp (hs _ hin)
  have hcount := pulled_brCount b (s := s) (by omega)
  by_cases htwo : s.brCount.toNat + 8 < n
  case neg => exact ⟨pulled b s, by simp [pullTo, hone, pullByte_of_bound hb, hcount, htwo]⟩
  have hpos := toNat_add_one hin
  obtain ⟨b', hb'⟩ := Option.isSome_iff_exists.mp (hs (s.inPos + 1) (show (s.inPos + 1).toNat < _ by omega))
  have hpull : pullByte (pulled b s) = some (pulled b' (pulled b s)) := pullByte_of_bound hb'
  exact ⟨pulled b' (pulled b s), by simp [pullTo, hone, pullByte_of_bound hb, hcount, htwo, hpull]⟩

theorem readBits_ne_notBound {n : Nat} {s : State} (hn : n ≤ 16) (hs : s.inBound) : readBits n s ≠ .notBound := by
  unfold readBits
  by_cases hshort : availBits s < n
  · simp [hshort]
  · obtain ⟨t, ht⟩ := pullTo_of_inBound hn hs (Nat.le_of_not_lt hshort)
    simp [hshort, ht]

end Sys2Proof.Machine
end

section
/-! PROOFS. The engine never faults under a running command: every turn of it answers a next state (40_control.md R70,
70_reset_and_hazards.md R143). -/

namespace Sys2Proof.Machine

/-- The turn answers a next state: no fault, no refusal. -/
def Fetched.Answers (f : Fetched) : Prop := ∃ t, runTurn f = .next t

theorem answers_done (t : State) : (Fetched.done (.next t)).Answers := ⟨t, rfl⟩

theorem underLimit_answers {s : State} {f : Fetched} (h : s.outCount ≠ s.outLimit → f.Answers) :
    (underLimit s f).Answers := by
  unfold underLimit
  by_cases hlimit : s.outCount = s.outLimit
  · rw [if_pos hlimit]
    exact answers_done _
  · rw [if_neg hlimit]
    exact h hlimit

theorem withField_answers {n : Nat} {s : State} {k : Half → State → Fetched} (hn : n ≤ 16) (hs : s.inBound)
    (hk : ∀ v t, readBits n s = .ok v t → (k v t).Answers) : (withField n s k).Answers := by
  unfold withField
  cases hr : readBits n s with
  | ok v t => exact hk v t hr
  | short => exact answers_done _
  | notBound => exact absurd hr (readBits_ne_notBound hn hs)

theorem withByte_answers {s : State} {k : Byte → State → Fetched} (hs : s.inBound) (hin : s.inPos < s.inLen)
    (hk : ∀ b, (k b { s with inPos := s.inPos + 1 }).Answers) : (withByte s k).Answers := by
  obtain ⟨b, hb⟩ := Option.isSome_iff_exists.mp (hs _ hin)
  rw [withByte, hb]
  exact hk b

theorem emit_answers {s : State} (b : Byte) (hs : s.outBound) (hlt : s.outCount < s.outLimit) :
    orOutputNotBound (emit b s) = .next (emitted b s) := by
  rw [emit_of_bound b (hs _ hlt)]
  rfl

/-- After input is taken, OUT still has room and its byte is bound. -/
theorem Takes.emit_answers {n : Nat} {s u : State} (b : Byte) (h : Takes n s u) (hs : s.outBound)
    (hlt : s.outCount < s.outLimit) : orOutputNotBound (emit b u) = .next (emitted b u) :=
  Machine.emit_answers b (h.keeps.outBound hs) (by rwa [h.outCount, h.keeps.outLimit])

theorem execBrRead_answers {n : BitVec 5} {s : State} (hn : n.toNat ≤ 16) (hs : s.inBound) :
    ∃ t, execBrRead n s = .next t := by
  unfold execBrRead
  cases hr : readBits n.toNat s with
  | ok v t => exact ⟨_, rfl⟩
  | short => exact ⟨_, rfl⟩
  | notBound => exact absurd hr (readBits_ne_notBound hn hs)

/-- A latched command runs without a fault (R71). -/
theorem fetchCommand_answers {s : State} (hs : s.UnderWay) (hp : s.phase = .start) : (fetchCommand s).Answers := by
  have hlegal := hs.latched hp
  have hrun : fetchCommand s = .run (decodeCommand (latchedWord s)) s := by rw [fetchCommand, hlegal]
  rw [hrun]
  change ∃ t, exec (decodeCommand (latchedWord s)) s = .next t
  have hop : opField (latchedWord s) = s.curOp := opField_commandWord _ _ _
  rcases decodeCommand_of_legal hlegal with
    ⟨e, -⟩ | ⟨e, -⟩ | ⟨e, -⟩ | ⟨e, -⟩ | ⟨e, -⟩ | ⟨e, ho, -, hmax⟩ | ⟨e, -⟩ | ⟨e, -⟩ | ⟨e, -⟩ | ⟨e, -⟩
  case inr.inr.inr.inr.inr.inl =>
    have huses : usesInput s.curOp = true := by rw [← hop, ho]; rfl
    rw [e]
    exact execBrRead_answers hmax (hs.inBound huses)
  all_goals
    rw [e]
    exact ⟨_, rfl⟩

theorem crcRunStep_answers {s : State} (hs : s.inBound) : ∃ t, crcRunStep s = .next t := by
  unfold crcRunStep
  by_cases hend : s.inLen ≤ s.crcIdx
  · exact ⟨_, if_pos hend⟩
  · obtain ⟨b, hb⟩ := Option.isSome_iff_exists.mp (hs _ (BitVec.not_le.mp hend))
    rw [if_neg hend, hb]
    exact ⟨_, rfl⟩

theorem storeRunStep_answers {s : State} (hs : s.UnderWay) (hd : s.phase.decoding = true) :
    ∃ t, storeRunStep s = .next t := by
  unfold storeRunStep
  by_cases hlimit : s.outCount = s.outLimit
  · exact ⟨_, if_pos hlimit⟩
  rw [if_neg hlimit]
  by_cases hend : s.inLen ≤ s.inPos
  · exact ⟨_, if_pos hend⟩
  have hin := BitVec.not_le.mp hend
  obtain ⟨b, hb⟩ := Option.isSome_iff_exists.mp (hs.inBound_decoding hd _ hin)
  rw [if_neg hend, hb]
  exact ⟨_, (takes_byte hin hs.lookahead s.flagByte s.flagLeft).emit_answers b (hs.outBound_decoding hd)
    (hs.outCount_lt hd hlimit)⟩

theorem copyStep_answers {s : State} (token : Phase) (hs : s.UnderWay) (hd : s.phase.decoding = true) :
    ∃ t, copyStep token s = .next t := by
  unfold copyStep
  by_cases hlimit : s.outCount = s.outLimit
  · exact ⟨_, if_pos hlimit⟩
  · rw [if_neg hlimit, copyByte_of_bound (hs.outBound_decoding hd _ (hs.outCount_lt hd hlimit))]
    exact ⟨_, rfl⟩

/-- The 4 KB token's fields are all bound, and so is the byte of OUT a literal goes to (R110 to R112). -/
theorem fetchLz4_answers {s : State} (hs : s.UnderWay) (hd : s.phase.decoding = true) : (fetchLz4 s).Answers := by
  have hin := hs.inBound_decoding hd
  refine underLimit_answers fun hlimit => withField_answers (by decide) hin fun flag s1 h1 => ?_
  have ht1 := takes_readBits (by decide) hs.lookahead h1
  by_cases hf : flag = 1
  · rw [if_pos hf]
    refine withField_answers (by decide) (ht1.keeps.inBound hin) fun l s2 h2 => ?_
    have ht2 := ht1.trans (takes_readBits (by decide) ht1.lookahead h2)
    exact ⟨_, ht2.emit_answers _ (hs.outBound_decoding hd) (hs.outCount_lt hd hlimit)⟩
  · rw [if_neg hf]
    refine withField_answers (by decide) (ht1.keeps.inBound hin) fun p s2 h2 => ?_
    have ht2 := ht1.trans (takes_readBits (by decide) ht1.lookahead h2)
    exact withField_answers (by decide) (ht2.keeps.inBound hin) fun n s3 _ => ⟨_, rfl⟩

/-- The 8 KB item's bytes are all bound, and so is the byte of OUT a literal goes to (R116 to R118). -/
theorem fetchLz8_answers {s : State} (hs : s.UnderWay) (hd : s.phase.decoding = true) : (fetchLz8 s).Answers := by
  have hin := hs.inBound_decoding hd
  refine underLimit_answers fun hlimit => ?_
  by_cases hflag : s.flagLeft = 0
  · rw [if_pos hflag]
    by_cases hend : s.inLen ≤ s.inPos
    · rw [if_pos hend]
      exact answers_done _
    · rw [if_neg hend]
      exact withByte_answers hin (BitVec.not_le.mp hend) fun f => ⟨_, rfl⟩
  rw [if_neg hflag]
  by_cases hbit : s.flagByte.getLsbD 0 = true
  · rw [if_pos hbit]
    by_cases hend : s.inLen ≤ s.inPos
    · rw [if_pos hend]
      exact answers_done _
    · have hlt := BitVec.not_le.mp hend
      rw [if_neg hend]
      exact withByte_answers (s := useFlag s) hin hlt fun b =>
        ⟨_, (takes_byte hlt hs.lookahead _ _).emit_answers b (hs.outBound_decoding hd) (hs.outCount_lt hd hlimit)⟩
  · rw [if_neg hbit]
    by_cases hend : s.inLen.toNat - s.inPos.toNat < 2
    · rw [if_pos hend]
      exact answers_done _
    · have hfirst : s.inPos < s.inLen := show s.inPos.toNat < s.inLen.toNat by omega
      have hpos := toNat_add_one hfirst
      have hsecond : s.inPos + 1 < s.inLen := show (s.inPos + 1).toNat < s.inLen.toNat by omega
      rw [if_neg hend]
      exact withByte_answers (s := useFlag s) hin hfirst fun b1 =>
        withByte_answers (s := { useFlag s with inPos := s.inPos + 1 }) hin hsecond fun b2 => ⟨_, rfl⟩

/-- Under a running command the engine's turn answers a next state, in every phase. -/
theorem engineTurn_answers {s : State} (hs : s.UnderWay) : (engineTurn s).Answers := by
  unfold engineTurn
  cases hp : s.phase with
  | idle => exact answers_done s
  | start => exact fetchCommand_answers hs hp
  | crcRun =>
    have hop : s.curOp = 0x3#4 := hs.phaseOp _ (by rw [hp]; rfl)
    exact crcRunStep_answers (hs.inBound (by rw [hop]; rfl))
  | storeRun => exact storeRunStep_answers hs (by rw [hp]; rfl)
  | lz4Token => exact fetchLz4_answers hs (by rw [hp]; rfl)
  | lz4Copy => exact copyStep_answers _ hs (by rw [hp]; rfl)
  | lz8Token => exact fetchLz8_answers hs (by rw [hp]; rfl)
  | lz8Copy => exact copyStep_answers _ hs (by rw [hp]; rfl)

end Sys2Proof.Machine
end

section
/-! PROOFS. How many engine steps a running command has left at most, and that each one it takes leaves fewer
(40_control.md R75). -/

namespace Sys2Proof.Machine

/-- A bound on the engine steps a command has left (R75). A step of a decode takes input or emits a byte, so the bits
and the output room left bound those steps; one more is the step that ends the command. -/
def stepsLeft (s : State) : Nat :=
  match s.phase with
  | .idle => 0
  | .start => 2 + 8 * s.inLen.toNat + s.outLimit.toNat
  | .crcRun => 1 + (s.inLen.toNat - s.crcIdx.toNat)
  | .storeRun | .lz4Token | .lz4Copy | .lz8Token | .lz8Copy =>
    1 + availBits s + (s.outLimit.toNat - s.outCount.toNat)

theorem stepsLeft_idle {s : State} (h : s.phase = .idle) : stepsLeft s = 0 := by
  rw [stepsLeft, h]

theorem stepsLeft_start {s : State} (h : s.phase = .start) :
    stepsLeft s = 2 + 8 * s.inLen.toNat + s.outLimit.toNat := by
  rw [stepsLeft, h]

theorem stepsLeft_crcRun {s : State} (h : s.phase = .crcRun) :
    stepsLeft s = 1 + (s.inLen.toNat - s.crcIdx.toNat) := by
  rw [stepsLeft, h]

theorem stepsLeft_decoding {s : State} (h : s.phase.decoding = true) :
    stepsLeft s = 1 + availBits s + (s.outLimit.toNat - s.outCount.toNat) := by
  unfold stepsLeft
  cases hp : s.phase
  case idle | start | crcRun =>
    rw [hp] at h
    cases h
  all_goals rfl

/-- A busy block has a step left. -/
theorem stepsLeft_pos {s : State} (h : s.busy = true) : 0 < stepsLeft s := by
  have hne := (busy_eq_true s).mp h
  unfold stepsLeft
  cases hp : s.phase
  case idle => exact absurd hp hne
  all_goals
    dsimp only
    omega

theorem not_start_of_decoding {p : Phase} (h : p.decoding = true) : p ≠ .start := by
  rintro rfl
  cases h

theorem not_idle_of_decoding {p : Phase} (h : p.decoding = true) : p ≠ .idle := by
  rintro rfl
  cases h

/-- What an engine step under a running command does to it: it keeps the command, leaves fewer steps, and what
`State.UnderWay` asks of the registers still holds; the step that ends the command sets `DONE` (R72). -/
structure Advances (s t : State) : Prop where
  keeps : KeepsCommand s t
  fewer : stepsLeft t < stepsLeft s
  started : t.phase ≠ .start
  phaseOp : ∀ op, opOfPhase t.phase = some op → s.curOp = op
  lookahead : t.brCount.toNat ≤ 7
  outCount : t.phase.decoding = true → t.outCount ≤ t.outLimit
  ended : t.phase = .idle → t.done = true

theorem State.UnderWay.of_advances {s t : State} (hs : s.UnderWay) (h : Advances s t) : t.UnderWay where
  latched hp := absurd hp h.started
  phaseOp op hop := h.keeps.curOp.trans (h.phaseOp op hop)
  lookahead := h.lookahead
  outCount := h.outCount
  inBound huses := h.keeps.inBound (hs.inBound (h.keeps.curOp ▸ huses))
  outBound huses := h.keeps.outBound (hs.outBound (h.keeps.curOp ▸ huses))

/-- A step that ends the command. -/
theorem Advances.of_idle {s t : State} (hb : s.busy = true) (hk : KeepsCommand s t) (hp : t.phase = .idle)
    (hdone : t.done = true) (hl : t.brCount.toNat ≤ 7) : Advances s t where
  keeps := hk
  fewer := by
    rw [stepsLeft_idle hp]
    exact stepsLeft_pos hb
  started := by simp [hp]
  phaseOp op hop := by simp [hp, opOfPhase] at hop
  lookahead := hl
  outCount hd := absurd hp (not_idle_of_decoding hd)
  ended _ := hdone

theorem advances_finish {s u : State} (hb : s.busy = true) (hk : KeepsCommand s u) (hl : u.brCount.toNat ≤ 7) :
    Advances s (finish u) :=
  .of_idle hb ⟨hk.inLen, hk.outLimit, hk.curOp, hk.input, hk.output⟩ rfl rfl hl

theorem advances_finishWith {k : StopKind} {s u : State} (hb : s.busy = true) (hk : KeepsCommand s u)
    (hl : u.brCount.toNat ≤ 7) : Advances s (finishWith k u) :=
  .of_idle hb ⟨hk.inLen, hk.outLimit, hk.curOp, hk.input, hk.output⟩ rfl rfl hl

/-- The input ran out, fields already read staying consumed (R102). -/
theorem Takes.advances_exhaust {n : Nat} {s u : State} (h : Takes n s u) (hb : s.busy = true) :
    Advances s (finishWith .exhaust u) :=
  advances_finishWith hb h.keeps h.lookahead

/-- The START step of a decode: the whole input and all the room for output are left. -/
theorem Advances.of_decodeStart {s t : State} (hp : s.phase = .start) (hk : KeepsCommand s t)
    (hd : t.phase.decoding = true) (hop : opOfPhase t.phase = some s.curOp) (hpos : t.inPos = 0) (hcount : t.brCount = 0)
    (hout : t.outCount = 0) : Advances s t where
  keeps := hk
  fewer := by
    rw [stepsLeft_decoding hd, stepsLeft_start hp, availBits, hpos, hcount, hout, hk.inLen, hk.outLimit]
    simp
  started := not_start_of_decoding hd
  phaseOp op h := Option.some.inj (hop.symm.trans h)
  lookahead := by simp [hcount]
  outCount _ := by
    rw [hout]
    exact Nat.zero_le _
  ended h := absurd h (not_idle_of_decoding hd)

/-- A step within a decode, that takes input or emits a byte. -/
theorem Advances.of_decoding {s t : State} (hs : s.UnderWay) (hd : s.phase.decoding = true) (hk : KeepsCommand s t)
    (htd : t.phase.decoding = true) (hop : opOfPhase t.phase = opOfPhase s.phase) (hl : t.brCount.toNat ≤ 7)
    (hout : t.outCount ≤ t.outLimit)
    (hless : availBits t + (t.outLimit.toNat - t.outCount.toNat) < availBits s + (s.outLimit.toNat - s.outCount.toNat)) :
    Advances s t where
  keeps := hk
  fewer := by
    rw [stepsLeft_decoding htd, stepsLeft_decoding hd]
    omega
  started := not_start_of_decoding htd
  phaseOp op h := hs.phaseOp op (hop ▸ h)
  lookahead := hl
  outCount _ := hout
  ended h := absurd h (not_idle_of_decoding htd)

/-- A step that emits a byte, after whatever input it took (R99). -/
theorem Advances.of_byte {s t : State} (hs : s.UnderWay) (hd : s.phase.decoding = true) (hne : s.outCount ≠ s.outLimit)
    (hk : KeepsCommand s t) (htd : t.phase.decoding = true) (hop : opOfPhase t.phase = opOfPhase s.phase)
    (hl : t.brCount.toNat ≤ 7) (havail : availBits t ≤ availBits s) (hcount : t.outCount = s.outCount + 1) :
    Advances s t := by
  have hlt : s.outCount.toNat < s.outLimit.toNat := hs.outCount_lt hd hne
  have hnext : t.outCount.toNat = s.outCount.toNat + 1 := by rw [hcount, toNat_add_one (hs.outCount_lt hd hne)]
  have hlimit := hk.outLimit
  refine .of_decoding hs hd hk htd hop hl ?_ ?_
  · show t.outCount.toNat ≤ t.outLimit.toNat
    rw [hlimit]
    omega
  · rw [hlimit]
    omega

/-- A literal: input is taken and the byte emitted (R106, R111, R117). -/
theorem Takes.advances_emitted {n : Nat} {s u : State} (h : Takes n s u) (b : Byte) (hs : s.UnderWay)
    (hd : s.phase.decoding = true) (hne : s.outCount ≠ s.outLimit) : Advances s (emitted b u) := by
  have hp : (emitted b u).phase = s.phase := h.phase
  have hcount : (emitted b u).outCount = s.outCount + 1 := congrArg (· + 1) h.outCount
  have havail : availBits (emitted b u) + n = availBits s := h.avail
  exact .of_byte hs hd hne (h.keeps.trans (keepsCommand_emitted b u)) (hp ▸ hd) (hp ▸ rfl) h.lookahead (by omega) hcount

/-- A byte of a match, with the phase going back to the token or staying (R100, R113, R119). -/
theorem advances_copied {s : State} {p : Phase} (hs : s.UnderWay) (hd : s.phase.decoding = true)
    (hne : s.outCount ≠ s.outLimit) (hpd : p.decoding = true) (hop : opOfPhase p = opOfPhase s.phase) :
    Advances s { copied s with phase := p } := by
  obtain ⟨hlen, hlimit, hcur, hin, hout⟩ := keepsCommand_emitted (dictByte s s.matchSrc) s
  exact .of_byte hs hd hne ⟨hlen, hlimit, hcur, hin, hout⟩ hpd hop hs.lookahead (Nat.le_refl _) rfl

/-- A flag byte or a match token: input is taken and nothing emitted (R112, R116, R118). -/
theorem Takes.advances {n : Nat} {s u t : State} (h : Takes n s u) (hn : 0 < n) (hs : s.UnderWay)
    (hd : s.phase.decoding = true) (hpd : t.phase.decoding = true) (hop : opOfPhase t.phase = opOfPhase s.phase)
    (ht : t = { u with matchSrc := t.matchSrc, matchRem := t.matchRem, phase := t.phase }) : Advances s t := by
  have hlen : t.inLen = u.inLen := by rw [ht]
  have hlimit : t.outLimit = u.outLimit := by rw [ht]
  have hcount : t.outCount = s.outCount := by rw [ht, ← h.outCount]
  have hheld : t.brCount = u.brCount := by rw [ht]
  have havail : availBits t = availBits u := by rw [ht]; rfl
  have hk : KeepsCommand s t :=
    h.keeps.trans (.of_sameMemories hlen hlimit (by rw [ht]) (by rw [ht]) (by rw [ht]))
  have htaken := h.avail
  have hout : s.outCount.toNat ≤ s.outLimit.toNat := hs.outCount hd
  refine .of_decoding hs hd hk hpd hop (hheld ▸ h.lookahead) ?_ ?_
  · rw [hcount, hk.outLimit]
    exact hs.outCount hd
  · rw [hcount, hk.outLimit]
    omega

/-- Every engine step of a running command advances it, whatever the phase (R75). -/
theorem EngineStep.advances {s t : State} (h : EngineStep s t) (hs : s.UnderWay) (hb : s.busy = true) :
    Advances s t := by
  have hl := hs.lookahead
  have hsame : KeepsCommand s s := .of_sameMemories rfl rfl rfl rfl rfl
  cases h with
  | idle hp => exact absurd hp ((busy_eq_true s).mp hb)
  | nop => exact advances_finish hb hsame hl
  | crcInit => exact advances_finish hb (.of_sameMemories rfl rfl rfl rfl rfl) hl
  | crcByte => exact advances_finish hb (.of_sameMemories rfl rfl rfl rfl rfl) hl
  | crcBuf hp ho =>
    refine ⟨.of_sameMemories rfl rfl rfl rfl rfl, ?_, nofun, fun op hop => ?_, hl, nofun, nofun⟩
    · rw [stepsLeft_crcRun rfl, stepsLeft_start hp]
      simp
      omega
    · exact ho.trans (Option.some.inj hop)
  | brInit => exact advances_finish hb (.of_sameMemories rfl rfl rfl rfl rfl) (Nat.zero_le 7)
  | brRead hp ho h1 h16 v u hr =>
    have htaken := takes_readBits h16 hl hr
    exact advances_finish hb (htaken.keeps.trans (.of_sameMemories rfl rfl rfl rfl rfl)) htaken.lookahead
  | brShort => exact advances_finish hb (.of_sameMemories rfl rfl rfl rfl rfl) hl
  | decStore hp ho =>
    exact .of_decodeStart hp (.of_sameMemories rfl rfl rfl rfl rfl) rfl (congrArg some ho.symm) rfl rfl rfl
  | decLz4k hp ho =>
    exact .of_decodeStart hp (.of_sameMemories rfl rfl rfl rfl rfl) rfl (congrArg some ho.symm) rfl rfl rfl
  | decLz8k hp ho =>
    exact .of_decodeStart hp (.of_sameMemories rfl rfl rfl rfl rfl) rfl (congrArg some ho.symm) rfl rfl rfl
  | decEmpty => exact advances_finishWith hb (.of_sameMemories rfl rfl rfl rfl rfl) (Nat.zero_le 7)
  | crcEnd => exact advances_finish hb hsame hl
  | crcRun hp hlt b hbyte =>
    refine ⟨.of_sameMemories rfl rfl rfl rfl rfl, ?_, ?_, hs.phaseOp, hl, hs.outCount, fun hi => ?_⟩
    · have hleft : s.crcIdx.toNat < s.inLen.toNat := hlt
      have hnext : stepsLeft { s with crcAcc := crcStep s.crcAcc b, crcIdx := s.crcIdx + 1 }
          = 1 + (s.inLen.toNat - (s.crcIdx + 1).toNat) := stepsLeft_crcRun hp
      rw [hnext, stepsLeft_crcRun hp, toNat_add_one hlt]
      omega
    · simp [hp]
    · exact absurd hi ((busy_eq_true s).mp hb)
  | limit => exact advances_finishWith hb hsame hl
  | storeEnd => exact advances_finishWith hb hsame hl
  | storeRun hp ho hin b =>
    exact (takes_byte hin hl s.flagByte s.flagLeft).advances_emitted b hs (by rw [hp]; rfl) ho
  | lz4NoFlag => exact advances_finishWith hb hsame hl
  | lz4NoLiteral hp ho s1 h1 => exact (takes_readBits (by decide) hl h1).advances_exhaust hb
  | lz4Literal hp ho s1 s2 l h1 h2 =>
    have ht1 := takes_readBits (by decide) hl h1
    have ht2 := ht1.trans (takes_readBits (by decide) ht1.lookahead h2)
    exact ht2.advances_emitted _ hs (by rw [hp]; rfl) ho
  | lz4NoPosition hp ho f s1 h1 => exact (takes_readBits (by decide) hl h1).advances_exhaust hb
  | lz4NoLength hp ho f p s1 s2 h1 hf h2 =>
    have ht1 := takes_readBits (by decide) hl h1
    exact (ht1.trans (takes_readBits (by decide) ht1.lookahead h2)).advances_exhaust hb
  | lz4Match hp ho f p n s1 s2 s3 h1 hf h2 h3 =>
    have ht1 := takes_readBits (by decide) hl h1
    have ht2 := ht1.trans (takes_readBits (by decide) ht1.lookahead h2)
    have ht3 := ht2.trans (takes_readBits (by decide) ht2.lookahead h3)
    exact ht3.advances (by decide) hs (by rw [hp]; rfl) rfl (by rw [hp]; rfl) rfl
  | copy hp ho =>
    have hd : s.phase.decoding = true := by
      revert hp
      cases s.phase <;> decide
    exact advances_copied hs hd ho hd rfl
  | lz4CopyEnd hp ho => exact advances_copied hs (by rw [hp]; rfl) ho rfl (by rw [hp]; rfl)
  | lz8CopyEnd hp ho => exact advances_copied hs (by rw [hp]; rfl) ho rfl (by rw [hp]; rfl)
  | lz8NoFlag => exact advances_finishWith hb hsame hl
  | lz8Flag hp ho hf hin f =>
    exact (takes_byte hin hl f 8).advances (by decide) hs (by rw [hp]; rfl) (by rw [hp]; rfl) rfl rfl
  | lz8NoLiteral => exact advances_finishWith hb (.of_sameMemories rfl rfl rfl rfl rfl) hl
  | lz8Literal hp ho hf hbit hin b =>
    exact (takes_byte hin hl _ _).advances_emitted b hs (by rw [hp]; rfl) ho
  | lz8NoMatch => exact advances_finishWith hb (.of_sameMemories rfl rfl rfl rfl rfl) hl
  | lz8Match hp ho hf hbit hin b1 b2 =>
    exact (takes_twoBytes hin hl (s.flagByte >>> 1) (s.flagLeft - 1)).advances (by decide) hs (by rw [hp]; rfl) rfl
      (by rw [hp]; rfl) rfl

end Sys2Proof.Machine
end

section
/-! PROOFS. What the host may do to a running command: an allowed access is answered, and leaves the command and the steps
it has left alone (70_reset_and_hazards.md R144 c, d). -/

namespace Sys2Proof.Machine

/-- From `s` to `t` the host acted on a running command: the block changed only where `State.withHostOf` says and in
`DONE`, and the command's own registers and bound bytes stay. -/
structure HostActed (s t : State) : Prop where
  block : t = { s.withHostOf t with done := t.done }
  keeps : KeepsCommand s t

/-- A host access to a running command acts on it in that way only (R65 to R68, R44). -/
theorem HostStep.hostActed {s t : State} (h : HostStep s t) (hb : s.busy = true) : HostActed s t := by
  cases h with
  | illegalCommand hidle | overLimit hidle | accepted hidle | inLen hidle | outLimit hidle | crcAcc hidle
  | bindIn hidle | bindOut hidle =>
    rw [hidle] at hb
    cases hb
  | writeIn i b => exact ⟨rfl, rfl, rfl, rfl, fun _ h => Mem.isSome_lookup_set _ _ h, fun _ h => h⟩
  | writeOut i b => exact ⟨rfl, rfl, rfl, rfl, fun _ h => h, fun _ h => Mem.isSome_lookup_set _ _ h⟩
  | _ => exact ⟨rfl, .of_sameMemories rfl rfl rfl rfl rfl⟩

/-- Reading `STATUS` in the wait loop acts on the schedule and the value read only. -/
theorem hostActed_waitTurn (rest : List Turn) (s : State) : HostActed s (waitTurn rest s) := by
  rw [waitTurn_frame]
  exact ⟨rfl, .of_sameMemories rfl rfl rfl rfl rfl⟩

theorem HostActed.latchedWord {s t : State} (h : HostActed s t) : latchedWord t = latchedWord s := by
  have hn : t.curN = s.curN := by rw [h.block]; rfl
  have hdata : t.curData = s.curData := by rw [h.block]; rfl
  rw [Machine.latchedWord, Machine.latchedWord, h.keeps.curOp, hn, hdata]

theorem HostActed.phase {s t : State} (h : HostActed s t) : t.phase = s.phase := by rw [h.block]; rfl

theorem HostActed.stepsLeft {s t : State} (h : HostActed s t) : stepsLeft t = stepsLeft s := by rw [h.block]; rfl

theorem HostActed.underWay {s t : State} (h : HostActed s t) (hs : s.UnderWay) : t.UnderWay where
  latched hp := by
    rw [h.latchedWord]
    exact hs.latched (h.phase ▸ hp)
  phaseOp op hop := h.keeps.curOp.trans (hs.phaseOp op (h.phase ▸ hop))
  lookahead := by
    rw [h.block]
    exact hs.lookahead
  outCount hd := by
    rw [h.block]
    exact hs.outCount (h.phase ▸ hd)
  inBound huses := h.keeps.inBound (hs.inBound (h.keeps.curOp ▸ huses))
  outBound huses := h.keeps.outBound (hs.outBound (h.keeps.curOp ▸ huses))

/-- An allowed access to a busy block is answered: it breaks no duty and is no form the model refuses. -/
theorem hostTurn_answers {s : State} {op : HostOp} (hb : s.busy = true) (h : Turn.allowed s (.host op) = true) :
    (hostTurn op s).Answers := by
  cases op with
  | regRead width addr =>
    change ∃ t, hostRegRead width addr s = .next t
    cases hoff : accessOffset width addr s with
    | error r => simp [Turn.allowed, hoff] at h
    | ok off => exact ⟨_, by rw [hostRegRead, hoff]⟩
  | regWrite width addr w =>
    change (hostRegWrite width addr w s).Answers
    cases hoff : accessOffset width addr s with
    | error r => simp [Turn.allowed, hoff] at h
    | ok off =>
      simp only [hostRegWrite, hoff, commandTurn_busy hb]
      by_cases hcmd : off = Reg.offset .cmd
      · rw [if_pos hcmd]
        exact answers_done _
      · rw [if_neg hcmd]
        exact answers_done _
  | bindIn base bytes => cases h
  | bindOut base bytes => cases h
  | readIn i =>
    obtain ⟨b, hbyte⟩ := Option.isSome_iff_exists.mp h
    exact ⟨_, by rw [hostTurn, hbyte]; rfl⟩
  | readOut i =>
    obtain ⟨b, hbyte⟩ := Option.isSome_iff_exists.mp h
    exact ⟨_, by rw [hostTurn, hbyte]; rfl⟩
  | writeIn i b =>
    simp only [Turn.allowed, Bool.and_eq_true, decide_eq_true_eq] at h
    obtain ⟨hduty, hbound⟩ := h
    obtain ⟨x, hx⟩ := Option.isSome_iff_exists.mp hbound
    change ∃ t, hostWriteIn i b s = .next t
    rw [hostWriteIn, if_neg fun hbreach => absurd hbreach.2 (BitVec.not_lt.mpr hduty), hx]
    exact ⟨_, rfl⟩
  | writeOut i b =>
    simp only [Turn.allowed, Bool.and_eq_true, decide_eq_true_eq] at h
    obtain ⟨hduty, hbound⟩ := h
    change ∃ t, hostWriteOut i b s = .next t
    rw [hostWriteOut, if_neg fun hbreach => absurd hbreach.2 (BitVec.not_lt.mpr hduty), setOut_of_bound b hbound]
    exact ⟨_, rfl⟩

end Sys2Proof.Machine
end

section
/-! PROOFS. Every launched command ends (40_control.md R75): runs of turns, one turn of a running command, the launch, and
the induction over the turns looked at. -/

namespace Sys2Proof.Machine

theorem stepN_succ {s t : State} (h : step s = .next t) (k : Nat) : stepN (k + 1) s = stepN k t := by
  rw [stepN, h]

theorem engineTurns_succ {s t : State} (h : step s = .next t) (k : Nat) :
    engineTurns (k + 1) s = (if s.turn = .engine then 1 else 0) + engineTurns k t := by
  rw [engineTurns, h]

/-- While the command runs its next turn is an allowed one, and the turns after it are (R144 c). -/
theorem undisturbed_succ {s : State} {k : Nat} (hb : s.busy = true) (h : State.undisturbed (k + 1) s = true) :
    s.turn.allowed s = true ∧ ∀ t, step s = .next t → State.undisturbed k t = true := by
  simp only [State.undisturbed, hb, Bool.not_true, Bool.false_or, Bool.and_eq_true] at h
  obtain ⟨hallowed, hrest⟩ := h
  refine ⟨hallowed, fun t ht => ?_⟩
  rwa [ht] at hrest

/-- Which turns are allowed does not depend on the turns to come. -/
theorem allowed_withSched (s : State) (rest : List Turn) (turn : Turn) :
    Turn.allowed { s with sched := rest } turn = Turn.allowed s turn := by
  cases turn with
  | host op => cases op <;> rfl
  | _ => rfl

theorem State.UnderWay.withSched {s : State} (hs : s.UnderWay) (rest : List Turn) :
    ({ s with sched := rest } : State).UnderWay :=
  ⟨hs.latched, hs.phaseOp, hs.lookahead, hs.outCount, hs.inBound, hs.outBound⟩

/-- What one turn leaves of a running command: it is still under way or has ended with `DONE` set, and an engine turn has
used up one of the steps left. -/
structure TurnTaken (s t : State) : Prop where
  underWay : t.UnderWay
  ended : t.phase = .idle → t.done = true
  fewer : (if s.turn = .engine then 1 else 0) + stepsLeft t ≤ stepsLeft s

/-- An engine turn is answered and advances the command. -/
theorem turnTaken_engine {s : State} {rest : List Turn} (hs : s.UnderWay) (hb : s.busy = true)
    (hstep : step s = runTurn (engineTurn { s with sched := rest })) : ∃ t, step s = .next t ∧ TurnTaken s t := by
  have hs' := hs.withSched rest
  obtain ⟨t, ht⟩ := engineTurn_answers hs'
  have hadv := (engineTurn_next ht).advances hs' hb
  have hfewer : stepsLeft t < stepsLeft s := hadv.fewer
  refine ⟨t, hstep.trans ht, hs'.of_advances hadv, hadv.ended, ?_⟩
  split <;> omega

/-- A turn in which the host acted leaves the command where it was. -/
theorem turnTaken_host {s t : State} {rest : List Turn} (hs : s.UnderWay) (hb : s.busy = true)
    (hturn : s.turn ≠ .engine) (h : HostActed { s with sched := rest } t) : TurnTaken s t where
  underWay := h.underWay (hs.withSched rest)
  ended hp := absurd (h.phase ▸ hp) ((busy_eq_true s).mp hb)
  fewer := by
    have hsteps : stepsLeft t = stepsLeft s := h.stepsLeft
    rw [if_neg hturn, hsteps, Nat.zero_add]

/-- An allowed turn of a running command is answered, whoever takes it. -/
theorem step_takes_turn {s : State} (hs : s.UnderWay) (hb : s.busy = true) (hallowed : s.turn.allowed s = true) :
    ∃ t, step s = .next t ∧ TurnTaken s t := by
  cases hsched : s.sched with
  | nil =>
    refine turnTaken_engine (rest := s.sched) hs hb ?_
    exact step_of_nil hsched
  | cons turn rest =>
    have hturn : s.turn = turn := by rw [State.turn, hsched]; rfl
    rw [hturn] at hallowed
    cases turn with
    | engine => exact turnTaken_engine hs hb (step_of_engine hsched)
    | host op =>
      have hstep := step_of_host hsched
      rw [← allowed_withSched s rest] at hallowed
      obtain ⟨t, ht⟩ := hostTurn_answers (s := { s with sched := rest }) hb hallowed
      exact ⟨t, hstep.trans ht, turnTaken_host hs hb (by simp [hturn]) ((hostTurn_next ht).hostActed hb)⟩
    | wait =>
      refine ⟨_, step_of_wait hsched, turnTaken_host (rest := s.sched) hs hb (by simp [hturn]) ?_⟩
      exact hostActed_waitTurn rest s
    | reset => cases hallowed

/-- A running command, undisturbed, ends within the steps it has left, if the turns looked at hold as many of the
engine's. -/
theorem ends_of_underWay {k : Nat} {s : State} (hs : s.UnderWay) (hidle : s.phase = .idle → s.done = true)
    (hundisturbed : State.undisturbed k s = true) (hturns : stepsLeft s ≤ engineTurns k s) :
    ∃ j t, j ≤ k ∧ stepN j s = .next t ∧ engineTurns j s ≤ stepsLeft s ∧ t.phase = .idle ∧ t.done = true := by
  induction k generalizing s with
  | zero =>
    have hp : s.phase = .idle := by
      rw [← busy_eq_false, ← Bool.not_eq_true]
      intro hb
      have hpos := stepsLeft_pos hb
      simp only [engineTurns] at hturns
      omega
    exact ⟨0, s, Nat.le_refl 0, rfl, Nat.zero_le _, hp, hidle hp⟩
  | succ k ih =>
    by_cases hb : s.busy = true
    · obtain ⟨hallowed, hrest⟩ := undisturbed_succ hb hundisturbed
      obtain ⟨t, hstep, ht⟩ := step_takes_turn hs hb hallowed
      have hfewer := ht.fewer
      rw [engineTurns_succ hstep] at hturns
      obtain ⟨j, u, hj, hrun, hcount, hend⟩ := ih ht.underWay ht.ended (hrest t hstep) (by omega)
      refine ⟨j + 1, u, by omega, (stepN_succ hstep j).trans hrun, ?_, hend⟩
      rw [engineTurns_succ hstep]
      omega
    · have hp := (busy_eq_false s).mp (Bool.not_eq_true _ ▸ hb)
      exact ⟨0, s, Nat.zero_le _, rfl, Nat.zero_le _, hp, hidle hp⟩

/-- The host's next turn, put back in front of the turns after it. -/
theorem withTurn_popped_host {s : State} {op : HostOp} (h : s.turn = .host op) : s.popped.withTurn (.host op) = s := by
  have hsched : .host op :: s.sched.tail = s.sched := by
    rw [State.turn] at h
    cases hs : s.sched with
    | nil => simp [hs] at h
    | cons turn rest =>
      rw [hs, List.headD_cons] at h
      rw [h, List.tail_cons]
  rw [State.withTurn, State.popped, hsched]

/-- The turn in which a launched command is issued accepts it (R67, R143 step 2). -/
theorem step_of_launched {s : State} {w : Word} {k : Nat} (h : s.Launched w k) (hmem : s.memWf = true) :
    step s = .next (accept w s.popped) := by
  have hlimit : ¬ (boundedCommand w = true ∧ s.popped.cfg.maxOut < s.popped.outLimit.toNat) :=
    fun ⟨hbounded, hover⟩ => Nat.not_lt.mpr (h.limit hbounded) hover
  have hissue : issueFault w s.popped = none := issueFault_of_bound (s := s.popped) hmem h.inBound h.outBound
  have hidle : s.popped.busy = false := h.idle
  have haccept : commandTurn w s.popped = .done (.next (accept w s.popped)) := by
    rw [commandTurn, hidle, h.legal, hissue]
    simp [hlimit]
  have hwriting : s.popped.writing (Reg.offset .cmd) w = s := withTurn_popped_host h.issued
  have hstep := step_writing_cmd s.popped w
  rw [hwriting, haccept] at hstep
  exact hstep

/-- An accepted command is under way, with the steps of R75 left. -/
theorem underWay_accept {s : State} {w : Word} {k : Nat} (h : s.Launched w k) (hlook : s.brCount.toNat ≤ 7) :
    (accept w s.popped).UnderWay where
  latched _ := by
    rw [latchedWord_accept h.legal]
    exact h.legal
  phaseOp _ hop := by cases hop
  lookahead := hlook
  outCount hd := by cases hd
  inBound := h.inBound
  outBound := h.outBound

/-- Settles O42: the write is accepted and is no engine turn; from there `stepsLeft` is R75's bound, and every engine turn
brings it down. -/
theorem everyLaunchedCommandEnds : Obligations.EveryLaunchedCommandEnds := by
  unfold Obligations.EveryLaunchedCommandEnds
  intro s w k hlaunch hinv hturns
  have hstep := step_of_launched hlaunch hinv.memories
  have hsteps : stepsLeft (accept w s.popped) = 2 + 8 * s.inLen.toNat + s.outLimit.toNat := stepsLeft_start rfl
  have hcount (n : Nat) : engineTurns (n + 1) s = engineTurns n (accept w s.popped) := by
    rw [engineTurns_succ hstep, hlaunch.issued]
    simp
  rw [hcount, ← hsteps] at hturns
  obtain ⟨j, t, hj, hrun, hbound, hidle, hdone⟩ :=
    ends_of_underWay (underWay_accept hlaunch hinv.lookahead) nofun hlaunch.undisturbed hturns
  exact ⟨j, t, hj, (stepN_succ hstep j).trans hrun, by rwa [hcount, ← hsteps], hidle, hdone⟩

end Sys2Proof.Machine
end

section
/-! PROOFS. The CRC-16 generator (41_crc.md R81 to R86): a shift is linear over XOR and only moves an accumulator whose
leaving bits are 0; the laws of R84 follow. -/

namespace Sys2Proof.Machine

/-! ## Linearity -/

theorem crcShift_xor (x y : Half) : crcShift (x ^^^ y) = crcShift x ^^^ crcShift y := by
  simp only [crcShift, BitVec.getLsbD_xor, BitVec.shiftLeft_xor_distrib]
  cases x.getLsbD 15 <;> cases y.getLsbD 15
  case false.false => rfl
  case false.true => exact BitVec.xor_assoc _ _ _
  case true.false =>
    change x <<< 1 ^^^ y <<< 1 ^^^ 0x1021#16 = (x <<< 1 ^^^ 0x1021#16) ^^^ y <<< 1
    ac_rfl
  case true.true =>
    calc x <<< 1 ^^^ y <<< 1
      _ = x <<< 1 ^^^ y <<< 1 ^^^ (0x1021#16 ^^^ 0x1021#16) := by rw [BitVec.xor_self, BitVec.xor_zero]
      _ = (x <<< 1 ^^^ 0x1021#16) ^^^ (y <<< 1 ^^^ 0x1021#16) := by ac_rfl

theorem crcShifts_xor (k : Nat) (x y : Half) : crcShifts k (x ^^^ y) = crcShifts k x ^^^ crcShifts k y := by
  induction k generalizing x y with
  | zero => rfl
  | succ k ih => simp only [crcShifts, crcShift_xor, ih]

/-- R84 item 2. -/
theorem crcStep_xor (x y : Half) (b c : Byte) : crcStep (x ^^^ y) (b ^^^ c) = crcStep x b ^^^ crcStep y c := by
  have hsplit : x ^^^ y ^^^ (b ^^^ c).setWidth 16 <<< 8
      = (x ^^^ b.setWidth 16 <<< 8) ^^^ (y ^^^ c.setWidth 16 <<< 8) := by
    rw [BitVec.setWidth_xor, BitVec.shiftLeft_xor_distrib]
    ac_rfl
  rw [crcStep, hsplit, crcShifts_xor]
  rfl

/-! ## Residue -/

/-- A 0 leaving bit 15 brings no polynomial in. -/
theorem crcShift_of_lt {x : Half} (h : x.toNat < 2 ^ 15) : crcShift x = x <<< 1 := by
  have hbit : x.getLsbD 15 = false := Nat.testBit_lt_two_pow h
  rw [crcShift, hbit, if_neg Bool.false_ne_true]

/-- An accumulator whose bits all stay inside is only moved. -/
theorem crcShifts_of_lt {k : Nat} {x : Half} (h : x.toNat * 2 ^ k < 2 ^ 16) : crcShifts k x = x <<< k := by
  induction k generalizing x with
  | zero => exact (BitVec.shiftLeft_zero x).symm
  | succ k ih =>
    have hlt : x.toNat * 2 * 2 ^ k < 2 ^ 16 := by rwa [Nat.mul_assoc, ← Nat.pow_succ']
    have hdouble : x.toNat * 2 < 2 ^ 16 := Nat.lt_of_le_of_lt (Nat.le_mul_of_pos_right _ (Nat.two_pow_pos k)) hlt
    have hshift : (x <<< 1).toNat = x.toNat * 2 := by
      rw [BitVec.toNat_shiftLeft, Nat.shiftLeft_eq, Nat.pow_one, Nat.mod_eq_of_lt hdouble]
    rw [crcShifts, crcShift_of_lt (by omega), ih (by rwa [hshift]), ← BitVec.shiftLeft_add, Nat.add_comm]

theorem crcShifts_eight_setWidth (b : Byte) : crcShifts 8 (b.setWidth 16) = b.setWidth 16 <<< 8 := by
  apply crcShifts_of_lt
  rw [BitVec.toNat_setWidth]
  have := b.isLt
  omega

/-- The high byte, XORed into the accumulator it comes from, leaves the low byte. -/
theorem xor_highByte (x : Half) :
    x ^^^ (x.extractLsb' 8 8).setWidth 16 <<< 8 = (x.extractLsb' 0 8).setWidth 16 := by
  apply BitVec.eq_of_getLsbD_eq
  intro i hi
  by_cases hlow : i < 8
  · simp [hlow, hi]
  · have hhigh : i - 8 < 8 := by omega
    have hback : 8 + (i - 8) = i := by omega
    simp [hlow, hi, hhigh, hback]

/-- Its own high byte brings the low byte of the accumulator to the top. -/
theorem crcStep_highByte (x : Half) : crcStep x (x.extractLsb' 8 8) = (x.extractLsb' 0 8).setWidth 16 <<< 8 := by
  rw [crcStep, xor_highByte, crcShifts_eight_setWidth]

/-- A byte at the top of the accumulator is cancelled by that byte. -/
theorem crcStep_topByte (b : Byte) : crcStep (b.setWidth 16 <<< 8) b = 0x0000 := by
  rw [crcStep, BitVec.xor_self]
  decide

/-- R84 item 3, from any accumulator. -/
theorem crcFold_ownBytes (x : Half) : crcFold x [x.extractLsb' 8 8, x.extractLsb' 0 8] = 0x0000 := by
  change crcStep (crcStep x _) _ = _
  rw [crcStep_highByte, crcStep_topByte]

/-! ## Folding -/

/-- R84 item 1. -/
theorem crcFold_crc16 (a b : List Byte) : crcFold (crc16 a) b = crc16 (a ++ b) :=
  List.foldl_append.symm

/-- Settles O37: chaining is that of the fold, linearity and the residue are those of the shifts. -/
theorem crcLaws : Obligations.CrcLaws := by
  unfold Obligations.CrcLaws
  refine ⟨crcFold_crc16, crcStep_xor, fun a => ?_, fun _ => rfl, by decide⟩
  rw [← crcFold_crc16, crcFold_ownBytes]

/-! ## The two commands of one step -/

/-- R85: the accumulator is cleared and the command finishes. -/
theorem exec_crcInit (s : State) : exec .crcInit s = .next (finish { s with crcAcc := 0x0000 }) := rfl

/-- R86: one byte is folded in and the command finishes. -/
theorem exec_crcByte (d : Byte) (s : State) :
    exec (.crcByte d) s = .next (finish { s with crcAcc := crcStep s.crcAcc d }) := rfl

/-- Settles O21: both commands are one update and `finish`; the values are the rules' own. -/
theorem crcInitAndByteWriteTheAccumulator : Obligations.CrcInitAndByteWriteTheAccumulator := by
  unfold Obligations.CrcInitAndByteWriteTheAccumulator
  have hword : decodeCommand 0x00410002 = .crcByte 0x41 := decodeCommand_crcByte 0x41
  refine ⟨fun s => ⟨exec_crcInit s, fun d => exec_crcByte d s⟩, ⟨_, exec_crcInit _, by decide, by decide⟩, ?_⟩
  exact ⟨by decide, by decide, by decide, hword, by decide⟩

end Sys2Proof.Machine
end

section
/-! PROOFS. The bit extractor's commands (42_bit_extractor.md R94). -/

namespace Sys2Proof.Machine

/-- R94: the bit cursor is cleared and the command finishes. -/
theorem exec_brInit (s : State) : exec .brInit s = .next (finish { s with inPos := 0, brBuf := 0, brCount := 0 }) := rfl

/-- Settles O23: one update of the bit cursor and `finish`, in every state. -/
theorem brInitResetsTheCursor : Obligations.BrInitResetsTheCursor := by
  unfold Obligations.BrInitResetsTheCursor
  intro s
  rw [exec_brInit, finish]

end Sys2Proof.Machine
end

section
/-! PROOFS. The output bound of a decode is tested before anything else (43_decode_common.md R101). -/

namespace Sys2Proof.Machine

theorem underLimit_at_limit {s : State} (h : s.outCount = s.outLimit) (f : Fetched) :
    underLimit s f = .done (.next (finishWith .limit s)) := if_pos h

theorem storeRunStep_at_limit {s : State} (h : s.outCount = s.outLimit) :
    storeRunStep s = .next (finishWith .limit s) := if_pos h

theorem copyStep_at_limit {s : State} (h : s.outCount = s.outLimit) (token : Phase) :
    copyStep token s = .next (finishWith .limit s) := if_pos h

/-- At the output limit the engine's turn of every decode phase only ends the decode LIMIT (R101). -/
theorem engineTurn_at_limit {s : State} (hd : s.phase.decoding = true) (h : s.outCount = s.outLimit) :
    engineTurn s = .done (.next (finishWith .limit s)) := by
  unfold engineTurn
  cases hp : s.phase with
  | idle | start | crcRun =>
    rw [hp] at hd
    cases hd
  | storeRun => exact congrArg Fetched.done (storeRunStep_at_limit h)
  | lz4Token | lz8Token => exact underLimit_at_limit h _
  | lz4Copy | lz8Copy => exact congrArg Fetched.done (copyStep_at_limit h _)

/-- Settles O33: the five phases are the decode phases, and at the limit the turn of each is `finish(LIMIT)`. -/
theorem outputBoundIsTestedFirst : Obligations.OutputBoundIsTestedFirst := by
  unfold Obligations.OutputBoundIsTestedFirst
  intro s hphase hlimit
  have hd : s.phase.decoding = true := by
    obtain hp | hp | hp | hp | hp := hphase <;> rw [hp] <;> rfl
  rw [step_withTurn_engine, engineTurn_at_limit hd hlimit, runTurn, finishWith]

end Sys2Proof.Machine
end

section
/-! PROOFS. A decode over the output limit is refused (43_decode_common.md R96, 60_exceptions.md R124). -/

namespace Sys2Proof.Machine

/-- While idle a legal command that `OUT_LIMIT` bounds is refused when the limit exceeds `MAX_OUT` (R67, R96). -/
theorem commandTurn_over_limit {s : State} {w : Word} (hidle : s.busy = false) (hlegal : legal w = true)
    (hbounded : boundedCommand w = true) (hover : s.cfg.maxOut < s.outLimit.toNat) :
    commandTurn w s = .done (.next (refuseLimit s)) := by
  simp [commandTurn, hidle, hlegal, hbounded, hover]

/-- Settles O15: the three words are legal and bounded, so the write to `CMD` is refused over the limit. -/
theorem decodeOverTheLimitIsRefused : Obligations.DecodeOverTheLimitIsRefused := by
  unfold Obligations.DecodeOverTheLimitIsRefused
  intro s w hidle hword hover
  have hkind : legal w = true ∧ boundedCommand w = true := by
    obtain rfl | rfl | rfl := hword <;> decide
  obtain ⟨hlegal, hbounded⟩ := hkind
  have hstep : step (s.writing 0x00 w) = runTurn (commandTurn w s) := step_writing_cmd s w
  rw [hstep, commandTurn_over_limit hidle hlegal hbounded hover]
  rfl

end Sys2Proof.Machine
end

section
/-! PROOFS. The platform's reset, in every state (70_reset_and_hazards.md R140 to R142). -/

namespace Sys2Proof.Machine

theorem step_withTurn_reset (s : State) : step (s.withTurn .reset) = .next (platformReset s) :=
  step_of_reset rfl

/-- R141, the table's registers: no register shows what a reset keeps, so each reads as in the reset state. -/
theorem readReg_platformReset (s : State) (r : Reg) : readReg (platformReset s) r = 0 := by
  have hreset : readReg (platformReset s) r = readReg State.reset r := by cases r <;> rfl
  rw [hreset]
  cases r <;> decide

/-- Every offset of the window reads 0 after a reset: a reserved one always does (R25). -/
theorem readOffset_platformReset (off : Nat) (s : State) : readOffset off (platformReset s) = 0 := by
  rw [readOffset]
  cases regAt off with
  | none => rfl
  | some r => exact readReg_platformReset s r

/-- Settles O54: the turn is `platformReset`, whose registers all read 0; the other fields named are those of the reset
state, and `IN` and `OUT` are those of `s`. -/
theorem platformResetLeavesTheResetValues : Obligations.PlatformResetLeavesTheResetValues := by
  unfold Obligations.PlatformResetLeavesTheResetValues
  intro s
  have hidle : (platformReset s).busy = false := rfl
  have hmasked : irq (platformReset s) = false := rfl
  exact ⟨platformReset s, step_withTurn_reset s, fun off => readOffset_platformReset off s, hidle, rfl, hmasked,
    rfl, rfl, rfl⟩

end Sys2Proof.Machine
end

section
/-! PROOFS. Decoding and encoding undo each other (30_encoding.md R49 to R60): command words first, then the tokens. -/

namespace Sys2Proof

/-! ## Command words -/

/-- A whole word is decoded by its rows. -/
theorem decode_encodedCommand (w : Word) : decode .cmd32 32 w.toNat = .ok (decodeCommand w) := by
  simp [decode]

/-- A command without an operand comes back from its word (R51). -/
theorem decode_plainWord {o : BitVec 4} (h9 : o.toNat ≤ 9) (h2 : o ≠ 0x2#4) (h5 : o ≠ 0x5#4) :
    decode .cmd32 32 (commandWord o 0 0).toNat = .ok (plainCommand o) := by
  rw [decode_encodedCommand, decodeCommand_plain h9 h2 h5]

/-- The commands without an operand are encoded by their OP alone (R51). -/
theorem encode_plainCommand {o : BitVec 4} (h9 : o.toNat ≤ 9) (h2 : o ≠ 0x2#4) (h5 : o ≠ 0x5#4) :
    encode (plainCommand o) = encodedCommand (commandWord o 0 0) := by
  revert o
  decide

/-- Every word is what its instruction is encoded as: legal words by R51's rows, the others as themselves (R53). -/
theorem encode_decodeCommand (w : Word) : encode (decodeCommand w) = encodedCommand w := by
  cases hlegal : legal w with
  | false => rw [decodeCommand_of_illegal hlegal, encode]
  | true =>
    rcases legal_cases hlegal with ⟨o, h9, h2, h5, rfl⟩ | ⟨d, rfl⟩ | ⟨n, hmin, hmax, rfl⟩
    · rw [decodeCommand_plain h9 h2 h5, encode_plainCommand h9 h2 h5]
    · rw [decodeCommand_crcByte, encode]
    · rw [decodeCommand_brRead hmin hmax, encode]

/-- Every word decodes to a well-formed instruction (R52, R53). -/
theorem decodeCommand_wf (w : Word) : (decodeCommand w).wf = true := by
  cases hlegal : legal w with
  | false => simp [decodeCommand_of_illegal hlegal, Instr.wf, hlegal]
  | true => exact (decodeCommand_legal_wf hlegal).1

/-! ## Tokens -/

/-- A 4 KB literal comes back from its nine bits (R54). -/
theorem decode_encode_lz4Literal (b : Byte) : decode .tok4 9 (2 * b.toNat + 1) = .ok (.lz4Literal b) := by
  have hflag : (2 * b.toNat + 1) % 2 = 1 := by omega
  have hfield : (2 * b.toNat + 1) / 2 = b.toNat := by omega
  simp [decode, hflag, hfield, lz4LiteralOf]

/-- A 4 KB match comes back from its seventeen bits (R54, R55). -/
theorem decode_encode_lz4Match (p : BitVec 12) (n : BitVec 4) :
    decode .tok4 17 (2 * p.toNat + 2 ^ 13 * n.toNat) = .ok (.lz4Match p n) := by
  have hp := p.isLt
  have hflag : (2 * p.toNat + 2 ^ 13 * n.toNat) % 2 ≠ 1 := by omega
  have hposition : BitVec.ofNat 12 ((2 * p.toNat + 2 ^ 13 * n.toNat) / 2) = p := by
    apply BitVec.eq_of_toNat_eq
    rw [BitVec.toNat_ofNat]
    omega
  have hlength : (2 * p.toNat + 2 ^ 13 * n.toNat) / 2 ^ 13 = n.toNat := by omega
  simp only [decode, if_neg hflag, lz4MatchOf, hposition, hlength, BitVec.ofNat_toNat, BitVec.setWidth_eq]
  rfl

/-- The operands of an 8 KB match, from its two bytes as numbers (R58). -/
theorem lz8MatchOf_eq {byte1 byte2 : Byte} {o : BitVec 12} {n : BitVec 4}
    (ho : byte2.toNat / 16 * 256 + byte1.toNat = o.toNat) (hn : byte2.toNat % 16 = n.toNat) :
    lz8MatchOf byte1 byte2 = .lz8Match o n := by
  have hoffset : ((byte2.setWidth 12 &&& 0xF0#12) <<< 4) ||| byte1.setWidth 12 = o :=
    BitVec.eq_of_toNat_eq ((Machine.toNat_lz8Offset byte1 byte2).trans ho)
  have hlength : byte2.extractLsb' 0 4 = n := BitVec.eq_of_toNat_eq (by simpa using hn)
  rw [lz8MatchOf, hoffset, hlength]

/-- An 8 KB match comes back from its two bytes (R57, R58). -/
theorem decode_encode_lz8Match (o : BitVec 12) (n : BitVec 4) :
    decode .tok8Match 16 (o.toNat % 256 + 256 * (n.toNat + 16 * (o.toNat / 256))) = .ok (.lz8Match o n) := by
  have ho := o.isLt
  have hn := n.isLt
  simp only [decode, Nat.lt_irrefl, if_false]
  congr 1
  apply lz8MatchOf_eq <;> simp only [BitVec.toNat_ofNat] <;> omega

/-- Settles O1: a command word comes back by its row, a token by its fields' arithmetic. -/
theorem decodeOfEncodeIsTheInstruction : Obligations.DecodeOfEncodeIsTheInstruction := by
  unfold Obligations.DecodeOfEncodeIsTheInstruction
  intro i hwf
  cases i with
  | nop => exact ⟨Laws.Fits.nop, decode_plainWord (o := 0x0) (by decide) (by decide) (by decide)⟩
  | crcInit => exact ⟨Laws.Fits.crcInit, decode_plainWord (o := 0x1) (by decide) (by decide) (by decide)⟩
  | crcByte d =>
    refine ⟨Laws.Fits.crcByte d, (decode_encodedCommand _).trans ?_⟩
    rw [decodeCommand_crcByte]
  | crcBuf => exact ⟨Laws.Fits.crcBuf, decode_plainWord (o := 0x3) (by decide) (by decide) (by decide)⟩
  | brInit => exact ⟨Laws.Fits.brInit, decode_plainWord (o := 0x4) (by decide) (by decide) (by decide)⟩
  | brRead n =>
    simp only [Instr.wf, Bool.and_eq_true, decide_eq_true_eq] at hwf
    obtain ⟨hmin, hmax⟩ := hwf
    refine ⟨Laws.Fits.brRead n, (decode_encodedCommand _).trans ?_⟩
    rw [decodeCommand_brRead hmin hmax]
  | decStore => exact ⟨Laws.Fits.decStore, decode_plainWord (o := 0x6) (by decide) (by decide) (by decide)⟩
  | decLz4k => exact ⟨Laws.Fits.decLz4k, decode_plainWord (o := 0x7) (by decide) (by decide) (by decide)⟩
  | decLz8k => exact ⟨Laws.Fits.decLz8k, decode_plainWord (o := 0x8) (by decide) (by decide) (by decide)⟩
  | decEmpty => exact ⟨Laws.Fits.decEmpty, decode_plainWord (o := 0x9) (by decide) (by decide) (by decide)⟩
  | illegalCommand w =>
    have hillegal : legal w = false := by simpa [Instr.wf] using hwf
    refine ⟨Laws.Fits.illegalCommand w, (decode_encodedCommand w).trans ?_⟩
    rw [decodeCommand_of_illegal hillegal]
  | lz4Literal b => exact ⟨Laws.Fits.lz4Literal b, decode_encode_lz4Literal b⟩
  | lz4Match p n => exact ⟨Laws.Fits.lz4Match p n, decode_encode_lz4Match p n⟩
  | lz8Flag f => exact ⟨Laws.Fits.lz8Flag f, by simp [decode, encode]⟩
  | lz8Literal b => exact ⟨Laws.Fits.lz8Literal b, by simp [decode, encode]⟩
  | lz8Match o n => exact ⟨Laws.Fits.lz8Match o n, decode_encode_lz8Match o n⟩

/-- A 4 KB token that is decoded: the flag bit tells which, and its bits are there (R54, R59). -/
theorem decode_tok4_ok {n v : Nat} {i : Instr} (h : decode .tok4 n v = .ok i) :
    (v % 2 = 1 ∧ 9 ≤ n ∧ i = lz4LiteralOf (v / 2))
      ∨ (v % 2 ≠ 1 ∧ 17 ≤ n ∧ i = lz4MatchOf (v / 2) (v / 2 ^ 13)) := by
  by_cases hnone : n < 1
  · simp [decode, hnone] at h
  by_cases hflag : v % 2 = 1
  · by_cases hshort : n < 9
    · simp [decode, hnone, hflag, hshort] at h
    · simp only [decode, hnone, hflag, hshort, if_true, if_false, Except.ok.injEq] at h
      exact Or.inl ⟨hflag, Nat.le_of_not_lt hshort, h.symm⟩
  · by_cases hshort : n < 17
    · simp [decode, hnone, hflag, hshort] at h
    · simp only [decode, hnone, hflag, hshort, if_false, Except.ok.injEq] at h
      exact Or.inr ⟨hflag, Nat.le_of_not_lt hshort, h.symm⟩

/-- A 4 KB token that is not decoded is cut short (R59). -/
theorem decode_tok4_error {n v : Nat} {e : DecodeError} (h : decode .tok4 n v = .error e) :
    if v % 2 = 1 then n < 9 else n < 17 := by
  by_cases hflag : v % 2 = 1
  · rw [if_pos hflag]
    by_contra hbits
    have hsome : ¬ n < 1 := by omega
    simp [decode, hsome, hflag, hbits] at h
  · rw [if_neg hflag]
    by_contra hbits
    have hsome : ¬ n < 1 := by omega
    simp [decode, hsome, hflag, hbits] at h

/-- A 4 KB literal is encoded as the nine bits it was read from (R54). -/
theorem encode_lz4LiteralOf {v : Nat} (hflag : v % 2 = 1) :
    encode (lz4LiteralOf (v / 2)) = { format := .tok4, nbits := 9, value := v % 2 ^ 9 } := by
  simp only [lz4LiteralOf, encode, BitVec.toNat_ofNat]
  congr 1
  omega

/-- A 4 KB match is encoded as the seventeen bits it was read from (R54). -/
theorem encode_lz4MatchOf {v : Nat} (hflag : v % 2 ≠ 1) :
    encode (lz4MatchOf (v / 2) (v / 2 ^ 13)) = { format := .tok4, nbits := 17, value := v % 2 ^ 17 } := by
  simp only [lz4MatchOf, encode, BitVec.toNat_ofNat]
  congr 1
  omega

/-- An 8 KB match is encoded as the two bytes it was read from (R57, R58). -/
theorem encode_lz8MatchOf (byte1 byte2 : Byte) :
    encode (lz8MatchOf byte1 byte2)
      = { format := .tok8Match, nbits := 16, value := byte1.toNat + 256 * byte2.toNat } := by
  have hbyte1 := byte1.isLt
  have hlength : (byte2.extractLsb' 0 4).toNat = byte2.toNat % 16 := by simp
  simp only [lz8MatchOf, encode, Machine.toNat_lz8Offset, hlength]
  congr 1
  omega

/-- Settles O2: each layout's instruction is encoded as the low bits of the value, when there are as many. -/
theorem encodeOfDecodeIsTheBits : Obligations.EncodeOfDecodeIsTheBits := by
  unfold Obligations.EncodeOfDecodeIsTheBits
  intro f n v i hdecode
  cases f with
  | cmd32 =>
    by_cases hshort : n < 32
    · simp [decode, hshort] at hdecode
    · simp only [decode, hshort, if_false, Except.ok.injEq] at hdecode
      rw [← hdecode, encode_decodeCommand]
      exact ⟨decodeCommand_wf _, rfl, Nat.le_of_not_lt hshort, BitVec.toNat_ofNat v 32⟩
  | tok4 =>
    rcases decode_tok4_ok hdecode with ⟨hflag, hbits, rfl⟩ | ⟨hflag, hbits, rfl⟩
    · rw [encode_lz4LiteralOf hflag]
      exact ⟨rfl, rfl, hbits, rfl⟩
    · rw [encode_lz4MatchOf hflag]
      exact ⟨rfl, rfl, hbits, rfl⟩
  | tok8Flag | tok8Literal =>
    by_cases hshort : n < 8
    · simp [decode, hshort] at hdecode
    · simp only [decode, hshort, if_false, Except.ok.injEq] at hdecode
      rw [← hdecode]
      exact ⟨rfl, rfl, Nat.le_of_not_lt hshort, BitVec.toNat_ofNat v 8⟩
  | tok8Match =>
    by_cases hshort : n < 16
    · simp [decode, hshort] at hdecode
    · simp only [decode, hshort, if_false, Except.ok.injEq] at hdecode
      rw [← hdecode, encode_lz8MatchOf]
      refine ⟨rfl, rfl, Nat.le_of_not_lt hshort, ?_⟩
      simp only [BitVec.toNat_ofNat]
      omega

/-- Settles O4: each word and each token is evaluated; what they stand for is read off the spec's tables. -/
theorem specWordsDecodeAsTheSpecSays : Obligations.SpecWordsDecodeAsTheSpecSays := by
  unfold Obligations.SpecWordsDecodeAsTheSpecSays
  decide

end Sys2Proof
end

section
/-! PROOFS. What an engine step leaves alone, said once, and from it that no step changes the
configuration (10_state.md R13, R21, R22, R30, 20_memory.md R42). -/

namespace Sys2Proof.Machine

/-- A successful read leaves the state but for the cursor registers (R91). -/
theorem readBits_moves {n : Nat} {s t : State} {v : Half} (hn : n ≤ 16) (h : readBits n s = .ok v t) :
    ∃ buf count pos, t = { s with brBuf := buf, brCount := count, inPos := pos } :=
  ⟨_, _, _, readBits_frame hn h⟩

/-- From `s` to `t` the engine writes neither the configuration nor IN, clears no condition, writes `CRC_ACC` and
`BR_DATA` in their own commands only, and OUT in a decode phase below the limit only, at `OUT_COUNT`, which it
counts. -/
structure EngineFrame (s t : State) : Prop where
  cfg : t.cfg = s.cfg
  inMem : t.inMem = s.inMem
  cmdErr : t.cmdErr = s.cmdErr
  limitErr : t.limitErr = s.limitErr
  brShort : s.brShort = true → t.brShort = true
  crcAcc : t.crcAcc = s.crcAcc ∨ s.phase = .start ∧ (s.curOp = 0x1#4 ∨ s.curOp = 0x2#4) ∨ s.phase = .crcRun
  brData : t.brData = s.brData ∨ s.phase = .start ∧ s.curOp = 0x5#4
  outMem : t.outMem = s.outMem ∨ s.phase.decoding = true ∧ s.outCount ≠ s.outLimit ∧ t.outCount = s.outCount + 1
    ∧ ∃ b, t.outMem = Mem.set none s.outMem s.outCount.toNat b

/-- A step that writes none of these. -/
theorem EngineFrame.of_same {s t : State} (h : t = { t with
      cfg := s.cfg, inMem := s.inMem, cmdErr := s.cmdErr, limitErr := s.limitErr, brShort := s.brShort
      crcAcc := s.crcAcc, brData := s.brData, outMem := s.outMem }) : EngineFrame s t := by
  rw [h]
  exact ⟨rfl, rfl, rfl, rfl, id, Or.inl rfl, Or.inl rfl, Or.inl rfl⟩

/-- A step that emits a byte, after whatever input it took. -/
theorem EngineFrame.of_byte {s t : State} {b : Byte} (hd : s.phase.decoding = true) (hroom : s.outCount ≠ s.outLimit)
    (h : t = { t with
      cfg := s.cfg, inMem := s.inMem, cmdErr := s.cmdErr, limitErr := s.limitErr, brShort := s.brShort
      crcAcc := s.crcAcc, brData := s.brData, outCount := s.outCount + 1
      outMem := Mem.set none s.outMem s.outCount.toNat b }) : EngineFrame s t := by
  rw [h]
  exact ⟨rfl, rfl, rfl, rfl, id, Or.inl rfl, Or.inl rfl, Or.inr ⟨hd, hroom, rfl, b, rfl⟩⟩

theorem decoding_of_copying {p : Phase} (h : p.copying = true) : p.decoding = true := by
  revert h
  cases p <;> decide

theorem EngineStep.frame {s t : State} (h : EngineStep s t) : EngineFrame s t := by
  cases h with
  | crcInit hp ho => exact ⟨rfl, rfl, rfl, rfl, id, Or.inr (Or.inl ⟨hp, Or.inl ho⟩), Or.inl rfl, Or.inl rfl⟩
  | crcByte hp ho => exact ⟨rfl, rfl, rfl, rfl, id, Or.inr (Or.inl ⟨hp, Or.inr ho⟩), Or.inl rfl, Or.inl rfl⟩
  | crcRun hp => exact ⟨rfl, rfl, rfl, rfl, id, Or.inr (Or.inr hp), Or.inl rfl, Or.inl rfl⟩
  | brRead hp ho h1 h16 v u hr =>
    obtain ⟨_, _, _, rfl⟩ := readBits_moves h16 hr
    exact ⟨rfl, rfl, rfl, rfl, id, Or.inl rfl, Or.inr ⟨hp, ho⟩, Or.inl rfl⟩
  | brShort => exact ⟨rfl, rfl, rfl, rfl, fun _ => rfl, Or.inl rfl, Or.inl rfl, Or.inl rfl⟩
  | lz4NoLiteral hp ho s1 h1 | lz4NoPosition hp ho f s1 h1 =>
    obtain ⟨_, _, _, rfl⟩ := readBits_moves (by decide) h1
    exact .of_same rfl
  | lz4NoLength hp ho f p s1 s2 h1 hf h2 =>
    obtain ⟨_, _, _, rfl⟩ := readBits_moves (by decide) h1
    obtain ⟨_, _, _, rfl⟩ := readBits_moves (by decide) h2
    exact .of_same rfl
  | lz4Match hp ho f p n s1 s2 s3 h1 hf h2 h3 =>
    obtain ⟨_, _, _, rfl⟩ := readBits_moves (by decide) h1
    obtain ⟨_, _, _, rfl⟩ := readBits_moves (by decide) h2
    obtain ⟨_, _, _, rfl⟩ := readBits_moves (by decide) h3
    exact .of_same rfl
  | lz4Literal hp ho s1 s2 l h1 h2 =>
    obtain ⟨_, _, _, rfl⟩ := readBits_moves (by decide) h1
    obtain ⟨_, _, _, rfl⟩ := readBits_moves (by decide) h2
    exact .of_byte (by rw [hp]; rfl) ho rfl
  | storeRun hp ho | lz4CopyEnd hp ho | lz8CopyEnd hp ho | lz8Literal hp ho => exact .of_byte (by rw [hp]; rfl) ho rfl
  | copy hp ho => exact .of_byte (decoding_of_copying hp) ho rfl
  | _ => exact .of_same rfl

theorem HostStep.cfg {s t : State} (h : HostStep s t) : t.cfg = s.cfg := by
  cases h <;> rfl

theorem waitTurn_cfg (rest : List Turn) (s : State) : (waitTurn rest s).cfg = s.cfg := by
  rw [waitTurn_frame]

/-- Settles O49: whoever moves, the parameters stay. -/
theorem configurationNeverChanges : Obligations.ConfigurationNeverChanges := by
  unfold Obligations.ConfigurationNeverChanges
  intro s t h
  rcases step_next_cases h with ⟨-, he⟩ | ⟨op, -, hh⟩ | ⟨-, rfl⟩ | ⟨-, rfl⟩
  · exact he.frame.cfg
  · exact hh.cfg
  · exact waitTurn_cfg _ s
  · rfl

end Sys2Proof.Machine
end

section
/-! PROOFS. The clauses of the invariant that ask nothing of the phase, operation by operation: the memories' form and
the ranges of the registers (10_state.md R23, R24, R27, R32). -/

namespace Sys2Proof.Machine

/-- The clauses of `State.Inv` that hold in every phase alike. -/
structure State.Ranges (s : State) : Prop where
  memories : s.memWf = true
  disjoint : s.buffersDisjoint
  bufferTop : s.brBuf >>> s.brCount.toNat = 0
  lookahead : s.brCount.toNat ≤ 7
  flagLeft : s.flagLeft ≤ 8
  flagByte : s.flagByte.toNat < 2 ^ s.flagLeft
  matchRem : s.matchRem ≤ 18
  dictPos : s.dictPos.toNat < s.dsize.size
  matchSrc : s.matchSrc.toNat < s.dsize.size

theorem State.Inv.ranges {s : State} (h : s.Inv) : s.Ranges :=
  ⟨h.memories, h.disjoint, h.bufferTop, h.lookahead, h.flagLeft, h.flagByte, h.matchRem, h.dictPos, h.matchSrc⟩

/-- In `IDLE` the invariant asks for nothing else. -/
theorem State.Ranges.inv_of_idle {s : State} (h : s.Ranges) (hp : s.phase = .idle) : s.Inv := by
  have hbusy : s.busy ≠ true := by simp [State.busy, hp]
  exact {
    h with
    latched := by simp [hp]
    phaseOp := by simp [hp, opOfPhase]
    phaseDict := by simp [hp, Phase.dict]
    crcIdx := by simp [hp]
    inPos := by simp [hp, Phase.decoding]
    outCount := by simp [hp, Phase.decoding]
    outLimit := fun hne => absurd hp hne
    copying := by simp [hp, Phase.copying]
    lz8Cursor := by simp [hp, Phase.dict]
    inBound := fun hb => absurd hb hbusy
    outBound := fun hb => absurd hb hbusy }

theorem DictSize.size_pos (d : DictSize) : 0 < d.size := by
  cases d <;> decide

theorem DictSize.size_le (d : DictSize) : d.size ≤ 2 ^ 13 := by
  cases d <;> decide

/-- `(i + 1) mod DSIZE` as a number (R79). -/
theorem toNat_nextIdx (d : DictSize) (i : DictIdx) : (nextIdx d i).toNat = (i.toNat + 1) % d.size := by
  rw [nextIdx, BitVec.toNat_ofNat]
  exact Nat.mod_eq_of_lt (Nat.lt_of_lt_of_le (Nat.mod_lt _ d.size_pos) d.size_le)

theorem nextIdx_lt (d : DictSize) (i : DictIdx) : (nextIdx d i).toNat < d.size := by
  rw [toNat_nextIdx]
  exact Nat.mod_lt _ d.size_pos

/-- A finished command: only `STOP`, `PHASE` and `DONE` change. -/
theorem State.Ranges.finish {s : State} (h : s.Ranges) : (finish s).Ranges := { h with }

theorem State.Ranges.finishWith {s : State} (h : s.Ranges) (k : StopKind) : (finishWith k s).Ranges := { h with }

theorem State.Ranges.decInit {s : State} (h : s.Ranges) : (decInit s).Ranges :=
  { h with bufferTop := rfl, lookahead := Nat.zero_le 7 }

theorem State.Ranges.dictInit {s : State} (h : s.Ranges) (d : DictSize) {p : DictIdx} (hp : p.toNat < d.size) :
    (dictInit d p s).Ranges :=
  { h with
    memories := memWf_dictInit h.memories d p
    flagLeft := Nat.zero_le 8
    flagByte := Nat.one_pos
    matchRem := Nat.zero_le 18
    dictPos := hp
    matchSrc := d.size_pos }

/-- A read moves the cursor and leaves the buffer clear above its count (R89, R92). -/
theorem State.Ranges.readBits {s t : State} {n : Nat} {v : Half} (h : s.Ranges) (hn : n ≤ 16)
    (hr : readBits n s = .ok v t) : t.Ranges := by
  have hlook := (takes_readBits hn h.lookahead hr).lookahead
  have htop := bufferTop_readBits hn hr h.bufferTop
  obtain ⟨buf, count, pos, rfl⟩ := readBits_moves hn hr
  exact { h with bufferTop := htop, lookahead := hlook }

/-- A used flag bit is gone from both flag registers (R116). -/
theorem State.Ranges.useFlag {s : State} (h : s.Ranges) (hleft : s.flagLeft ≠ 0) : (useFlag s).Ranges :=
  { h with
    flagLeft := Nat.le_trans (Nat.sub_le _ _) h.flagLeft
    flagByte := by
      have hbyte := h.flagByte
      rw [← Nat.succ_pred hleft, Nat.pow_succ] at hbyte
      rw [useFlag_flagByte, useFlag_flagLeft, BitVec.toNat_ushiftRight, Nat.shiftRight_eq_div_pow]
      exact Nat.div_lt_of_lt_mul (by rwa [Nat.mul_comm] at hbyte) }

/-- An emitted byte goes where OUT was bound, and the write position wraps (R99). -/
theorem State.Ranges.emitted {s : State} (h : s.Ranges) (hout : (outByte s s.outCount).isSome) (b : Byte) :
    (emitted b s).Ranges :=
  { h with
    memories := memWf_emitted h.memories b
    disjoint := (buffersOverlap_congr rfl (outMem_keys_emitted h.memories hout b)).trans h.disjoint
    dictPos := by
      by_cases hd : usesDict s = true
      · simpa [Machine.emitted, hd] using nextIdx_lt s.dsize s.dictPos
      · simpa [Machine.emitted, hd] using h.dictPos }

/-- A copied byte is an emitted one, and the copy source wraps (R100). -/
theorem State.Ranges.copied {s : State} (h : s.Ranges) (hout : (outByte s s.outCount).isSome) : (copied s).Ranges :=
  { h.emitted hout (dictByte s s.matchSrc) with
    matchRem := Nat.le_trans (Nat.sub_le _ _) h.matchRem
    matchSrc := nextIdx_lt s.dsize s.matchSrc }

/-- A match token sets up the copy with a source in the dictionary and at most 18 bytes (R112, R118). -/
theorem State.Ranges.startCopy {s : State} (h : s.Ranges) {src : DictIdx} (hsrc : src.toNat < s.dsize.size)
    (n : BitVec 4) (p : Phase) : { s with matchSrc := src, matchRem := matchLength n, phase := p }.Ranges :=
  { h with matchRem := (matchLength_bounds n).2, matchSrc := hsrc }

/-- Every engine step from a state with the invariant keeps the ranges. -/
theorem EngineStep.ranges {s t : State} (h : EngineStep s t) (hs : s.Inv) : t.Ranges := by
  have hr := hs.ranges
  cases h with
  | idle | nop | crcInit | crcByte | crcBuf | brShort | crcEnd | crcRun => exact { hr with }
  | brInit => exact { hr.decInit with }
  | brRead hp ho h1 h16 v u hread => exact { hr.readBits h16 hread with }
  | decStore => exact { hr.decInit with }
  | decLz4k =>
    have hpos : (s.cfg.dict4InitPos.setWidth 13).toNat < DictSize.k4.size := by
      rw [BitVec.toNat_setWidth_of_le (by decide)]
      exact s.cfg.dict4InitPos.isLt
    exact { hr.decInit.dictInit .k4 hpos with }
  | decLz8k => exact { hr.decInit.dictInit .k8 s.cfg.dict8InitPos.isLt with }
  | decEmpty => exact hr.decInit.finishWith _
  | limit | storeEnd | lz4NoFlag | lz8NoFlag => exact hr.finishWith _
  | storeRun hp ho hin b hb hout => exact State.Ranges.emitted (s := { s with inPos := s.inPos + 1 }) { hr with } hout b
  | lz4NoLiteral hp ho s1 h1 | lz4NoPosition hp ho f s1 h1 => exact (hr.readBits (by decide) h1).finishWith _
  | lz4Literal hp ho s1 s2 l h1 h2 hout => exact ((hr.readBits (by decide) h1).readBits (by decide) h2).emitted hout _
  | lz4NoLength hp ho f p s1 s2 h1 hf h2 => exact ((hr.readBits (by decide) h1).readBits (by decide) h2).finishWith _
  | lz4Match hp ho f p n s1 s2 s3 h1 hf h2 h3 =>
    have hsize : s3.dsize = .k4 := by
      rw [readBits_frame (by decide) h3, readBits_frame (by decide) h2, readBits_frame (by decide) h1]
      exact hs.phaseDict _ (by rw [hp]; rfl)
    have hsrc : ((BitVec.ofNat 12 p.toNat).setWidth 13).toNat < s3.dsize.size := by
      rw [hsize, BitVec.toNat_setWidth_of_le (by decide)]
      exact (BitVec.ofNat 12 p.toNat).isLt
    exact (((hr.readBits (by decide) h1).readBits (by decide) h2).readBits (by decide) h3).startCopy hsrc _ _
  | copy hp ho hout => exact hr.copied hout
  | lz4CopyEnd hp ho hout | lz8CopyEnd hp ho hout => exact { hr.copied hout with }
  | lz8Flag hp ho hf hin f => exact { hr with flagLeft := Nat.le_refl 8, flagByte := f.isLt }
  | lz8NoLiteral hp ho hf | lz8NoMatch hp ho hf => exact (hr.useFlag hf).finishWith _
  | lz8Literal hp ho hf hbit hin b hb hout =>
    exact State.Ranges.emitted (s := { useFlag s with inPos := s.inPos + 1 }) { hr.useFlag hf with } hout b
  | lz8Match hp ho hf hbit hin b1 b2 =>
    have hsize : s.dsize = .k8 := hs.phaseDict _ (by rw [hp]; rfl)
    refine State.Ranges.startCopy (s := { useFlag s with inPos := s.inPos + 1 + 1 }) { hr.useFlag hf with } ?_ _ _
    rw [useFlag_dsize, hsize]
    exact BitVec.isLt _

end Sys2Proof.Machine
end

section
/-! PROOFS. The clauses of the invariant that speak of the phase, and the invariant itself: it holds after reset and
every step of every agent keeps it (10_state.md section 3, 40_control.md section 6). -/

namespace Sys2Proof.Machine

/-- A running command with the invariant is under way. -/
theorem State.Inv.underWay {s : State} (h : s.Inv) (hb : s.busy = true) : s.UnderWay :=
  ⟨h.latched, h.phaseOp, h.lookahead, h.outCount, h.inBound hb, h.outBound hb⟩

/-- The clauses of `State.Inv` that say what a phase asks of the registers, but for those of `State.UnderWay`. -/
structure State.Sequenced (s : State) : Prop where
  phaseDict : ∀ d, s.phase.dict = some d → s.dsize = d
  crcIdx : s.phase = .crcRun → s.crcIdx ≤ s.inLen
  inPos : s.phase.decoding = true → s.inPos ≤ s.inLen
  copying : s.phase.copying = true → 1 ≤ s.matchRem
  lz8Cursor : s.phase.dict = some .k8 → s.brCount = 0

theorem State.Inv.sequenced {s : State} (h : s.Inv) : s.Sequenced :=
  ⟨h.phaseDict, h.crcIdx, h.inPos, h.copying, h.lz8Cursor⟩

/-- An ended command asks nothing. -/
theorem State.Sequenced.of_idle {s : State} (hp : s.phase = .idle) : s.Sequenced :=
  ⟨by simp [hp, Phase.dict], by simp [hp], by simp [hp, Phase.decoding], by simp [hp, Phase.copying],
    by simp [hp, Phase.dict]⟩

theorem not_crcRun_of_decoding {p : Phase} (h : p.decoding = true) : p ≠ .crcRun := by
  rintro rfl
  cases h

/-- A step within a decode, on the same dictionary. -/
theorem State.Sequenced.of_decoding {s t : State} (hs : s.Sequenced) (hd : t.phase.decoding = true)
    (hdict : t.phase.dict = s.phase.dict) (hsize : t.dsize = s.dsize) (hpos : t.inPos ≤ t.inLen)
    (hcopy : t.phase.copying = true → 1 ≤ t.matchRem) (hcount : t.phase.dict = some .k8 → t.brCount = s.brCount) :
    t.Sequenced where
  phaseDict d h := hsize.trans (hs.phaseDict d (hdict ▸ h))
  crcIdx h := absurd h (not_crcRun_of_decoding hd)
  inPos _ := hpos
  copying := hcopy
  lz8Cursor h := (hcount h).trans (hs.lz8Cursor (hdict ▸ h))

/-- A read stays within the input (R92). -/
theorem readBits_inPos_le {n : Nat} {s t : State} {v : Half} (hn : n ≤ 16) (hr : readBits n s = .ok v t)
    (h : s.inPos ≤ s.inLen) : t.inPos ≤ t.inLen := by
  obtain ⟨-, -, -, hin⟩ := readBits_cursor hn hr
  have hwithin := hin h
  obtain ⟨_, _, _, rfl⟩ := readBits_moves hn hr
  exact hwithin

theorem add_one_le {x y : Word} (h : x < y) : x + 1 ≤ y := by
  have hlt : x.toNat < y.toNat := h
  show (x + 1).toNat ≤ y.toNat
  rw [toNat_add_one h]
  omega

/-- Every engine step of a running command keeps what its phase asks. -/
theorem EngineStep.sequenced {s t : State} (h : EngineStep s t) (hs : s.Inv) : t.Sequenced := by
  have hq := hs.sequenced
  cases h with
  | idle hp => exact hq
  | nop | crcInit | crcByte | brInit | brRead | brShort | decEmpty | crcEnd | limit | storeEnd | lz4NoFlag
  | lz4NoLiteral | lz4NoPosition | lz4NoLength | lz8NoFlag | lz8NoLiteral | lz8NoMatch => exact .of_idle rfl
  | crcBuf => exact ⟨nofun, fun _ => Nat.zero_le _, nofun, nofun, nofun⟩
  | decStore => exact ⟨nofun, nofun, fun _ => Nat.zero_le _, nofun, nofun⟩
  | decLz4k => exact ⟨fun _ h => Option.some.inj h, nofun, fun _ => Nat.zero_le _, nofun, nofun⟩
  | decLz8k => exact ⟨fun _ h => Option.some.inj h, nofun, fun _ => Nat.zero_le _, nofun, fun _ => rfl⟩
  | crcRun hp hlt => exact ⟨hq.phaseDict, fun _ => add_one_le hlt, hq.inPos, hq.copying, hq.lz8Cursor⟩
  | storeRun hp ho hin b hb hout =>
    exact hq.of_decoding (by simp [emitted, hp, Phase.decoding]) rfl rfl (add_one_le hin)
      (by simp [emitted, hp, Phase.copying]) fun _ => rfl
  | lz4Literal hp ho s1 s2 l h1 h2 hout =>
    have hpos := readBits_inPos_le (by decide) h2 (readBits_inPos_le (by decide) h1 (hs.inPos (by rw [hp]; rfl)))
    obtain ⟨_, _, _, rfl⟩ := readBits_moves (by decide) h1
    obtain ⟨_, _, _, rfl⟩ := readBits_moves (by decide) h2
    exact hq.of_decoding (by simp [emitted, hp, Phase.decoding]) rfl rfl hpos (by simp [emitted, hp, Phase.copying])
      (by simp [emitted, hp, Phase.dict])
  | lz4Match hp ho f p n s1 s2 s3 h1 hf h2 h3 =>
    have hpos := readBits_inPos_le (by decide) h3 (readBits_inPos_le (by decide) h2 (readBits_inPos_le (by decide) h1
      (hs.inPos (by rw [hp]; rfl))))
    obtain ⟨_, _, _, rfl⟩ := readBits_moves (by decide) h1
    obtain ⟨_, _, _, rfl⟩ := readBits_moves (by decide) h2
    obtain ⟨_, _, _, rfl⟩ := readBits_moves (by decide) h3
    exact hq.of_decoding rfl (by simp [hp, Phase.dict]) rfl hpos (fun _ => Nat.le_add_left 1 _) nofun
  | copy hp ho hout hrem =>
    have hd := decoding_of_copying hp
    exact hq.of_decoding hd rfl rfl (hs.inPos hd) (fun _ => Nat.one_le_iff_ne_zero.mpr hrem) fun _ => rfl
  | lz4CopyEnd hp | lz8CopyEnd hp =>
    exact hq.of_decoding rfl (by simp [hp, Phase.dict]) rfl (hs.inPos (by simp [hp, Phase.decoding])) nofun fun _ => rfl
  | lz8Flag hp ho hf hin f =>
    exact hq.of_decoding (by simp [hp, Phase.decoding]) rfl rfl (add_one_le hin)
      (by simp [hp, Phase.copying]) fun _ => rfl
  | lz8Literal hp ho hf hbit hin b =>
    exact hq.of_decoding (by simp [emitted, hp, Phase.decoding]) rfl rfl (add_one_le hin)
      (by simp [emitted, hp, Phase.copying]) fun _ => rfl
  | lz8Match hp ho hf hbit hin b1 b2 =>
    have hfirst : s.inPos < s.inLen := show s.inPos.toNat < s.inLen.toNat by omega
    have hpos := toNat_add_one hfirst
    have hsecond : s.inPos + 1 < s.inLen := show (s.inPos + 1).toNat < s.inLen.toNat by omega
    exact hq.of_decoding rfl (by simp [hp, Phase.dict]) rfl (add_one_le hsecond) (fun _ => Nat.le_add_left 1 _)
      fun _ => rfl

/-- A command that ran on, within its ranges and with what its phase asks, still has the invariant. -/
theorem State.Inv.of_advances {s t : State} (hs : s.Inv) (hb : s.busy = true) (ha : Advances s t) (hr : t.Ranges)
    (hq : t.Sequenced) (hcfg : t.cfg = s.cfg) : t.Inv :=
  { (hs.underWay hb).of_advances ha, hr, hq with
    outLimit := fun _ hop => by
      rw [ha.keeps.outLimit, hcfg]
      rw [ha.keeps.curOp] at hop
      exact hs.outLimit ((busy_eq_true s).mp hb) hop
    inBound := fun _ => ((hs.underWay hb).of_advances ha).inBound
    outBound := fun _ => ((hs.underWay hb).of_advances ha).outBound }

/-- In `IDLE` no engine step is enabled (R138): every case but the first names another phase. -/
theorem EngineStep.eq_of_idle {s t : State} (h : EngineStep s t) (hp : s.phase = .idle) : t = s := by
  cases h with
  | idle => rfl
  | limit hd =>
    rw [hp] at hd
    cases hd
  | copy hc =>
    rw [hp] at hc
    cases hc
  | _ => simp_all

/-- The engine keeps the invariant. -/
theorem EngineStep.inv {s t : State} (h : EngineStep s t) (hs : s.Inv) : t.Inv := by
  by_cases hb : s.busy = true
  · exact hs.of_advances hb (h.advances (hs.underWay hb) hb) (h.ranges hs) (h.sequenced hs) h.frame.cfg
  · have hp : s.phase = .idle := (busy_eq_false s).mp (Bool.not_eq_true _ ▸ hb)
    rwa [h.eq_of_idle hp]

/-- The words that `OUT_LIMIT` bounds are those of the three decodes (R67). -/
theorem usesOutput_iff (op : BitVec 4) : usesOutput op = true ↔ op = 0x6#4 ∨ op = 0x7#4 ∨ op = 0x8#4 := by
  simp [usesOutput, or_assoc]

/-- The host keeps the invariant. -/
theorem HostStep.inv {s t : State} (h : HostStep s t) (hs : s.Inv) : t.Inv := by
  cases h with
  | busyCommand | illegalCommand | overLimit | statusClear | ctrl | refusedWrite | crcAcc | ignored | read =>
    exact { hs with }
  | accepted hb w hl hm hi ho =>
    exact {
      hs.ranges with
      latched := fun _ => by rwa [latchedWord_accept hl]
      phaseOp := nofun
      phaseDict := nofun
      crcIdx := nofun
      inPos := nofun
      outCount := nofun
      outLimit := fun _ hop => hm ((usesOutput_iff _).mpr hop)
      copying := nofun
      lz8Cursor := nofun
      inBound := fun _ => hi
      outBound := fun _ => ho }
  | inLen hb | outLimit hb => exact State.Ranges.inv_of_idle { hs.ranges with } ((busy_eq_false s).mp hb)
  | bindIn hb base bytes hlen hd =>
    obtain ⟨-, hout, hdict⟩ := (memWf_iff s).mp hs.memories
    exact State.Ranges.inv_of_idle { hs.ranges with
      memories := (memWf_iff _).mpr ⟨Mem.wf_ofBytes hlen, hout, hdict⟩, disjoint := hd } ((busy_eq_false s).mp hb)
  | bindOut hb base bytes hlen hd =>
    obtain ⟨hin, -, hdict⟩ := (memWf_iff s).mp hs.memories
    exact State.Ranges.inv_of_idle { hs.ranges with
      memories := (memWf_iff _).mpr ⟨hin, Mem.wf_ofBytes hlen, hdict⟩, disjoint := hd } ((busy_eq_false s).mp hb)
  | writeIn i b hduty hbound =>
    obtain ⟨hin, hout, hdict⟩ := (memWf_iff s).mp hs.memories
    exact { hs with
      memories := (memWf_iff _).mpr ⟨Mem.wf_set hin i.isLt b, hout, hdict⟩
      disjoint := (buffersOverlap_congr (Mem.map_fst_set_none hin hbound b) rfl).trans hs.disjoint
      inBound := fun hb huses j hj => Mem.isSome_lookup_set _ _ (hs.inBound hb huses j hj) }
  | writeOut i b hduty hbound =>
    obtain ⟨hin, hout, hdict⟩ := (memWf_iff s).mp hs.memories
    exact { hs with
      memories := (memWf_iff _).mpr ⟨hin, Mem.wf_set hout i.isLt b, hdict⟩
      disjoint := (buffersOverlap_congr rfl (Mem.map_fst_set_none hout hbound b)).trans hs.disjoint
      outBound := fun hb huses j hj => Mem.isSome_lookup_set _ _ (hs.outBound hb huses j hj) }

theorem State.Inv.popped {s : State} (h : s.Inv) : s.popped.Inv := { h with }

/-- After a reset the registers have their reset values; of the buffers the form and the place matter (R141). -/
theorem platformReset_inv {s : State} (hin : Mem.wf bufferSize none s.inMem = true)
    (hout : Mem.wf bufferSize none s.outMem = true) (hd : s.buffersDisjoint) : (platformReset s).Inv := by
  have hranges : (platformReset s).Ranges :=
    { memories := (memWf_iff _).mpr ⟨hin, hout, rfl⟩
      disjoint := hd
      bufferTop := rfl
      lookahead := Nat.zero_le 7
      flagLeft := Nat.zero_le 8
      flagByte := Nat.one_pos
      matchRem := Nat.zero_le 18
      dictPos := DictSize.k4.size_pos
      matchSrc := DictSize.k4.size_pos }
  exact hranges.inv_of_idle rfl

/-- Every step of every agent keeps the invariant. -/
theorem step_keeps_inv {s t : State} (hs : s.Inv) (h : step s = .next t) : t.Inv := by
  rcases step_next_cases h with ⟨-, he⟩ | ⟨op, -, hh⟩ | ⟨-, rfl⟩ | ⟨-, rfl⟩
  · exact he.inv hs.popped
  · exact hh.inv hs.popped
  · rw [waitTurn_frame]
    exact { hs with }
  · obtain ⟨hin, hout, -⟩ := (memWf_iff s).mp hs.memories
    exact platformReset_inv hin hout hs.disjoint

/-- Settles O57: the engine's cases keep the ranges and what each phase asks, the host's leave a running command its
registers, and a reset leaves the buffers' form. -/
theorem everyStepKeepsTheInvariant : Obligations.EveryStepKeepsTheInvariant := by
  unfold Obligations.EveryStepKeepsTheInvariant
  exact fun _ _ => step_keeps_inv

/-- Settles O56: it is a platform reset's state with no buffer bound, and no command runs. -/
theorem resetMeetsTheInvariant : Obligations.ResetMeetsTheInvariant := by
  unfold Obligations.ResetMeetsTheInvariant
  exact fun cfg => ⟨platformReset_inv (s := State.resetWith cfg) rfl rfl rfl, trivial⟩

/-- Settles O60: in `IDLE` the engine stutters, and a running command is under way. -/
theorem engineTurnAlwaysAnswersNext : Obligations.EngineTurnAlwaysAnswersNext := by
  unfold Obligations.EngineTurnAlwaysAnswersNext
  intro s hs
  rw [step_withTurn_engine]
  by_cases hb : s.busy = true
  · exact engineTurn_answers (hs.underWay hb)
  · have hp : s.phase = .idle := (busy_eq_false s).mp (Bool.not_eq_true _ ▸ hb)
    rw [engineTurn, hp]
    exact ⟨s, rfl⟩

end Sys2Proof.Machine
end

section
/-! PROOFS. In a running dictionary decode the window follows the output (44_lzss4k.md R114, 45_lzss8k.md R120): a fresh
dictionary follows an empty output, an emitted byte keeps it, and nothing else touches it. -/

namespace Sys2Proof.Machine

/-- The decode's first write position, by its dictionary (R109, R115). -/
def initPos (cfg : Config) : DictSize → Nat
  | .k4 => cfg.dict4InitPos.toNat
  | .k8 => cfg.dict8InitPos.toNat

theorem dictTracks_iff (s : State) : s.DictTracks ↔ ∀ d, s.phase.dict = some d → s.Tracks (initPos s.cfg d) := by
  unfold State.DictTracks
  cases s.phase.dict with
  | none => simp
  | some d => cases d <;> simp [initPos]

/-- Where no dictionary decode runs there is nothing to follow. -/
theorem dictTracks_of_none {s : State} (h : s.phase.dict = none) : s.DictTracks := by
  rw [dictTracks_iff, h]
  exact nofun

/-- The relation speaks of the dictionary and of the output emitted so far. -/
theorem State.Tracks.congr {s t : State} {init : Nat} (h : s.Tracks init) (hcfg : t.cfg = s.cfg)
    (hpos : t.dictPos = s.dictPos) (hcount : t.outCount = s.outCount) (hsize : t.dsize = s.dsize)
    (hdict : t.dict = s.dict)
    (hout : ∀ j < s.outCount.toNat, outByte t (BitVec.ofNat 32 j) = outByte s (BitVec.ofNat 32 j)) :
    t.Tracks init := by
  have hcell (i : DictIdx) : dictByte t i = dictByte s i := by rw [dictByte, dictByte, hdict, hcfg]
  refine ⟨?_, fun j hj hwin => ?_, fun j hj hlt => ?_⟩
  · rw [hpos, hcount, hsize]
    exact h.pos
  · rw [hcount] at hj hwin
    rw [hsize] at hwin ⊢
    rw [hout j hj, hcell]
    exact h.window j hj hwin
  · rw [hcount] at hj
    rw [hsize] at hlt ⊢
    rw [hcell, hcfg]
    exact h.fresh j hj hlt

/-- A freshly filled dictionary follows an output of no byte (R98). -/
theorem tracks_fresh {s : State} {d : DictSize} {p : DictIdx} (hp : p.toNat < d.size) (hcount : s.outCount = 0) :
    (dictInit d p s).Tracks p.toNat := by
  have hzero : (dictInit d p s).outCount.toNat = 0 := by simp [hcount]
  refine ⟨?_, fun j hj => ?_, fun _ _ _ => dictByte_dictInit d p s _⟩
  · rw [hzero]
    exact (Nat.mod_eq_of_lt hp).symm
  · omega

/-- Two cells of the dictionary less than its size apart are different. -/
theorem mod_ne_of_lt {a b size : Nat} (hlt : a < b) (hnear : b < a + size) : a % size ≠ b % size := by
  intro h
  have hdvd : size ∣ b - a := (Nat.modEq_iff_dvd' (Nat.le_of_lt hlt)).mp h
  have := Nat.le_of_dvd (by omega) hdvd
  omega

/-- The cell of a position in the dictionary, as an index. -/
theorem ofNat_mod_size_eq_iff {s : State} {a b : Nat} (hpos : s.dictPos.toNat = b % s.dsize.size) :
    BitVec.ofNat 13 (a % s.dsize.size) = s.dictPos ↔ a % s.dsize.size = b % s.dsize.size := by
  have hlt : a % s.dsize.size < 2 ^ 13 := Nat.lt_of_lt_of_le (Nat.mod_lt _ s.dsize.size_pos) s.dsize.size_le
  rw [← BitVec.toNat_inj, BitVec.toNat_ofNat, Nat.mod_eq_of_lt hlt, hpos]

/-- An emitted byte is the output's newest and takes the window's oldest cell (R99). -/
theorem State.Tracks.emitted {s : State} {init : Nat} (h : s.Tracks init) (hmem : s.memWf = true)
    (hd : usesDict s = true) (hlt : s.outCount < s.outLimit) (b : Byte) : (emitted b s).Tracks init := by
  have hcount : (Machine.emitted b s).outCount.toNat = s.outCount.toNat + 1 := toNat_add_one hlt
  have hsize : (Machine.emitted b s).dsize = s.dsize := rfl
  have hpos : (Machine.emitted b s).dictPos = nextIdx s.dsize s.dictPos := by simp [Machine.emitted, hd]
  have hcell (j : Nat) : dictByte (Machine.emitted b s) (BitVec.ofNat 13 ((init + j) % s.dsize.size))
      = if (init + j) % s.dsize.size = (init + s.outCount.toNat) % s.dsize.size then b
        else dictByte s (BitVec.ofNat 13 ((init + j) % s.dsize.size)) := by
    rw [dictByte_emitted hmem]
    simp only [hd, true_and, ofNat_mod_size_eq_iff h.pos]
  refine ⟨?_, fun j hj hwin => ?_, fun j hj hfresh => ?_⟩
  · rw [hpos, toNat_nextIdx, h.pos, hcount, hsize, Nat.mod_add_mod, Nat.add_assoc]
  · rw [hcount] at hj hwin
    rw [hsize] at hwin ⊢
    have hcounts := s.outCount.isLt
    rw [hcell, outByte_emitted hmem]
    rcases Nat.lt_succ_iff_lt_or_eq.mp hj with hold | rfl
    · have hne : BitVec.ofNat 32 j ≠ s.outCount := fun e => by
        have := congrArg BitVec.toNat e
        rw [BitVec.toNat_ofNat, Nat.mod_eq_of_lt (by omega)] at this
        omega
      rw [if_neg hne, if_neg (mod_ne_of_lt (by omega) (by omega))]
      exact h.window j hold (by omega)
    · rw [BitVec.ofNat_toNat, BitVec.setWidth_eq, if_pos rfl, if_pos rfl]
  · rw [hcount] at hj
    rw [hsize] at hfresh ⊢
    have hne : (init + j) % s.dsize.size ≠ (init + s.outCount.toNat) % s.dsize.size :=
      (mod_ne_of_lt (by omega) (by omega)).symm
    rw [hcell, if_neg hne]
    exact h.fresh j (by omega) hfresh

/-- A copied byte is an emitted one (R100). -/
theorem State.Tracks.copied {s : State} {init : Nat} (h : s.Tracks init) (hmem : s.memWf = true)
    (hd : usesDict s = true) (hlt : s.outCount < s.outLimit) : (copied s).Tracks init :=
  (h.emitted hmem hd hlt (dictByte s s.matchSrc)).congr rfl rfl rfl rfl rfl fun _ _ => rfl

/-- A step that emits nothing and stays with the dictionary. -/
theorem State.DictTracks.congr {s t : State} (h : s.DictTracks) (hphase : t.phase.dict = s.phase.dict)
    (hcfg : t.cfg = s.cfg) (hpos : t.dictPos = s.dictPos) (hcount : t.outCount = s.outCount)
    (hsize : t.dsize = s.dsize) (hdict : t.dict = s.dict)
    (hout : ∀ j < s.outCount.toNat, outByte t (BitVec.ofNat 32 j) = outByte s (BitVec.ofNat 32 j)) :
    t.DictTracks := by
  rw [dictTracks_iff] at h ⊢
  intro d hd
  rw [hcfg]
  exact (h d (hphase ▸ hd)).congr hcfg hpos hcount hsize hdict hout

/-- A phase that works on a dictionary belongs to a command that writes it (R99). -/
theorem usesDict_of_phase {s : State} {d : DictSize} (hs : s.Inv) (hd : s.phase.dict = some d) : usesDict s = true := by
  have hop := hs.phaseOp
  cases hp : s.phase with
  | idle | start | crcRun | storeRun =>
    rw [hp] at hd
    cases hd
  | lz4Token | lz4Copy => simp [usesDict, hop 0x7 (by rw [hp]; rfl)]
  | lz8Token | lz8Copy => simp [usesDict, hop 0x8 (by rw [hp]; rfl)]

/-- A literal: input is taken and its byte emitted. -/
theorem Takes.dictTracks_emitted {n : Nat} {s u : State} (h : Takes n s u) (hs : s.Inv) (ht : s.DictTracks)
    (hd : s.phase.decoding = true) (hne : s.outCount ≠ s.outLimit) (b : Byte) : (emitted b u).DictTracks := by
  obtain ⟨pos, buf, count, byte, left, rfl⟩ : ∃ pos buf count byte left, u = { s with
      inPos := pos, brBuf := buf, brCount := count, flagByte := byte, flagLeft := left } := ⟨_, _, _, _, _, h.frame⟩
  rw [dictTracks_iff] at ht ⊢
  intro d hdict
  have huses : usesDict s = true := usesDict_of_phase hs hdict
  have htaken := (ht d hdict).congr
    (t := { s with inPos := pos, brBuf := buf, brCount := count, flagByte := byte, flagLeft := left })
    rfl rfl rfl rfl rfl fun _ _ => rfl
  exact htaken.emitted hs.memories huses (BitVec.lt_of_le_ne (hs.outCount hd) hne) b

/-- A byte of a match, with the phase going back to the token or staying. -/
theorem State.DictTracks.copied {s : State} (ht : s.DictTracks) (hs : s.Inv) (hd : s.phase.decoding = true)
    (hne : s.outCount ≠ s.outLimit) {p : Phase} (hp : p.dict = s.phase.dict) :
    { copied s with phase := p }.DictTracks := by
  rw [dictTracks_iff] at ht ⊢
  intro d hdict
  have hold : s.phase.dict = some d := hp ▸ hdict
  have hcopied := (ht d hold).copied hs.memories (usesDict_of_phase hs hold)
    (BitVec.lt_of_le_ne (hs.outCount hd) hne)
  exact hcopied.congr rfl rfl rfl rfl rfl fun _ _ => rfl

/-- Every engine step keeps the window on the output. -/
theorem EngineStep.dictTracks {s t : State} (h : EngineStep s t) (hs : s.Inv) (ht : s.DictTracks) : t.DictTracks := by
  have hl := hs.lookahead
  cases h with
  | idle => exact ht
  | nop | crcInit | crcByte | crcBuf | brInit | brRead | brShort | decStore | decEmpty | crcEnd | limit | storeEnd
  | lz4NoFlag | lz4NoLiteral | lz4NoPosition | lz4NoLength | lz8NoFlag | lz8NoLiteral | lz8NoMatch =>
    exact dictTracks_of_none rfl
  | crcRun hp | storeRun hp => exact dictTracks_of_none (by simp [emitted, hp, Phase.dict])
  | decLz4k =>
    have hinit : (s.cfg.dict4InitPos.setWidth 13).toNat = s.cfg.dict4InitPos.toNat :=
      BitVec.toNat_setWidth_of_le (by decide)
    have hfresh := tracks_fresh (s := decInit s) (d := .k4) (p := s.cfg.dict4InitPos.setWidth 13)
      (by rw [hinit]; exact s.cfg.dict4InitPos.isLt) rfl
    rw [hinit] at hfresh
    exact hfresh.congr rfl rfl rfl rfl rfl fun _ _ => rfl
  | decLz8k =>
    have hfresh := tracks_fresh (s := decInit s) (d := .k8) (p := s.cfg.dict8InitPos) s.cfg.dict8InitPos.isLt rfl
    exact hfresh.congr rfl rfl rfl rfl rfl fun _ _ => rfl
  | lz4Literal hp ho s1 s2 l h1 h2 =>
    have ht1 := takes_readBits (by decide) hl h1
    exact (ht1.trans (takes_readBits (by decide) ht1.lookahead h2)).dictTracks_emitted hs ht
      (by simp [hp, Phase.decoding]) ho _
  | lz4Match hp ho f p n s1 s2 s3 h1 hf h2 h3 =>
    obtain ⟨_, _, _, rfl⟩ := readBits_moves (by decide) h1
    obtain ⟨_, _, _, rfl⟩ := readBits_moves (by decide) h2
    obtain ⟨_, _, _, rfl⟩ := readBits_moves (by decide) h3
    exact ht.congr (by simp [hp, Phase.dict]) rfl rfl rfl rfl rfl fun _ _ => rfl
  | copy hp ho => exact ht.copied hs (decoding_of_copying hp) ho rfl
  | lz4CopyEnd hp ho | lz8CopyEnd hp ho =>
    exact ht.copied hs (by simp [hp, Phase.decoding]) ho (by simp [hp, Phase.dict])
  | lz8Flag => exact ht.congr rfl rfl rfl rfl rfl rfl fun _ _ => rfl
  | lz8Literal hp ho hf hbit hin b =>
    exact (takes_byte hin hl _ _).dictTracks_emitted hs ht (by simp [hp, Phase.decoding]) ho b
  | lz8Match hp => exact ht.congr (by simp [hp, Phase.dict]) rfl rfl rfl rfl rfl fun _ _ => rfl

/-- While a decode runs the host writes OUT at or past `OUT_LIMIT` only, where nothing is emitted yet (R44). -/
theorem outByte_writeOut {s : State} {i : Word} (b : Byte) (hi : s.outLimit ≤ i) (hs : s.outCount ≤ s.outLimit)
    {j : Nat} (hj : j < s.outCount.toNat) :
    outByte { s with outMem := Mem.set none s.outMem i.toNat b } (BitVec.ofNat 32 j)
      = outByte s (BitVec.ofNat 32 j) := by
  have hpast : s.outLimit.toNat ≤ i.toNat := hi
  have hcount : s.outCount.toNat ≤ s.outLimit.toNat := hs
  have hindex : (BitVec.ofNat 32 j).toNat ≤ j := by
    rw [BitVec.toNat_ofNat]
    exact Nat.mod_le _ _
  exact Mem.lookup_set_ne _ _ _ (by omega)

theorem not_idle_of_dict {p : Phase} {d : DictSize} (h : p.dict = some d) : p ≠ .idle := by
  rintro rfl
  cases h

theorem decoding_of_dict {p : Phase} {d : DictSize} (h : p.dict = some d) : p.decoding = true := by
  cases p with
  | idle | start | crcRun | storeRun => cases h
  | _ => rfl

/-- The host leaves the dictionary and the emitted output of a running decode alone. -/
theorem HostStep.dictTracks {s t : State} (h : HostStep s t) (hs : s.Inv) (ht : s.DictTracks) : t.DictTracks := by
  have hidle (hb : s.busy = false) : s.phase.dict = none := by rw [(busy_eq_false s).mp hb, Phase.dict]
  cases h with
  | accepted => exact dictTracks_of_none rfl
  | inLen hb | outLimit hb | bindIn hb | bindOut hb => exact dictTracks_of_none (hidle hb)
  | writeOut i b hduty =>
    cases hd : s.phase.dict with
    | none => exact dictTracks_of_none hd
    | some d =>
      have hbusy := (busy_eq_true s).mpr (not_idle_of_dict hd)
      have hcount := hs.outCount (decoding_of_dict hd)
      exact ht.congr rfl rfl rfl rfl rfl rfl fun j hj => outByte_writeOut b (hduty hbusy) hcount hj
  | _ => exact ht.congr rfl rfl rfl rfl rfl rfl fun _ _ => rfl

/-- Every step of every agent keeps the window on the output. -/
theorem step_keeps_dictTracks {s t : State} (hs : s.Inv) (ht : s.DictTracks) (h : step s = .next t) :
    t.DictTracks := by
  have hpopped : s.popped.DictTracks := ht.congr rfl rfl rfl rfl rfl rfl fun _ _ => rfl
  rcases step_next_cases h with ⟨-, he⟩ | ⟨op, -, hh⟩ | ⟨-, rfl⟩ | ⟨-, rfl⟩
  · exact he.dictTracks hs.popped hpopped
  · exact hh.dictTracks hs.popped hpopped
  · rw [waitTurn_frame]
    exact ht.congr rfl rfl rfl rfl rfl rfl fun _ _ => rfl
  · exact dictTracks_of_none rfl

/-- Settles O58: an emitted byte moves the window with the output, and no other step of any agent touches either. -/
theorem everyStepKeepsTheDictionaryOnTheOutput : Obligations.EveryStepKeepsTheDictionaryOnTheOutput := by
  unfold Obligations.EveryStepKeepsTheDictionaryOnTheOutput
  exact fun _ _ => step_keeps_dictTracks

end Sys2Proof.Machine
end

section
/-! PROOFS. What the host reads: registers, the bits of `STATUS`, and the interrupt (10_state.md section 2,
40_control.md R63, 60_exceptions.md R128). -/

namespace Sys2Proof.Machine

/-- A host read of an aligned word is the register's value and nothing else (R63). -/
theorem step_reading {s : State} {off : Nat} (hwin : off < windowSize) (halign : off % 4 = 0) :
    step (s.reading off) = .next { s with rdata := readOffset off s } := by
  change hostRegRead 4 (s.cfg.regBase + off) s = _
  rw [hostRegRead, accessOffset_aligned hwin halign]

/-- `BR_STATE` holds the count in its low byte and the buffer above it (R23). -/
theorem toNat_readReg_brState (s : State) :
    (readReg s .brState).toNat = s.brCount.toNat + 2 ^ 8 * s.brBuf.toNat := by
  have hbuf := s.brBuf.isLt
  have hcount := s.brCount.isLt
  have hshift : (s.brBuf.setWidth 32 <<< 8).toNat = s.brBuf.toNat <<< 8 := by
    rw [BitVec.toNat_shiftLeft, BitVec.toNat_setWidth_of_le (by decide), Nat.shiftLeft_eq]
    exact Nat.mod_eq_of_lt (by omega)
  rw [readReg, BitVec.toNat_or, hshift, BitVec.toNat_setWidth_of_le (by decide),
    ← Nat.shiftLeft_add_eq_or_of_lt (by omega), Nat.shiftLeft_eq]
  omega

/-- Settles O6: an aligned read reaches its offset; each register reads its fields. -/
theorem registerReadsReturnTheRegister : Obligations.RegisterReadsReturnTheRegister := by
  unfold Obligations.RegisterReadsReturnTheRegister
  intro s
  have hctrl : (readOffset 0x08 s).toNat = s.irqEn.toNat := by
    change (BitVec.ofNat 32 s.irqEn.toNat).toNat = _
    cases s.irqEn <;> rfl
  have hzero (off : Nat) (h : off = 0x00 ∨ 0x2C ≤ off) : readOffset off s = 0 := by
    obtain rfl | hres := h
    · rfl
    · exact readOffset_reserved s hres
  exact ⟨fun off hwin halign => step_reading hwin halign, hzero, rfl, hctrl, rfl, rfl, rfl, rfl,
    BitVec.toNat_setWidth_of_le (by decide), BitVec.toNat_setWidth_of_le (by decide), toNat_readReg_brState s,
    BitVec.toNat_setWidth_of_le (by decide)⟩

/-- Bits 3:2 of `STATUS` are the STOP code (R15). -/
theorem extractLsb'_statusWord_stop (s : State) : (statusWord s).extractLsb' 2 2 = BitVec.ofNat 2 s.stop.code := by
  apply BitVec.eq_of_getLsbD_eq
  intro i hi
  rw [BitVec.getLsbD_extractLsb', getLsbD_statusWord, BitVec.getLsbD_ofNat]
  interval_cases i <;> rfl

/-- Settles O12: DONE is bit 1 of `STATUS`, IRQ_EN bit 0 of `CTRL`. -/
theorem interruptIsDoneAndEnabled : Obligations.InterruptIsDoneAndEnabled := by
  unfold Obligations.InterruptIsDoneAndEnabled
  intro s
  have hdone : (readOffset 0x04 s).getLsbD 1 = s.done := getLsbD_statusWord s 1
  have hen : (readOffset 0x08 s).getLsbD 0 = s.irqEn := by
    change (BitVec.ofNat 32 s.irqEn.toNat).getLsbD 0 = _
    cases s.irqEn <;> rfl
  refine ⟨by rw [hdone, hen, irq], by simp [irqAt], fun line hline => by simp [irqAt, hline]⟩

end Sys2Proof.Machine

namespace Sys2Proof

/-- Settles O7: bit by bit, the two STOP bits as one number. -/
theorem statusBits : Obligations.StatusBits := by
  unfold Obligations.StatusBits
  intro s
  simp only [Machine.getLsbD_statusWord, Machine.extractLsb'_statusWord_stop]
  refine ⟨rfl, rfl, ?_, rfl, rfl, rfl, fun b hb => List.getD_eq_default _ _ hb⟩
  cases s.stop <;> rfl

end Sys2Proof
end

section
/-! PROOFS. A command is accepted, and the engine's next step runs it (40_control.md R67, R70, R71). -/

namespace Sys2Proof.Machine

/-- The commands that use IN, by number (R143 step 2). -/
theorem usesInput_iff (op : BitVec 4) : usesInput op = true ↔ op.toNat = 3 ∨ 5 ≤ op.toNat ∧ op.toNat ≤ 8 := by
  revert op
  decide

/-- The commands that use OUT, by number (R143 step 2). -/
theorem usesOutput_iff_toNat (op : BitVec 4) : usesOutput op = true ↔ 6 ≤ op.toNat ∧ op.toNat ≤ 8 := by
  revert op
  decide

/-- A legal word that uses OUT is one of the three decodes' (R51, R143 step 2). -/
theorem word_of_usesOutput {w : Word} (hlegal : legal w = true) (huses : usesOutput (opField w) = true) :
    w = 0x00000006 ∨ w = 0x00000007 ∨ w = 0x00000008 := by
  rcases legal_cases hlegal with ⟨o, -, -, -, rfl⟩ | ⟨d, rfl⟩ | ⟨n, -, -, rfl⟩
  · rw [opField_commandWord, usesOutput_iff] at huses
    obtain rfl | rfl | rfl := huses <;> decide
  · rw [opField_commandWord] at huses
    cases huses
  · rw [opField_commandWord] at huses
    cases huses

/-- The test against `MAX_OUT` does not refuse a command within its limit. -/
theorem not_over_limit {s : State} {w : Word}
    (hlimit : usesOutput (opField w) = true → s.outLimit.toNat ≤ s.cfg.maxOut) :
    ¬ (boundedCommand w = true ∧ s.cfg.maxOut < s.outLimit.toNat) :=
  fun ⟨hbounded, hover⟩ => Nat.not_lt.mpr (hlimit hbounded) hover

/-- While idle a legal word within its limit, its buffers bound, is accepted (R67). -/
theorem commandTurn_accepted {s : State} {w : Word} (hidle : s.busy = false) (hlegal : legal w = true)
    (hlimit : usesOutput (opField w) = true → s.outLimit.toNat ≤ s.cfg.maxOut) (hissue : issueFault w s = none) :
    commandTurn w s = .done (.next (accept w s)) := by
  simp [commandTurn, hidle, hlegal, not_over_limit hlimit, hissue]

/-- OP, N and DATA as numbers (R49). -/
theorem toNat_fields (w : Word) :
    (opField w).toNat = w.toNat % 2 ^ 4 ∧ (nField w).toNat = w.toNat / 2 ^ 4 % 2 ^ 5
      ∧ (dataField w).toNat = w.toNat / 2 ^ 16 % 2 ^ 8 := by
  refine ⟨(toNat_extractLsb' w 0 4).trans ?_, toNat_extractLsb' w 4 5, toNat_extractLsb' w 16 8⟩
  rw [Nat.pow_zero, Nat.div_one]

/-- Settles O16: the word passes every test of the command turn, and `accept` latches its fields. -/
theorem legalCommandIsAccepted : Obligations.LegalCommandIsAccepted := by
  unfold Obligations.LegalCommandIsAccepted
  intro s w hidle hlegal hmem hout hin
  obtain ⟨hop, hn, hdata⟩ := toNat_fields w
  have hlimit (huses : usesOutput (opField w) = true) := hout (word_of_usesOutput hlegal huses)
  have hissue : issueFault w s = none := by
    refine issueFault_of_bound hmem (fun huses => hin ?_) fun huses => (hlimit huses).2
    rwa [usesInput_iff, hop] at huses
  refine ⟨accept w s, ?_, rfl, rfl, hop, hn, hdata⟩
  have hstep : step (s.writing 0x00 w) = runTurn (commandTurn w s) := step_writing_cmd s w
  rw [hstep, commandTurn_accepted hidle hlegal (fun huses => (hlimit huses).1) hissue]
  rfl

/-- In `START` the engine's turn is the latched command (R71). -/
theorem step_start {s : State} (hp : s.phase = .start) (hlegal : legal (latchedWord s) = true) :
    step (s.withTurn .engine) = exec (decodeCommand (latchedWord s)) s := by
  have hfetch : engineTurn s = .run (decodeCommand (latchedWord s)) s := by rw [engineTurn, hp, fetchCommand, hlegal]
  rw [step_withTurn_engine, hfetch, runTurn]

/-- Settles O17: what is latched is the whole word. -/
theorem acceptedCommandRunsNext : Obligations.AcceptedCommandRunsNext := by
  unfold Obligations.AcceptedCommandRunsNext
  intro s w hlegal
  have hword := latchedWord_accept hlegal s
  rw [step_start rfl (hword.symm ▸ hlegal), hword]

/-- Settles O18: an empty schedule and an engine turn are the same turn. -/
theorem stepRunsTheLatchedCommand : Obligations.StepRunsTheLatchedCommand := by
  unfold Obligations.StepRunsTheLatchedCommand
  refine ⟨fun s i hp hlegal hi => ?_, fun s hnil => ?_⟩
  · rw [step_start hp hlegal, hi]
  · rw [step_of_nil hnil, step_withTurn_engine]

/-- Settles O19: `IDLE` enables no step. -/
theorem idleEngineKeepsAllState : Obligations.IdleEngineKeepsAllState := by
  unfold Obligations.IdleEngineKeepsAllState
  intro s hp
  have hturn : engineTurn s = .done (.next s) := by rw [engineTurn, hp]
  refine ⟨?_, fun hnil => ?_⟩
  · rw [step_withTurn_engine, hturn, runTurn]
  · rw [step_of_nil hnil, hturn, runTurn]

end Sys2Proof.Machine
end

section
/-! PROOFS. What each command's START step does, and the steps of `CRC_RUN` and `STORE_RUN` (41_crc.md R87, R88,
42_bit_extractor.md R95, 43_decode_common.md R105 to R107, 44_lzss4k.md R109, 45_lzss8k.md R115). -/

namespace Sys2Proof.Machine

/-! ## `CRC_BUF` -/

/-- R87: from the first byte on. -/
theorem exec_crcBuf (s : State) : exec .crcBuf s = .next { s with crcIdx := 0, phase := .crcRun } := rfl

/-- R88, all bytes read. -/
theorem crcRunStep_end {s : State} (h : s.inLen ≤ s.crcIdx) : crcRunStep s = .next (finish s) := if_pos h

/-- R88, one byte. -/
theorem crcRunStep_byte {s : State} {b : Byte} (h : s.crcIdx < s.inLen) (hb : inByte s s.crcIdx = some b) :
    crcRunStep s = .next { s with crcAcc := crcStep s.crcAcc b, crcIdx := s.crcIdx + 1 } := by
  rw [crcRunStep, if_neg (BitVec.not_le.mpr h), hb]

/-- R88, the byte at `CRC_IDX` not bound (log 6). -/
theorem crcRunStep_notBound {s : State} (h : s.crcIdx < s.inLen) (hb : inByte s s.crcIdx = none) :
    crcRunStep s = .fault .inputNotBound := by
  rw [crcRunStep, if_neg (BitVec.not_le.mpr h), hb]

theorem engineTurn_crcRun {s : State} (h : s.phase = .crcRun) : engineTurn s = .done (crcRunStep s) := by
  rw [engineTurn, h]

/-- Settles O22: the START step by definition, the two steps of the phase by its guard. -/
theorem crcBufReadsOneByteAStep : Obligations.CrcBufReadsOneByteAStep := by
  unfold Obligations.CrcBufReadsOneByteAStep
  intro s
  refine ⟨exec_crcBuf s, fun hp hend => ?_, fun b hp hlt hb => ?_⟩
  · rw [step_withTurn_engine, engineTurn_crcRun hp, runTurn, crcRunStep_end hend, finish]
  · rw [step_withTurn_engine, engineTurn_crcRun hp, runTurn, crcRunStep_byte hlt hb]

/-! ## `BR_READ` with too few bits -/

theorem exec_brRead (n : BitVec 5) (s : State) : exec (.brRead n) s = execBrRead n s := rfl

/-- Settles O25: the read is short, which raises the condition and finishes. -/
theorem brReadShortConsumesNothing : Obligations.BrReadShortConsumesNothing := by
  unfold Obligations.BrReadShortConsumesNothing
  intro n s _ _ hshort
  rw [exec_brRead, execBrRead, readBits_short_iff.mpr hshort]
  rfl

/-! ## The decodes' START steps -/

theorem exec_decStore (s : State) : exec .decStore s = .next { decInit s with phase := .storeRun } := rfl

theorem exec_decEmpty (s : State) : exec .decEmpty s = .next (finishWith .empty (decInit s)) := rfl

theorem exec_decLz4k (s : State) : exec .decLz4k s
    = .next { dictInit .k4 (s.cfg.dict4InitPos.setWidth 13) (decInit s) with phase := .lz4Token } := rfl

theorem exec_decLz8k (s : State) :
    exec .decLz8k s = .next { dictInit .k8 s.cfg.dict8InitPos (decInit s) with phase := .lz8Token } := rfl

/-- Settles O26: `dec_init` and `finish(EMPTY)`, field by field. -/
theorem decEmptyEndsAtOnce : Obligations.DecEmptyEndsAtOnce := by
  unfold Obligations.DecEmptyEndsAtOnce
  intro s
  rw [exec_decEmpty, finishWith, decInit]

/-- Settles O27: `dec_init` and, for the two dictionary decodes, `dict_init`, which lists no cell. -/
theorem decodesStartFresh : Obligations.DecodesStartFresh := by
  unfold Obligations.DecodesStartFresh
  intro s
  have hpos : (s.cfg.dict4InitPos.setWidth 13).toNat = s.cfg.dict4InitPos.toNat :=
    BitVec.toNat_setWidth_of_le (by decide)
  exact ⟨exec_decStore s, ⟨_, exec_decLz4k s, fun _ => rfl, hpos, rfl⟩,
    ⟨_, exec_decLz8k s, fun _ => rfl, rfl⟩⟩

/-! ## `STORE_RUN` -/

theorem engineTurn_storeRun {s : State} (h : s.phase = .storeRun) : engineTurn s = .done (storeRunStep s) := by
  rw [engineTurn, h]

/-- R106, input used up. -/
theorem storeRunStep_end {s : State} (hroom : s.outCount ≠ s.outLimit) (h : s.inLen ≤ s.inPos) :
    storeRunStep s = .next (finishWith .exhaust s) := by
  rw [storeRunStep, if_neg hroom, if_pos h]

/-- R106, the byte at `IN_POS` not bound (log 6). -/
theorem storeRunStep_notBound {s : State} (hroom : s.outCount ≠ s.outLimit) (h : s.inPos < s.inLen)
    (hb : inByte s s.inPos = none) : storeRunStep s = .fault .inputNotBound := by
  rw [storeRunStep, if_neg hroom, if_neg (BitVec.not_le.mpr h), hb]

/-- R106, the byte at `IN_POS` bound: it is emitted. -/
theorem storeRunStep_emit {s : State} {b : Byte} (hroom : s.outCount ≠ s.outLimit) (h : s.inPos < s.inLen)
    (hb : inByte s s.inPos = some b) :
    storeRunStep s = orOutputNotBound (emit b { s with inPos := s.inPos + 1 }) := by
  rw [storeRunStep, if_neg hroom, if_neg (BitVec.not_le.mpr h), hb]

/-- R106, one byte. -/
theorem storeRunStep_byte {s : State} {b : Byte} (hroom : s.outCount ≠ s.outLimit) (h : s.inPos < s.inLen)
    (hb : inByte s s.inPos = some b) (hout : (outByte s s.outCount).isSome) :
    storeRunStep s = .next (emitted b { s with inPos := s.inPos + 1 }) := by
  rw [storeRunStep_emit hroom h hb, emit_of_bound (s := { s with inPos := s.inPos + 1 }) b hout, orOutputNotBound]

/-- Outside the dictionary decodes an emitted byte goes to OUT alone (R99). -/
theorem emitted_of_not_usesDict {s : State} (b : Byte) (h : usesDict s = false) :
    emitted b s
      = { s with outMem := Mem.set none s.outMem s.outCount.toNat b, outCount := s.outCount + 1 } := by
  simp [emitted, h]

/-- Settles O28: the byte is emitted, and `DEC_STORE` writes no dictionary. -/
theorem storeRunStepCopiesOneByte : Obligations.StoreRunStepCopiesOneByte := by
  unfold Obligations.StoreRunStepCopiesOneByte
  intro s b hmem hp hop hroom hin hb hout
  have hdict : usesDict { s with inPos := s.inPos + 1 } = false := by simp [usesDict, hop]
  refine ⟨emitted b { s with inPos := s.inPos + 1 }, ?_, ?_, fun i => ?_⟩
  · rw [step_withTurn_engine, engineTurn_storeRun hp, runTurn, storeRunStep_byte hroom hin hb hout]
  · rw [emitted_of_not_usesDict b hdict]
  · exact outByte_emitted (s := { s with inPos := s.inPos + 1 }) hmem b i

end Sys2Proof.Machine
end

section
/-! PROOFS. What the tokens and a byte of a match do (43_decode_common.md R99, R100, 44_lzss4k.md R111 to R113,
45_lzss8k.md R116 to R119). -/

namespace Sys2Proof.Machine

theorem exec_lz4Literal (b : Byte) (s : State) : exec (.lz4Literal b) s = orOutputNotBound (emit b s) := rfl

theorem exec_lz8Literal (b : Byte) (s : State) : exec (.lz8Literal b) s = orOutputNotBound (emit b s) := rfl

/-- `CUR_OP in {DEC_LZ4K, DEC_LZ8K}` (R99). -/
theorem usesDict_iff (s : State) : usesDict s = true ↔ s.curOp = 0x7#4 ∨ s.curOp = 0x8#4 := by
  simp [usesDict]

/-- Where the write position stands after a byte is emitted (R99). -/
theorem toNat_dictPos_emitted (b : Byte) (s : State) : (emitted b s).dictPos.toNat
    = if usesDict s = true then (s.dictPos.toNat + 1) % s.dsize.size else s.dictPos.toNat := by
  by_cases hd : usesDict s = true
  · simp [emitted, hd, toNat_nextIdx]
  · simp [emitted, hd]

/-- Settles O29: both literals emit their byte. -/
theorem literalTokensEmitTheirByte : Obligations.LiteralTokensEmitTheirByte := by
  unfold Obligations.LiteralTokensEmitTheirByte
  intro b s hmem hout
  have hemit : orOutputNotBound (emit b s) = .next (emitted b s) := by rw [emit_of_bound b hout, orOutputNotBound]
  simp only [← usesDict_iff]
  exact ⟨emitted b s, (exec_lz4Literal b s).trans hemit, (exec_lz8Literal b s).trans hemit, rfl,
    outByte_emitted hmem b, dictByte_emitted hmem b, toNat_dictPos_emitted b s⟩

theorem exec_lz4Match (p : BitVec 12) (n : BitVec 4) (s : State) : exec (.lz4Match p n) s
    = .next { s with matchSrc := p.setWidth 13, matchRem := matchLength n, phase := .lz4Copy } := rfl

/-- Settles O30: the position is a dictionary index as it stands. -/
theorem lz4MatchSetsUpTheCopy : Obligations.Lz4MatchSetsUpTheCopy := by
  unfold Obligations.Lz4MatchSetsUpTheCopy
  intro p n s
  exact ⟨_, exec_lz4Match p n s, rfl, BitVec.toNat_setWidth_of_le (by decide)⟩

theorem exec_lz8Flag (f : Byte) (s : State) : exec (.lz8Flag f) s = .next { s with flagByte := f, flagLeft := 8 } := rfl

theorem exec_lz8Match (o : BitVec 12) (n : BitVec 4) (s : State) : exec (.lz8Match o n) s
    = .next { s with matchSrc := matchSource8 s.dictPos o, matchRem := matchLength n, phase := .lz8Copy } := rfl

/-- Settles O31: the source of the match is R58's. -/
theorem lz8FlagAndMatchSetUpTheGroup : Obligations.Lz8FlagAndMatchSetUpTheGroup := by
  unfold Obligations.Lz8FlagAndMatchSetUpTheGroup
  exact fun s => ⟨fun f => exec_lz8Flag f s,
    fun o n => ⟨_, exec_lz8Match o n s, rfl, toNat_matchSource8 s.dictPos o⟩⟩

/-- The token phase of a copying one (R113, R119). -/
def Phase.token (p : Phase) : Phase := if p = .lz4Copy then .lz4Token else .lz8Token

theorem engineTurn_copying {s : State} (h : s.phase.copying = true) :
    engineTurn s = .done (copyStep s.phase.token s) := by
  unfold engineTurn
  cases hp : s.phase with
  | lz4Copy | lz8Copy => rfl
  | _ =>
    rw [hp] at h
    cases h

/-- The state after a copy step with room left (R113, R119). -/
def copyStepped (s : State) : State :=
  { copied s with phase := if s.matchRem ≤ 1 then s.phase.token else s.phase }

theorem copyStep_byte {s : State} (hroom : s.outCount ≠ s.outLimit) (hout : (outByte s s.outCount).isSome) :
    copyStep s.phase.token s = .next (copyStepped s) := by
  have hrem : (copied s).matchRem = 0 ↔ s.matchRem ≤ 1 := Nat.sub_eq_zero_iff_le
  rw [copyStep, if_neg hroom, copyByte_of_bound hout, copyStepped]
  by_cases hlast : s.matchRem ≤ 1
  · simp only [hrem, hlast, if_true]
  · simp only [hrem, hlast, if_false]
    rfl

theorem copyStep_notBound {s : State} (token : Phase) (hroom : s.outCount ≠ s.outLimit)
    (hout : outByte s s.outCount = none) : copyStep token s = .fault .outputNotBound := by
  rw [copyStep, if_neg hroom, copyByte_of_not_bound hout]

/-- The engine's turn in a copying phase with room left. -/
theorem step_copying {s : State} (hp : s.phase.copying = true) (hroom : s.outCount ≠ s.outLimit)
    (hout : (outByte s s.outCount).isSome) : step (s.withTurn .engine) = .next (copyStepped s) := by
  rw [step_withTurn_engine, engineTurn_copying hp, runTurn, copyStep_byte hroom hout]

/-- Settles O32: the copied byte is an emitted one, with both indices advanced. -/
theorem copyStepCopiesOneByte : Obligations.CopyStepCopiesOneByte := by
  unfold Obligations.CopyStepCopiesOneByte
  intro s hmem hphase hdict hroom hout
  have hp : s.phase.copying = true := by
    obtain hp | hp := hphase <;> rw [hp] <;> rfl
  have hcell (i : DictIdx) :
      dictByte (copyStepped s) i = if i = s.dictPos then dictByte s s.matchSrc else dictByte s i := by
    have h := dictByte_emitted hmem (dictByte s s.matchSrc) i
    simp only [hdict, true_and] at h
    exact h
  have hpos : (copyStepped s).dictPos.toNat = (s.dictPos.toNat + 1) % s.dsize.size := by
    have h := toNat_dictPos_emitted (dictByte s s.matchSrc) s
    simp only [hdict, if_true] at h
    exact h
  exact ⟨copyStepped s, step_copying hp hroom hout, rfl, outByte_emitted hmem _, hcell, hpos, toNat_nextIdx _ _⟩

end Sys2Proof.Machine
end

section
/-! PROOFS. The item at `IN_POS` in `LZ8_TOKEN` (45_lzss8k.md R116 to R118). -/

namespace Sys2Proof.Machine

/-- Below the output limit the input is taken (R101). -/
theorem underLimit_below {s : State} (hroom : s.outCount ≠ s.outLimit) (f : Fetched) : underLimit s f = f :=
  if_neg hroom

theorem withByte_of_bound {s : State} {b : Byte} {k : Byte → State → Fetched} (hb : inByte s s.inPos = some b) :
    withByte s k = k b { s with inPos := s.inPos + 1 } := by
  rw [withByte, hb]

theorem withByte_of_not_bound {s : State} {k : Byte → State → Fetched} (hb : inByte s s.inPos = none) :
    withByte s k = .done (.fault .inputNotBound) := by
  rw [withByte, hb]

section Room
variable {s : State} (hroom : s.outCount ≠ s.outLimit)
include hroom

/-- R116: no flag bit left, and a flag byte to read. -/
theorem fetchLz8_flag (hleft : s.flagLeft = 0) (hin : s.inPos < s.inLen) :
    fetchLz8 s = withByte s fun f s1 => .run (.lz8Flag f) s1 := by
  rw [fetchLz8, underLimit_below hroom, if_pos hleft, if_neg (BitVec.not_le.mpr hin)]

/-- R116: no flag bit left, and no byte. -/
theorem fetchLz8_noFlag (hleft : s.flagLeft = 0) (hend : s.inLen ≤ s.inPos) : fetchLz8 s = exhausted s := by
  rw [fetchLz8, underLimit_below hroom, if_pos hleft, if_pos hend]

/-- R117: flag bit 1, and a byte to read. -/
theorem fetchLz8_literal (hleft : s.flagLeft ≠ 0) (hbit : s.flagByte.getLsbD 0 = true) (hin : s.inPos < s.inLen) :
    fetchLz8 s = withByte (useFlag s) fun b s1 => .run (.lz8Literal b) s1 := by
  rw [fetchLz8, underLimit_below hroom, if_neg hleft, if_pos hbit, if_neg (BitVec.not_le.mpr hin)]

/-- R118: flag bit 0, and two bytes to read. -/
theorem fetchLz8_match (hleft : s.flagLeft ≠ 0) (hbit : s.flagByte.getLsbD 0 = false)
    (hin : s.inPos.toNat + 2 ≤ s.inLen.toNat) :
    fetchLz8 s = withByte (useFlag s) fun b1 s1 => withByte s1 fun b2 s2 => .run (lz8MatchOf b1 b2) s2 := by
  rw [fetchLz8, underLimit_below hroom, if_neg hleft, if_neg (by rw [hbit]; decide), if_neg (by omega)]

/-- R117, R118: the token's bytes are not there (a match takes neither of its two, log 14). -/
theorem fetchLz8_noToken (hleft : s.flagLeft ≠ 0)
    (hend : if s.flagByte.getLsbD 0 = true then s.inLen ≤ s.inPos else s.inLen.toNat < s.inPos.toNat + 2) :
    fetchLz8 s = exhausted (useFlag s) := by
  rw [fetchLz8, underLimit_below hroom, if_neg hleft]
  by_cases hbit : s.flagByte.getLsbD 0 = true
  · rw [if_pos hbit] at hend
    rw [if_pos hbit, if_pos hend]
  · rw [if_neg hbit] at hend
    rw [if_neg hbit, if_pos (by omega)]

end Room

/-- A match's two bytes as they lie in memory are its operands' bytes (R57, R58). -/
theorem decodeBytes_tok8Match (b1 b2 : Byte) : decodeBytes .tok8Match [b1, b2] = .ok (lz8MatchOf b1 b2) := by
  have hlow : BitVec.ofNat 8 (ofLE [b1, b2]) = b1 := by
    apply BitVec.eq_of_toNat_eq
    have := b1.isLt
    simp only [ofLE, BitVec.toNat_ofNat]
    omega
  have hhigh : BitVec.ofNat 8 (ofLE [b1, b2] / 256) = b2 := by
    apply BitVec.eq_of_toNat_eq
    have := b1.isLt
    have := b2.isLt
    simp only [ofLE, BitVec.toNat_ofNat]
    omega
  simp [decodeBytes, decode, hlow, hhigh]

theorem engineTurn_lz8Token {s : State} (h : s.phase = .lz8Token) : engineTurn s = fetchLz8 s := by
  rw [engineTurn, h]

/-- Settles O36: each clause is one case of the fetch. -/
theorem stepRunsTheLz8ItemAtInPos : Obligations.StepRunsTheLz8ItemAtInPos := by
  unfold Obligations.StepRunsTheLz8ItemAtInPos
  intro s hp hroom
  rw [step_withTurn_engine, engineTurn_lz8Token hp]
  refine ⟨fun hleft f hin hb => ?_, fun hleft hend => ?_, fun hleft hbit b hin hb => ?_,
    fun hleft hbit b1 b2 i hin hb1 hb2 hi => ?_, fun hleft hend => ?_⟩
  · rw [fetchLz8_flag hroom hleft hin, withByte_of_bound hb, runTurn]
  · rw [fetchLz8_noFlag hroom hleft hend, exhausted, runTurn, finishWith]
  · rw [fetchLz8_literal hroom hleft hbit hin, withByte_of_bound (s := useFlag s) hb, runTurn]
    rfl
  · rw [decodeBytes_tok8Match, Except.ok.injEq] at hi
    have htwo : s.inPos + 1 + 1 = s.inPos + 2 := BitVec.add_assoc _ _ _
    have htaken : fetchLz8 s = .run i { useFlag s with inPos := s.inPos + 1 + 1 } := by
      rw [fetchLz8_match hroom hleft hbit hin, withByte_of_bound (s := useFlag s) hb1, ← hi]
      exact withByte_of_bound hb2
    rw [htaken, runTurn, htwo]
    rfl
  · rw [fetchLz8_noToken hroom hleft hend, exhausted, runTurn]
    rfl

end Sys2Proof.Machine
end

section
/-! PROOFS. The bit cursor (42_bit_extractor.md R89 to R93): a read takes the next bits of the stream, pulls only the
bytes it needs, and two reads are one wider read. -/

namespace Sys2Proof.Machine

/-! ## Pulling a byte and dropping bits, on the stream -/

/-- A pulled byte stands in the stream where it stood before (R33, R91). -/
theorem streamBit_pulled {s : State} {b : Byte} (hin : s.inPos < s.inLen) (hb : inByte s s.inPos = some b)
    (hcount : s.brCount.toNat < 16) (htop : s.brBuf >>> s.brCount.toNat = 0) (k : Nat) :
    streamBit (pulled b s) k = streamBit s k := by
  have hpos : (pulled b s).inPos.toNat = s.inPos.toNat + 1 := toNat_add_one hin
  have hlt : s.inPos.toNat < s.inLen.toNat := hin
  have hlen : (pulled b s).inLen = s.inLen := rfl
  have hmem : (pulled b s).inMem = s.inMem := rfl
  have hbyte : Mem.lookup s.inMem s.inPos.toNat = some b := hb
  have hclear := (bufferTop_iff s).mp htop
  have hbuf : (pulled b s).brBuf.getLsbD k
      = (s.brBuf.getLsbD k
        || (decide (k < 24) && !decide (k < s.brCount.toNat) && b.getLsbD (k - s.brCount.toNat))) := by
    simp only [pulled, BitVec.getLsbD_or, BitVec.getLsbD_shiftLeft, BitVec.getLsbD_setWidth]
    by_cases hk : k - s.brCount.toNat < 24
    · simp [hk]
    · simp [hk, BitVec.getLsbD_of_ge b (k - s.brCount.toNat) (by omega)]
  simp only [streamBit, pulled_brCount b hcount, hpos, hlen, hmem, hbuf]
  by_cases hheld : k < s.brCount.toNat
  · simp [hheld, Nat.lt_add_right 8 hheld]
  by_cases hnew : k < s.brCount.toNat + 8
  · have hzero : (k - s.brCount.toNat) / 8 = 0 := by omega
    have hself : (k - s.brCount.toNat) % 8 = k - s.brCount.toNat := by omega
    have hwide : k < 24 := by omega
    rw [hclear k (by omega)]
    simp [hheld, hnew, hzero, hself, hlt, hbyte, hwide]
  · have hbyteIndex :
        s.inPos.toNat + 1 + (k - (s.brCount.toNat + 8)) / 8 = s.inPos.toNat + (k - s.brCount.toNat) / 8 := by
      omega
    have hbitIndex : (k - (s.brCount.toNat + 8)) % 8 = (k - s.brCount.toNat) % 8 := by omega
    simp [hheld, hnew, hbyteIndex, hbitIndex]

/-- Dropped bits are gone from the front of the stream. -/
theorem streamBit_dropped {n : Nat} {s : State} (hn : n ≤ 16) (hheld : n ≤ s.brCount.toNat) (k : Nat) :
    streamBit (dropped n s) k = streamBit s (k + n) := by
  have hcount := dropped_brCount hn hheld
  have hpos : (dropped n s).inPos = s.inPos := rfl
  have hlen : (dropped n s).inLen = s.inLen := rfl
  have hmem : (dropped n s).inMem = s.inMem := rfl
  have hbuf : (dropped n s).brBuf.getLsbD k = s.brBuf.getLsbD (k + n) := by
    rw [dropped, BitVec.getLsbD_ushiftRight, Nat.add_comm]
  have hindex : k - (s.brCount.toNat - n) = k + n - s.brCount.toNat := by omega
  have hiff : k < s.brCount.toNat - n ↔ k + n < s.brCount.toNat := by omega
  simp only [streamBit, hcount, hpos, hlen, hmem, hbuf, hindex, hiff]

/-- Bits that are held are the buffer's low ones. -/
theorem streamValue_of_held {n : Nat} {s : State} (hheld : n ≤ s.brCount.toNat) :
    streamValue s n = s.brBuf.toNat % 2 ^ n := by
  induction n with
  | zero => simp [streamValue, Nat.mod_one]
  | succ n ih =>
    have hbit : streamBit s n = some (s.brBuf.toNat.testBit n) := if_pos hheld
    rw [streamValue, ih (by omega), hbit, Nat.mod_pow_succ, ← Nat.toNat_testBit]
    rfl

/-- The value is that of the bits. -/
theorem streamValue_congr {s t : State} (h : ∀ k, streamBit t k = streamBit s k) (n : Nat) :
    streamValue t n = streamValue s n := by
  induction n with
  | zero => rfl
  | succ n ih => rw [streamValue, streamValue, ih, h]

/-- A value of `n + m` bits is the first `n` and then the `m` past them. -/
theorem streamValue_add {n : Nat} {s t : State} (h : ∀ k, streamBit t k = streamBit s (k + n)) (m : Nat) :
    streamValue s (n + m) = streamValue s n + 2 ^ n * streamValue t m := by
  induction m with
  | zero => simp [streamValue]
  | succ m ih =>
    rw [← Nat.add_assoc, streamValue, ih, streamValue, h, Nat.add_comm m n]
    ring

theorem streamValue_lt (s : State) (n : Nat) : streamValue s n < 2 ^ n := by
  induction n with
  | zero => exact Nat.one_pos
  | succ n ih =>
    have hbit : ((streamBit s n).getD false).toNat ≤ 1 := Bool.toNat_le _
    have hscaled := Nat.mul_le_mul_left (2 ^ n) hbit
    rw [streamValue, Nat.pow_succ]
    omega

/-- The flag bit of a 4 KB token as a number. -/
theorem streamValue_one_iff (s : State) : streamValue s 1 = 1 ↔ streamBit s 0 = some true := by
  simp only [streamValue, Nat.pow_zero, Nat.one_mul, Nat.zero_add]
  cases streamBit s 0 with
  | none => simp
  | some b => cases b <;> simp

/-! ## A read -/

/-- `t` is `s` with the next `n` bits of the stream consumed: nothing but the cursor moves, by whole bytes, and at most
7 bits are held. -/
structure Consumed (n : Nat) (s t : State) : Prop extends CursorMoved n s t where
  frame : t = { s with brBuf := t.brBuf, brCount := t.brCount, inPos := t.inPos }
  later : s.inPos.toNat ≤ t.inPos.toNat
  moved : t.brCount.toNat + n = s.brCount.toNat + 8 * (t.inPos.toNat - s.inPos.toNat)

/-- Nothing consumed. -/
theorem Consumed.refl {s : State} (hl : s.brCount.toNat ≤ 7) (htop : s.brBuf >>> s.brCount.toNat = 0) :
    Consumed 0 s s :=
  ⟨⟨fun _ => rfl, rfl, hl, htop⟩, rfl, Nat.le_refl _, by omega⟩

theorem Consumed.trans {n m : Nat} {s t u : State} (h : Consumed n s t) (h' : Consumed m t u) :
    Consumed (n + m) s u := by
  have hstream (k : Nat) : streamBit u k = streamBit s (k + (n + m)) := by
    rw [h'.stream, h.stream, Nat.add_assoc, Nat.add_comm m n]
  have havail := h.avail
  have havail' := h'.avail
  have hmoved := h.moved
  have hmoved' := h'.moved
  have hlater := h.later
  have hlater' := h'.later
  refine ⟨⟨hstream, by omega, h'.lookahead, h'.top⟩, h'.frame.trans ?_, by omega, by omega⟩
  rw [h.frame]

theorem Consumed.inBound {n : Nat} {s t : State} (h : Consumed n s t) (hs : s.inBound) : t.inBound := by
  rw [h.frame]
  exact hs

/-- What is left in the cursor is determined by how many bits were consumed. -/
theorem Consumed.unique {n : Nat} {s t u : State} (ht : Consumed n s t) (hu : Consumed n s u) : t = u := by
  have hpos : t.inPos = u.inPos ∧ t.brCount = u.brCount := by
    have hmoved := ht.moved
    have hmoved' := hu.moved
    have hlater := ht.later
    have hlater' := hu.later
    have hl := ht.lookahead
    have hl' := hu.lookahead
    exact ⟨BitVec.eq_of_toNat_eq (by omega), BitVec.eq_of_toNat_eq (by omega)⟩
  obtain ⟨hpos, hcount⟩ := hpos
  have hbuf : t.brBuf = u.brBuf := by
    apply BitVec.eq_of_getLsbD_eq
    intro k _
    by_cases hk : k < t.brCount.toNat
    · have hbit : streamBit t k = streamBit u k := (ht.stream k).trans (hu.stream k).symm
      simpa [streamBit, hk, ← hcount] using hbit
    · have hclear := (bufferTop_iff t).mp ht.top k (Nat.le_of_not_lt hk)
      have hclear' := (bufferTop_iff u).mp hu.top k (hcount ▸ Nat.le_of_not_lt hk)
      rw [hclear, hclear']
  rw [ht.frame, hu.frame, hpos, hcount, hbuf]

/-- A successful read returns the next bits of the stream, the first least significant, and consumes them (R91). -/
theorem readBits_consumed {n : Nat} {s t : State} {v : Half} (hn : n ≤ 16) (hl : s.brCount.toNat ≤ 7)
    (htop : s.brBuf >>> s.brCount.toNat = 0) (h : readBits n s = .ok v t) :
    v.toNat = streamValue s n ∧ Consumed n s t := by
  obtain ⟨hlater, hmoved, hheld, -⟩ := readBits_cursor hn h
  have htaken := takes_readBits hn hl h
  have hclear := bufferTop_readBits hn h htop
  have hframe := readBits_frame hn h
  obtain ⟨havail, u, hu, rfl, rfl⟩ := readBits_eq_ok h
  have hpulled : n ≤ u.brCount.toNat ∧ ∀ k, streamBit u k = streamBit s k := by
    unfold availBits at havail
    rcases pullTo_cases hn hu with ⟨h0, rfl⟩ | ⟨h0, h1, b, hb, rfl⟩ | ⟨h0, b, b', hb, hb', rfl⟩
    · exact ⟨h0, fun _ => rfl⟩
    · have hin : s.inPos < s.inLen := show s.inPos.toNat < s.inLen.toNat by omega
      rw [pulled_brCount b (by omega)]
      exact ⟨h1, streamBit_pulled hin hb (by omega) htop⟩
    · have hin : s.inPos < s.inLen := show s.inPos.toNat < s.inLen.toNat by omega
      have hpos := toNat_add_one hin
      have hin' : (pulled b s).inPos < (pulled b s).inLen := show (s.inPos + 1).toNat < s.inLen.toNat by omega
      have hcount := pulled_brCount b (s := s) (by omega)
      have hsecond := streamBit_pulled hin' hb' (by omega) (bufferTop_pulled b (by omega) htop)
      rw [pulled_brCount b' (by omega), hcount]
      exact ⟨by omega, fun k => (hsecond k).trans (streamBit_pulled hin hb (by omega) htop k)⟩
  obtain ⟨hfull, hstream⟩ := hpulled
  have hvalue : streamValue s n < 2 ^ 16 :=
    Nat.lt_of_lt_of_le (streamValue_lt s n) (Nat.pow_le_pow_right (by decide) hn)
  refine ⟨?_, ⟨fun k => ?_, htaken.avail, hheld hl, hclear⟩, hframe, hlater, hmoved⟩
  · rw [← streamValue_of_held hfull, streamValue_congr hstream, BitVec.toNat_ofNat, Nat.mod_eq_of_lt hvalue]
  · rw [streamBit_dropped hn hfull, hstream]

/-! ## Which bytes a read needs -/

/-- A read pulls the bytes that its bits past the held ones lie in (R92). -/
theorem readBits_pulls {n : Nat} {s t : State} {v : Half} (hn : n ≤ 16) (h : readBits n s = .ok v t) :
    t.inPos.toNat = s.inPos.toNat + (n - s.brCount.toNat + 7) / 8 := by
  obtain ⟨havail, u, hu, -, rfl⟩ := readBits_eq_ok h
  unfold availBits at havail
  change u.inPos.toNat = _
  rcases pullTo_cases hn hu with ⟨h0, rfl⟩ | ⟨h0, h1, b, -, rfl⟩ | ⟨h0, b, b', -, -, rfl⟩
  · omega
  · have hpos : (pulled b s).inPos.toNat = s.inPos.toNat + 1 :=
      toNat_add_one (y := s.inLen) (show s.inPos.toNat < s.inLen.toNat by omega)
    omega
  · have hfirst : (s.inPos + 1).toNat = s.inPos.toNat + 1 :=
      toNat_add_one (y := s.inLen) (show s.inPos.toNat < s.inLen.toNat by omega)
    have hpos : (pulled b' (pulled b s)).inPos.toNat = (s.inPos + 1).toNat + 1 :=
      toNat_add_one (y := s.inLen) (show (s.inPos + 1).toNat < s.inLen.toNat by omega)
    omega

/-- Settles O39: the pulls are counted by `readBits_pulls`, and a cursor past `IN_LEN` pulls nothing. -/
theorem readPullsOnlyTheBytesItNeeds : Obligations.ReadPullsOnlyTheBytesItNeeds := by
  unfold Obligations.ReadPullsOnlyTheBytesItNeeds
  intro n s t v _ hn h
  obtain ⟨-, -, hheld, hwithin⟩ := readBits_cursor hn h
  have hpulls := readBits_pulls hn h
  refine ⟨hpulls, hheld, fun hmoved => ?_, readBits_frame hn h⟩
  by_cases hin : s.inPos ≤ s.inLen
  · exact hwithin hin
  · obtain ⟨havail, -⟩ := readBits_eq_ok h
    have hpast : s.inLen.toNat < s.inPos.toNat := BitVec.not_le.mp hin
    unfold availBits at havail
    exact absurd (BitVec.eq_of_toNat_eq (by omega)) hmoved

/-- A byte that the next `n` bits of the stream lie in, past the held ones, is not bound (R92, log 6). -/
def State.MissesByte (s : State) (n : Nat) : Prop :=
  ∃ j, j < (n - s.brCount.toNat + 7) / 8 ∧ Mem.lookup s.inMem (s.inPos.toNat + j) = none

/-- Pulling fails exactly when a byte it needs is not bound (R91, log 6). -/
theorem pullTo_eq_none_iff {n : Nat} {s : State} (hn : n ≤ 16) (havail : n ≤ availBits s) :
    pullTo n 2 s = none ↔ s.MissesByte n := by
  unfold availBits at havail
  unfold State.MissesByte
  by_cases hone : s.brCount.toNat < n
  case neg =>
    have hnone : (n - s.brCount.toNat + 7) / 8 = 0 := by omega
    simp [pullTo, hone, hnone]
  have hpos : (s.inPos + 1).toNat = s.inPos.toNat + 1 :=
    toNat_add_one (y := s.inLen) (show s.inPos.toNat < s.inLen.toNat by omega)
  cases hb : inByte s s.inPos with
  | none =>
    have hfail : pullByte s = none := by rw [pullByte, hb]
    exact ⟨fun _ => ⟨0, by omega, hb⟩, fun _ => by simp [pullTo, hone, hfail]⟩
  | some b =>
    have hcount := pulled_brCount b (s := s) (by omega)
    have hfirst : Mem.lookup s.inMem s.inPos.toNat = some b := hb
    by_cases htwo : s.brCount.toNat + 8 < n
    case neg =>
      have hsingle : (n - s.brCount.toNat + 7) / 8 = 1 := by omega
      simp [pullTo, hone, pullByte_of_bound hb, hcount, htwo, hsingle, hfirst]
    have hdouble : (n - s.brCount.toNat + 7) / 8 = 2 := by omega
    cases hb' : inByte s (s.inPos + 1) with
    | none =>
      have hfail : pullByte (pulled b s) = none := by
        have hbyte : inByte (pulled b s) (pulled b s).inPos = none := hb'
        rw [pullByte, hbyte]
      rw [inByte, hpos] at hb'
      exact ⟨fun _ => ⟨1, by omega, hb'⟩,
        fun _ => by simp [pullTo, hone, pullByte_of_bound hb, hcount, htwo, hfail]⟩
    | some b' =>
      have hpull : pullByte (pulled b s) = some (pulled b' (pulled b s)) := pullByte_of_bound hb'
      rw [inByte, hpos] at hb'
      refine ⟨fun h => ?_, fun ⟨j, hj, hnone⟩ => ?_⟩
      · simp [pullTo, hone, pullByte_of_bound hb, hcount, htwo, hpull] at h
      · rw [hdouble] at hj
        interval_cases j
        · rw [Nat.add_zero, hfirst] at hnone
          cases hnone
        · rw [hb'] at hnone
          cases hnone

/-- With enough bits left a read fails exactly when a byte it needs is not bound (R91, log 6). -/
theorem readBits_notBound_iff {n : Nat} {s : State} (hn : n ≤ 16) (havail : n ≤ availBits s) :
    readBits n s = .notBound ↔ s.MissesByte n := by
  rw [← pullTo_eq_none_iff hn havail, readBits, if_neg (Nat.not_lt.mpr havail)]
  cases pullTo n 2 s <;> simp

/-- A byte that `n + m` bits need and that the first `n` of them found is one the other `m` need. -/
theorem missesByte_after_read {n m : Nat} {s t : State} {v : Half} (hn : n ≤ 16) (h : readBits n s = .ok v t)
    (hbyte : s.MissesByte (n + m)) : t.MissesByte m := by
  obtain ⟨j, hj, hnone⟩ := hbyte
  obtain ⟨havail, -⟩ := readBits_eq_ok h
  have hfound : ¬ j < (n - s.brCount.toNat + 7) / 8 := fun hearly => by
    have hfail := (readBits_notBound_iff hn havail).mpr ⟨j, hearly, hnone⟩
    rw [h] at hfail
    cases hfail
  have hpulls := readBits_pulls hn h
  obtain ⟨-, hmoved, -, -⟩ := readBits_cursor hn h
  have hmem : t.inMem = s.inMem := by rw [readBits_frame hn h]
  refine ⟨j - (n - s.brCount.toNat + 7) / 8, by omega, ?_⟩
  have hindex : t.inPos.toNat + (j - (n - s.brCount.toNat + 7) / 8) = s.inPos.toNat + j := by omega
  rw [hmem, hindex, hnone]

/-! ## Reads as a whole -/

/-- With enough bits left and their bytes bound a read succeeds. -/
theorem readBits_ok {n : Nat} {s : State} (havail : n ≤ availBits s) (hbound : readBits n s ≠ .notBound) :
    ∃ v t, readBits n s = .ok v t := by
  cases h : readBits n s with
  | ok v t => exact ⟨v, t, rfl⟩
  | short => exact absurd (readBits_short_iff.mp h) (Nat.not_lt.mpr havail)
  | notBound => exact absurd h hbound

/-- Settles O38: both ways consume the same bits of the stream, and what is left in the cursor is determined by that. -/
theorem twoReadsAreOneWiderRead : Obligations.TwoReadsAreOneWiderRead := by
  unfold Obligations.TwoReadsAreOneWiderRead
  intro n m s t u a b _ _ hnm hl htop hread hread'
  obtain ⟨ha, hfirst⟩ := readBits_consumed (by omega) hl htop hread
  obtain ⟨hb, hsecond⟩ := readBits_consumed (by omega) hfirst.lookahead hfirst.top hread'
  have hmavail := (readBits_eq_ok hread').1
  have havail : n + m ≤ availBits s := by
    have := hfirst.avail
    omega
  have hbound : readBits (n + m) s ≠ .notBound := fun hfail => by
    have hmissing := missesByte_after_read (by omega) hread ((readBits_notBound_iff hnm havail).mp hfail)
    rw [(readBits_notBound_iff (by omega) hmavail).mpr hmissing] at hread'
    cases hread'
  obtain ⟨c, w, hwide⟩ := readBits_ok havail hbound
  obtain ⟨hc, hwhole⟩ := readBits_consumed hnm hl htop hwide
  have hstate : w = u := hwhole.unique (hfirst.trans hsecond)
  have hvalue : c = a ||| b <<< n := by
    have hlow : a.toNat < 2 ^ n := ha ▸ streamValue_lt s n
    have hhigh : b.toNat < 2 ^ m := hb ▸ streamValue_lt t m
    have hfits : b.toNat <<< n < 2 ^ 16 := by
      rw [Nat.shiftLeft_eq, Nat.mul_comm]
      calc 2 ^ n * b.toNat
        _ < 2 ^ n * 2 ^ m := Nat.mul_lt_mul_of_pos_left hhigh (Nat.two_pow_pos n)
        _ = 2 ^ (n + m) := (Nat.pow_add 2 n m).symm
        _ ≤ 2 ^ 16 := Nat.pow_le_pow_right (by decide) hnm
    apply BitVec.eq_of_toNat_eq
    rw [hc, streamValue_add hfirst.stream, ← ha, ← hb, BitVec.toNat_or, BitVec.toNat_shiftLeft,
      Nat.mod_eq_of_lt hfits, Nat.or_comm, ← Nat.shiftLeft_add_eq_or_of_lt hlow, Nat.shiftLeft_eq, Nat.add_comm,
      Nat.mul_comm]
  rw [hwide, hstate, hvalue]

/-- A read of bits that are left, with the input bound, succeeds and consumes them (R91). -/
theorem readBits_of_inBound {n : Nat} {s : State} (hn : n ≤ 16) (hl : s.brCount.toNat ≤ 7)
    (htop : s.brBuf >>> s.brCount.toNat = 0) (hs : s.inBound) (havail : n ≤ availBits s) :
    ∃ v t, readBits n s = .ok v t ∧ v.toNat = streamValue s n ∧ Consumed n s t := by
  obtain ⟨v, t, h⟩ := readBits_ok havail (readBits_ne_notBound hn hs)
  exact ⟨v, t, h, readBits_consumed hn hl htop h⟩

/-- The stream and its cursor do not depend on the registers beside them. -/
theorem CursorMoved.congr {n : Nat} {s t u : State} (h : CursorMoved n s t)
    (hu : t = { u with brData := t.brData, stop := t.stop, phase := t.phase, done := t.done }) : CursorMoved n s u := by
  rw [hu] at h
  exact ⟨h.stream, h.avail, h.lookahead, h.top⟩

/-- Settles O24: the read consumes the next `n` bits, and `BR_DATA` gets their value. -/
theorem brReadReturnsTheNextBits : Obligations.BrReadReturnsTheNextBits := by
  unfold Obligations.BrReadReturnsTheNextBits
  intro n s _ hn hl htop hs havail
  obtain ⟨v, t, hread, hvalue, htaken⟩ := readBits_of_inBound hn hl htop hs havail
  refine ⟨finish { t with brData := v }, ?_, hvalue, htaken.toCursorMoved.congr rfl, ?_⟩
  · rw [exec_brRead, execBrRead, hread]
  · rw [htaken.frame]
    rfl

end Sys2Proof.Machine
end

section
/-! PROOFS. The 4 KB token at the bit cursor (44_lzss4k.md R110 to R112, 43_decode_common.md R102): the fields the step
reads one by one are those of the decoder, which sees the token as one number. -/

namespace Sys2Proof.Machine

theorem engineTurn_lz4Token {s : State} (h : s.phase = .lz4Token) : engineTurn s = fetchLz4 s := by
  rw [engineTurn, h]

theorem withField_of_ok {n : Nat} {s t : State} {v : Half} {k : Half → State → Fetched}
    (h : readBits n s = .ok v t) : withField n s k = k v t := by
  rw [withField, h]

theorem withField_of_short {n : Nat} {s : State} {k : Half → State → Fetched} (h : availBits s < n) :
    withField n s k = exhausted s := by
  rw [withField, readBits_short_iff.mpr h]

theorem withField_of_notBound {n : Nat} {s : State} {k : Half → State → Fetched} (h : readBits n s = .notBound) :
    withField n s k = .done (.fault .inputNotBound) := by
  rw [withField, h]

/-- A 4 KB literal's fields past the flag (R111). -/
def lz4LiteralFields (s : State) : Fetched := withField 8 s fun l t => .run (lz4LiteralOf l.toNat) t

/-- A 4 KB match's fields past the flag (R112). -/
def lz4MatchFields (s : State) : Fetched :=
  withField 12 s fun p t => withField 4 t fun n u => .run (lz4MatchOf p.toNat n.toNat) u

/-- The flag bit selects the fields (R110). -/
theorem fetchLz4_of_flag {s t : State} {flag : Half} (hroom : s.outCount ≠ s.outLimit)
    (h : readBits 1 s = .ok flag t) :
    fetchLz4 s = if flag = 1 then lz4LiteralFields t else lz4MatchFields t := by
  rw [fetchLz4, underLimit_below hroom, withField_of_ok h]
  rfl

/-- The first bits of the stream are the low ones of a wider value. -/
theorem streamValue_mod (s : State) (n m : Nat) : streamValue s (n + m) % 2 ^ n = streamValue s n := by
  induction m with
  | zero => exact Nat.mod_eq_of_lt (streamValue_lt s n)
  | succ m ih => rw [← Nat.add_assoc, streamValue, Nat.pow_add, Nat.mul_assoc, Nat.add_mul_mod_self_left, ih]

/-- The flag field is 1 exactly when the token's first bit is. -/
theorem flag_eq_one_iff {s : State} {flag : Half} (h : flag.toNat = streamValue s 1) :
    flag = 1 ↔ streamValue s 17 % 2 = 1 := by
  have hfirst : streamValue s 17 % 2 = streamValue s 1 := streamValue_mod s 1 16
  rw [hfirst, ← h]
  exact BitVec.toNat_inj.symm

/-- The flag field is 1 exactly when the bit at the cursor is. -/
theorem flag_eq_one_iff_bit {s : State} {flag : Half} (h : flag.toNat = streamValue s 1) :
    flag = 1 ↔ streamBit s 0 = some true := by
  rw [← streamValue_one_iff, ← h]
  exact BitVec.toNat_inj.symm

/-- Past the flag the token is what stands at the cursor the flag left. -/
theorem streamValue_past_flag {s t : State} (ht : Consumed 1 s t) : streamValue s 17 / 2 = streamValue t 16 := by
  have htoken : streamValue s 17 = streamValue s 1 + 2 * streamValue t 16 := streamValue_add ht.stream 16
  have hflag : streamValue s 1 < 2 := streamValue_lt s 1
  omega

/-- The literal read in its field is the one the decoder sees. -/
theorem lz4LiteralOf_field {s t : State} {l : Half} (ht : Consumed 1 s t) (hl : l.toNat = streamValue t 8) :
    lz4LiteralOf l.toNat = lz4LiteralOf (streamValue s 17 / 2) := by
  have hlow : streamValue t 16 % 2 ^ 8 = streamValue t 8 := streamValue_mod t 8 8
  have hbyte : BitVec.ofNat 8 l.toNat = BitVec.ofNat 8 (streamValue t 16) := by
    apply BitVec.eq_of_toNat_eq
    rw [BitVec.toNat_ofNat, BitVec.toNat_ofNat, hl, hlow, Nat.mod_eq_of_lt (streamValue_lt t 8)]
  rw [lz4LiteralOf, lz4LiteralOf, streamValue_past_flag ht, hbyte]

/-- The match read in its two fields is the one the decoder sees. -/
theorem lz4MatchOf_fields {s t u : State} {p n : Half} (ht : Consumed 1 s t) (hu : Consumed 12 t u)
    (hp : p.toNat = streamValue t 12) (hn : n.toNat = streamValue u 4) :
    lz4MatchOf p.toNat n.toNat = lz4MatchOf (streamValue s 17 / 2) (streamValue s 17 / 2 ^ 13) := by
  have hlow : streamValue t 16 % 2 ^ 12 = streamValue t 12 := streamValue_mod t 12 4
  have hposition : BitVec.ofNat 12 p.toNat = BitVec.ofNat 12 (streamValue t 16) := by
    apply BitVec.eq_of_toNat_eq
    rw [BitVec.toNat_ofNat, BitVec.toNat_ofNat, hp, hlow, Nat.mod_eq_of_lt (streamValue_lt t 12)]
  have hlength : streamValue s 17 / 2 ^ 13 = streamValue u 4 := by
    have hpast := streamValue_past_flag ht
    have hrest : streamValue t 16 = streamValue t 12 + 2 ^ 12 * streamValue u 4 := streamValue_add hu.stream 4
    have hless := streamValue_lt t 12
    omega
  rw [lz4MatchOf, lz4MatchOf, hlength, streamValue_past_flag ht, hposition, hn]

/-- Settles O34: the fields are read one by one, each with its bits left and bound, and together they are the token. -/
theorem stepRunsTheLz4TokenAtTheCursor : Obligations.StepRunsTheLz4TokenAtTheCursor := by
  unfold Obligations.StepRunsTheLz4TokenAtTheCursor
  intro s i hp hroom hl htop hs hdecode
  rw [step_withTurn_engine, engineTurn_lz4Token hp]
  have hkind := decode_tok4_ok hdecode
  obtain ⟨flag, s1, hread1, hflag, h1⟩ := readBits_of_inBound (n := 1) (by decide) hl htop hs (by omega)
  have havail1 := h1.avail
  rw [fetchLz4_of_flag hroom hread1]
  rcases hkind with ⟨hbit, hbits, rfl⟩ | ⟨hbit, hbits, rfl⟩
  · obtain ⟨l, s2, hread2, hvalue, h2⟩ :=
      readBits_of_inBound (n := 8) (by decide) h1.lookahead h1.top (h1.inBound hs) (by omega)
    have htaken := h1.trans h2
    refine ⟨s2, ?_, ?_, htaken.frame⟩
    · rw [if_pos ((flag_eq_one_iff hflag).mpr hbit), lz4LiteralFields, withField_of_ok hread2,
        lz4LiteralOf_field h1 hvalue, runTurn]
    · rw [encode_lz4LiteralOf hbit]
      exact htaken.toCursorMoved
  · obtain ⟨p, s2, hread2, hposition, h2⟩ :=
      readBits_of_inBound (n := 12) (by decide) h1.lookahead h1.top (h1.inBound hs) (by omega)
    have havail2 := h2.avail
    obtain ⟨n, s3, hread3, hlength, h3⟩ :=
      readBits_of_inBound (n := 4) (by decide) h2.lookahead h2.top (h2.inBound (h1.inBound hs)) (by omega)
    have htaken := (h1.trans h2).trans h3
    refine ⟨s3, ?_, ?_, htaken.frame⟩
    · rw [if_neg (mt (flag_eq_one_iff hflag).mp hbit), lz4MatchFields, withField_of_ok hread2, withField_of_ok hread3,
        lz4MatchOf_fields h1 h2 hposition hlength, runTurn]
    · rw [encode_lz4MatchOf hbit]
      exact htaken.toCursorMoved

/-- A decode that runs out of input after `n` bits ends EXHAUST with those bits consumed (R102). -/
theorem exhausted_after {n : Nat} {s t : State} (h : Consumed n s t) :
    finishWith .exhaust t = { s with
        brBuf := t.brBuf, brCount := t.brCount, inPos := t.inPos, stop := .exhaust, phase := .idle, done := true }
      ∧ CursorMoved n s (finishWith .exhaust t) := by
  refine ⟨?_, h.toCursorMoved.congr rfl⟩
  rw [h.frame]
  rfl

/-- Settles O35: the first field whose bits are not left ends the decode, the fields before it staying consumed. -/
theorem lz4TokenCutShortIsDiscarded : Obligations.Lz4TokenCutShortIsDiscarded := by
  unfold Obligations.Lz4TokenCutShortIsDiscarded
  intro s hp hroom hl htop hs hdecode
  have hshort := decode_tok4_error hdecode
  rw [step_withTurn_engine, engineTurn_lz4Token hp]
  by_cases hnone : availBits s = 0
  · rw [if_pos hnone, fetchLz4, underLimit_below hroom, withField_of_short (by omega)]
    exact ⟨_, rfl, exhausted_after (Consumed.refl hl htop)⟩
  rw [if_neg hnone]
  obtain ⟨flag, s1, hread1, hflag, h1⟩ := readBits_of_inBound (n := 1) (by decide) hl htop hs (by omega)
  have havail1 := h1.avail
  have hbit := flag_eq_one_iff hflag
  have hfirst := flag_eq_one_iff_bit hflag
  rw [fetchLz4_of_flag hroom hread1]
  by_cases hone : flag = 1
  · rw [if_pos (hbit.mp hone)] at hshort
    rw [if_pos hone, if_pos (Or.inl (hfirst.mp hone)), lz4LiteralFields, withField_of_short (by omega)]
    exact ⟨_, rfl, exhausted_after h1⟩
  rw [if_neg (mt hbit.mpr hone)] at hshort
  rw [if_neg hone]
  by_cases hposition : availBits s < 13
  · rw [if_pos (Or.inr hposition), lz4MatchFields, withField_of_short (by omega)]
    exact ⟨_, rfl, exhausted_after h1⟩
  · obtain ⟨p, s2, hread2, -, h2⟩ :=
      readBits_of_inBound (n := 12) (by decide) h1.lookahead h1.top (h1.inBound hs) (by omega)
    have havail2 := h2.avail
    rw [if_neg (not_or.mpr ⟨mt hfirst.mpr hone, hposition⟩), lz4MatchFields, withField_of_ok hread2,
      withField_of_short (by omega)]
    exact ⟨_, rfl, exhausted_after (h1.trans h2)⟩

end Sys2Proof.Machine
end

section
/-! PROOFS. Whatever needs a byte that is not bound is a fault: the host's write that issues a command, and every step
of the engine and instruction that comes to the byte (60_exceptions.md R139, 70_reset_and_hazards.md R143, log 6). -/

namespace Sys2Proof.Machine

/-! ## Issuing a command -/

theorem issueFault_of_input {s : State} {w : Word} (huses : usesInput (opField w) = true) (hs : ¬s.inBound) :
    issueFault w s = some .inputNotBound := by
  have hcovers : Mem.covers s.inLen.toNat s.inMem = false := by
    rw [← Bool.not_eq_true]
    exact fun h => hs ((inBound_iff s).mpr fun i hi => Mem.lookup_of_coversFrom h (Nat.zero_le i) hi)
  simp [issueFault, huses, hcovers]

theorem issueFault_of_output {s : State} {w : Word} (hmem : s.memWf = true) (huses : usesOutput (opField w) = true)
    (hin : s.inBound) (hout : ¬s.outBound) : issueFault w s = some .outputNotBound := by
  obtain ⟨hwf, -, -⟩ := (memWf_iff s).mp hmem
  have hincovers : Mem.covers s.inLen.toNat s.inMem = true := (Mem.covers_iff hwf).mpr ((inBound_iff s).mp hin)
  have houtcovers : Mem.covers s.outLimit.toNat s.outMem = false := by
    rw [← Bool.not_eq_true]
    exact fun h => hout ((outBound_iff s).mpr fun i hi => Mem.lookup_of_coversFrom h (Nat.zero_le i) hi)
  simp [issueFault, huses, hincovers, houtcovers]

/-- A command that would be accepted is its host's fault when a buffer it uses is not bound (R143). -/
theorem step_writing_issueFault {s : State} {w : Word} {f : Fault} (hidle : s.busy = false) (hlegal : legal w = true)
    (hlimit : usesOutput (opField w) = true → s.outLimit.toNat ≤ s.cfg.maxOut) (hissue : issueFault w s = some f) :
    step (s.writing (Reg.offset .cmd) w) = .fault f := by
  have hturn : commandTurn w s = .done (.fault f) := by
    simp [commandTurn, hidle, hlegal, not_over_limit hlimit, hissue]
  rw [step_writing_cmd, hturn, runTurn]

/-! ## Reading a field -/

/-- No bit needs no byte. -/
theorem not_missesByte_zero (s : State) : ¬s.MissesByte 0 := by
  rintro ⟨j, hj, -⟩
  omega

/-- Where one of the next `n + m` bits lies in a byte that is not bound, reading the first `n` fails, or what is done
with the field after it does. -/
theorem withField_fault {n m : Nat} {s : State} {k : Half → State → Fetched} (hn : n ≤ 16)
    (havail : n + m ≤ availBits s) (hmiss : s.MissesByte (n + m))
    (hk : ∀ v t, readBits n s = .ok v t → t.MissesByte m → k v t = .done (.fault .inputNotBound)) :
    withField n s k = .done (.fault .inputNotBound) := by
  cases hread : readBits n s with
  | ok v t => exact (withField_of_ok hread).trans (hk v t hread (missesByte_after_read hn hread hmiss))
  | short =>
    have := readBits_short_iff.mp hread
    omega
  | notBound => exact withField_of_notBound hread

/-- The last field to be read. -/
theorem withField_fault_last {n : Nat} {s : State} {k : Half → State → Fetched} (hn : n ≤ 16)
    (havail : n ≤ availBits s) (hmiss : s.MissesByte n) : withField n s k = .done (.fault .inputNotBound) :=
  withField_fault (m := 0) hn havail hmiss fun _ t _ hmiss => absurd hmiss (not_missesByte_zero t)

/-- A 4 KB token whose flag, literal, position or length lies in a byte that is not bound. -/
theorem fetchLz4_fault {s : State} {m : Nat} (hroom : s.outCount ≠ s.outLimit) (hl : s.brCount.toNat ≤ 7)
    (htop : s.brBuf >>> s.brCount.toNat = 0)
    (hm : m = 1 ∨ (m = 9 ∧ streamBit s 0 = some true) ∨ ((m = 13 ∨ m = 17) ∧ streamBit s 0 = some false))
    (havail : m ≤ availBits s) (hmiss : s.MissesByte m) : fetchLz4 s = .done (.fault .inputNotBound) := by
  rw [fetchLz4, underLimit_below hroom]
  obtain ⟨r, rfl⟩ : ∃ r, m = 1 + r := ⟨m - 1, by omega⟩
  refine withField_fault (by decide) havail hmiss fun flag s1 hread hmiss1 => ?_
  obtain ⟨hflag, h1⟩ := readBits_consumed (by decide) hl htop hread
  have havail1 := h1.avail
  have hbit := flag_eq_one_iff_bit hflag
  rcases hm with hm | ⟨hm, hone⟩ | ⟨hm, hzero⟩
  · obtain rfl : r = 0 := by omega
    exact absurd hmiss1 (not_missesByte_zero s1)
  · obtain rfl : r = 8 := by omega
    rw [if_pos (hbit.mpr hone)]
    exact withField_fault_last (by decide) (by omega) hmiss1
  · rw [if_neg (mt hbit.mp (by simp [hzero]))]
    rcases hm with hm | hm
    · obtain rfl : r = 12 := by omega
      exact withField_fault_last (by decide) (by omega) hmiss1
    · obtain rfl : r = 12 + 4 := by omega
      refine withField_fault (by decide) (by omega) hmiss1 fun p s2 hread2 hmiss2 => ?_
      obtain ⟨-, h2⟩ := readBits_consumed (by decide) h1.lookahead h1.top hread2
      have havail2 := h2.avail
      exact withField_fault_last (by decide) (by omega) hmiss2

/-! ## Reading the bytes of an 8 KB item -/

/-- A flag byte or a literal that is not bound. -/
theorem fetchLz8_fault_byte {s : State} (hroom : s.outCount ≠ s.outLimit)
    (hkind : s.flagLeft = 0 ∨ s.flagByte.getLsbD 0 = true) (hin : s.inPos < s.inLen)
    (hb : inByte s s.inPos = none) : fetchLz8 s = .done (.fault .inputNotBound) := by
  by_cases hleft : s.flagLeft = 0
  · rw [fetchLz8_flag hroom hleft hin, withByte_of_not_bound hb]
  · rw [fetchLz8_literal hroom hleft (hkind.resolve_left hleft) hin, withByte_of_not_bound (s := useFlag s) hb]

/-- A match with one of its two bytes not bound. -/
theorem fetchLz8_fault_match {s : State} (hroom : s.outCount ≠ s.outLimit) (hleft : s.flagLeft ≠ 0)
    (hbit : s.flagByte.getLsbD 0 = false) (hin : s.inPos.toNat + 2 ≤ s.inLen.toNat)
    (hb : inByte s s.inPos = none ∨ inByte s (s.inPos + 1) = none) :
    fetchLz8 s = .done (.fault .inputNotBound) := by
  rw [fetchLz8_match hroom hleft hbit hin]
  cases hfirst : inByte s s.inPos with
  | none => exact withByte_of_not_bound (s := useFlag s) hfirst
  | some b1 =>
    have hsecond : inByte s (s.inPos + 1) = none := hb.resolve_left (by simp [hfirst])
    rw [withByte_of_bound (s := useFlag s) hfirst]
    exact withByte_of_not_bound hsecond

/-- Settles O46: issuing by the fault of the command turn, every step and instruction at the byte it reads or writes. -/
theorem unboundByteFaults : Obligations.UnboundByteFaults := by
  unfold Obligations.UnboundByteFaults
  intro s
  refine ⟨fun w hidle hlegal hop hin => ?_, fun w hidle hw hlimit => ?_, fun hp hlt hb => ?_, fun hp hroom hlt => ?_,
    fun n _ hn havail hmiss => ?_, fun hp hroom hl htop m hm havail hmiss => ?_, fun hp hroom => ?_, fun b hb => ?_,
    fun hp hroom hb => ?_⟩
  · obtain ⟨hnum, -, -⟩ := toNat_fields w
    have huses : usesInput (opField w) = true := (usesInput_iff _).mpr (by omega)
    have hbounded : ¬ usesOutput (opField w) = true := by
      rw [usesOutput_iff_toNat]
      omega
    exact step_writing_issueFault hidle hlegal (fun h => absurd h hbounded) (issueFault_of_input huses hin)
  · have hkind : legal w = true ∧ usesInput (opField w) = true ∧ usesOutput (opField w) = true := by
      obtain rfl | rfl | rfl := hw <;> decide
    obtain ⟨hlegal, husesIn, husesOut⟩ := hkind
    exact ⟨fun hin => step_writing_issueFault hidle hlegal (fun _ => hlimit) (issueFault_of_input husesIn hin),
      fun hmem hin hout =>
        step_writing_issueFault hidle hlegal (fun _ => hlimit) (issueFault_of_output hmem husesOut hin hout)⟩
  · rw [step_withTurn_engine, engineTurn_crcRun hp, runTurn, crcRunStep_notBound hlt hb]
  · rw [step_withTurn_engine, engineTurn_storeRun hp, runTurn]
    refine ⟨storeRunStep_notBound hroom hlt, fun hsome hout => ?_⟩
    obtain ⟨b, hb⟩ := Option.isSome_iff_exists.mp hsome
    rw [storeRunStep_emit hroom hlt hb, emit_of_not_bound (s := { s with inPos := s.inPos + 1 }) b hout,
      orOutputNotBound]
  · rw [exec_brRead, execBrRead, (readBits_notBound_iff hn havail).mpr hmiss]
  · rw [step_withTurn_engine, engineTurn_lz4Token hp, fetchLz4_fault hroom hl htop hm havail hmiss, runTurn]
  · rw [step_withTurn_engine, engineTurn_lz8Token hp]
    refine ⟨fun hkind hin hb => ?_, fun hleft hbit hin hb => ?_⟩
    · rw [fetchLz8_fault_byte hroom hkind hin hb, runTurn]
    · rw [fetchLz8_fault_match hroom hleft hbit hin hb, runTurn]
  · rw [exec_lz4Literal, exec_lz8Literal, emit_of_not_bound b hb]
    exact ⟨rfl, rfl⟩
  · have hcopying : s.phase.copying = true := by
      obtain hp | hp := hp <;> rw [hp] <;> rfl
    rw [step_withTurn_engine, engineTurn_copying hcopying, runTurn, copyStep_notBound _ hroom hb]

end Sys2Proof.Machine
end

section
/-! PROOFS. The host's accesses to the two buffers: a write of a byte, and binding (20_memory.md R29, R32, R44,
70_reset_and_hazards.md R146). -/

namespace Sys2Proof.Machine

/-! ## Writing a byte -/

theorem step_writeIn (s : State) (i : Word) (b : Byte) :
    step (s.withTurn (.host (.writeIn i b))) = hostWriteIn i b s := rfl

theorem step_writeOut (s : State) (i : Word) (b : Byte) :
    step (s.withTurn (.host (.writeOut i b))) = hostWriteOut i b s := rfl

/-- A written index of a buffer reads the value, every other one what it read before. -/
theorem Mem.lookup_set_word (m : Mem) (i j : Word) (b : Byte) :
    Mem.lookup (Mem.set none m i.toNat b) j.toNat = if j = i then some b else Mem.lookup m j.toNat := by
  by_cases h : j = i
  · rw [if_pos h, h, Mem.lookup_set_written]
  · have hne : i.toNat ≠ j.toNat := fun e => h (BitVec.eq_of_toNat_eq e.symm)
    rw [if_neg h, Mem.lookup_set_ne _ _ _ hne]

/-- Settles O45: while busy the duty is broken; while idle the one byte is written. -/
theorem bufferWritesOnlyWhileIdle : Obligations.BufferWritesOnlyWhileIdle := by
  unfold Obligations.BufferWritesOnlyWhileIdle
  intro s i b _
  rw [step_writeIn, step_writeOut]
  refine ⟨fun hbusy hi => if_pos ⟨hbusy, hi⟩, fun hbusy hi => if_pos ⟨hbusy, hi⟩, fun hidle hbound => ?_,
    fun hidle hbound => ?_⟩
  · obtain ⟨x, hx⟩ := Option.isSome_iff_exists.mp hbound
    refine ⟨{ s with inMem := Mem.set none s.inMem i.toNat b }, ?_, rfl, fun j => Mem.lookup_set_word s.inMem i j b⟩
    rw [hostWriteIn, if_neg (by simp [hidle]), hx]
  · refine ⟨{ s with outMem := Mem.set none s.outMem i.toNat b }, ?_, rfl, fun j => Mem.lookup_set_word s.outMem i j b⟩
    rw [hostWriteOut, if_neg (by simp [hidle]), setOut_of_bound b hbound]

/-! ## Binding -/

theorem step_bindIn (s : State) (base : Nat) (bytes : List Byte) :
    step (s.withTurn (.host (.bindIn base bytes))) = hostBindIn base bytes s := rfl

theorem step_bindOut (s : State) (base : Nat) (bytes : List Byte) :
    step (s.withTurn (.host (.bindOut base bytes))) = hostBindOut base bytes s := rfl

/-- Two buffers overlap when a bound index of each lies at one platform address (R32). -/
theorem buffersOverlap_iff {ib ob : Nat} {im om : Mem} : buffersOverlap ib im ob om = true
    ↔ ∃ i ∈ im.map Prod.fst, ∃ j ∈ om.map Prod.fst, ib + i = ob + j := by
  rw [buffersOverlap_eq]
  simp only [List.any_eq_true, beq_iff_eq]

/-- The bound indices of a buffer that holds these bytes. -/
theorem Mem.mem_keys_ofBytes {bytes : List Byte} {i : Nat} :
    i ∈ (Mem.ofBytes bytes).map Prod.fst ↔ i < bytes.length := by
  rw [← Mem.isSome_lookup_iff, Mem.lookup_ofBytes]
  simp

/-- While idle, binding what fits the index space is a fault only for an overlap. -/
theorem hostBindIn_idle {s : State} {bytes : List Byte} (base : Nat) (hidle : s.busy = false)
    (hlen : bytes.length ≤ bufferSize) :
    hostBindIn base bytes s = if buffersOverlap base (Mem.ofBytes bytes) s.outBase s.outMem then .fault .buffersOverlap
      else .next { s with inBase := base, inMem := Mem.ofBytes bytes } := by
  rw [hostBindIn, hidle, if_neg Bool.false_ne_true, if_neg (Nat.not_lt.mpr hlen)]

theorem hostBindOut_idle {s : State} {bytes : List Byte} (base : Nat) (hidle : s.busy = false)
    (hlen : bytes.length ≤ bufferSize) :
    hostBindOut base bytes s = if buffersOverlap s.inBase s.inMem base (Mem.ofBytes bytes) then .fault .buffersOverlap
      else .next { s with outBase := base, outMem := Mem.ofBytes bytes } := by
  rw [hostBindOut, hidle, if_neg Bool.false_ne_true, if_neg (Nat.not_lt.mpr hlen)]

/-- Settles O47: the test for overlap is that of the bound indices' addresses. -/
theorem bindingInWhereItOverlapsFaults : Obligations.BindingInWhereItOverlapsFaults := by
  unfold Obligations.BindingInWhereItOverlapsFaults
  intro s base bytes
  rw [step_bindIn]
  refine ⟨fun hbusy => if_pos hbusy, fun hidle hlen => ?_⟩
  rw [hostBindIn_idle base hidle hlen]
  refine ⟨fun ⟨i, j, hi, hj, haddr⟩ => if_pos (buffersOverlap_iff.mpr ?_), fun hapart => ?_⟩
  · exact ⟨i, Mem.mem_keys_ofBytes.mpr hi, j.toNat, (Mem.isSome_lookup_iff _ _).mp hj, haddr⟩
  · refine ⟨_, if_neg fun hoverlap => ?_, rfl, fun i => Mem.lookup_ofBytes bytes i.toNat⟩
    obtain ⟨i, hi, j, hj, haddr⟩ := buffersOverlap_iff.mp hoverlap
    exact hapart i j (Mem.mem_keys_ofBytes.mp hi) hj haddr

/-- Settles O59: the test for overlap is that of the bound indices' addresses. -/
theorem bindingOutWhereItOverlapsFaults : Obligations.BindingOutWhereItOverlapsFaults := by
  unfold Obligations.BindingOutWhereItOverlapsFaults
  intro s base bytes
  rw [step_bindOut]
  refine ⟨fun hbusy => if_pos hbusy, fun hidle hlen => ?_⟩
  rw [hostBindOut_idle base hidle hlen]
  refine ⟨fun ⟨i, j, hi, hj, haddr⟩ => if_pos (buffersOverlap_iff.mpr ?_), fun hapart => ?_⟩
  · exact ⟨i.toNat, (Mem.isSome_lookup_iff _ _).mp hi, j, Mem.mem_keys_ofBytes.mpr hj, haddr⟩
  · refine ⟨_, if_neg fun hoverlap => ?_, rfl, fun i => Mem.lookup_ofBytes bytes i.toNat⟩
    obtain ⟨i, hi, j, hj, haddr⟩ := buffersOverlap_iff.mp hoverlap
    exact hapart i j hi (Mem.mem_keys_ofBytes.mp hj) haddr

end Sys2Proof.Machine
end

section
/-! PROOFS. What the engine may change: OUT at `OUT_COUNT` alone, and `DONE` where it ends a command (20_memory.md R42,
40_control.md R72, R76). -/

namespace Sys2Proof.Machine

/-- Settles O48: a byte of OUT that changed is the one the engine wrote. -/
theorem engineWritesOutOnlyAtOutCount : Obligations.EngineWritesOutOnlyAtOutCount := by
  unfold Obligations.EngineWritesOutOnlyAtOutCount
  intro s t h
  rw [step_withTurn_engine] at h
  have hframe := (engineTurn_next h).frame
  refine ⟨hframe.inMem, fun i hchanged => ?_⟩
  rcases hframe.outMem with hsame | ⟨hd, hroom, hcount, b, hset⟩
  · exact absurd (by rw [outByte, outByte, hsame]) hchanged
  · refine ⟨?_, hcount, hd, hroom⟩
    by_contra hne
    have hkept : outByte t i = outByte s i := by
      rw [outByte, hset, Mem.lookup_set_word, if_neg hne]
      rfl
    exact hchanged hkept

/-- An engine step that ends a command sets `DONE` (R72). -/
theorem EngineStep.done_of_idle {s t : State} (h : EngineStep s t) (hb : s.phase ≠ .idle) (ht : t.phase = .idle) :
    t.done = true := by
  cases h with
  | idle | crcRun | storeRun | copy | lz8Flag | lz8Literal => exact absurd ht hb
  | crcBuf | decStore | decLz4k | decLz8k | lz4Match | lz4CopyEnd | lz8CopyEnd | lz8Match => cases ht
  | lz4Literal hp ho s1 s2 l h1 h2 =>
    obtain ⟨_, _, _, rfl⟩ := readBits_moves (by decide) h1
    obtain ⟨_, _, _, rfl⟩ := readBits_moves (by decide) h2
    exact absurd ht hb
  | _ => rfl

/-- Settles O50: the host and the wait loop leave a running command's phase alone. -/
theorem onlyFinishOrResetLeavesBusy : Obligations.OnlyFinishOrResetLeavesBusy := by
  unfold Obligations.OnlyFinishOrResetLeavesBusy
  intro s t h hbusy hidle
  have hs := (busy_eq_true s).mp hbusy
  have ht := (busy_eq_false t).mp hidle
  rcases step_next_cases h with ⟨hnext, he⟩ | ⟨op, -, hh⟩ | ⟨-, rfl⟩ | ⟨hreset, -⟩
  · exact Or.inl ⟨hnext, he.done_of_idle hs ht⟩
  · exact absurd ((hh.hostActed hbusy).phase ▸ ht) hs
  · exact absurd ((hostActed_waitTurn _ s).phase ▸ ht) hs
  · exact Or.inr hreset

end Sys2Proof.Machine
end

section
/-! PROOFS. Which host access may clear a condition and which may write `CRC_ACC`: the accesses are told apart here,
where the cases of `HostStep` tell only what each can do (10_state.md R21, R22, R30, 60_exceptions.md R122). -/

namespace Sys2Proof.Machine

/-- A register access that is answered is one aligned word of the window (R36). -/
theorem accessOffset_eq_ok {s : State} {width addr off : Nat} (h : accessOffset width addr s = .ok off) :
    width = 4 ∧ addr = s.cfg.regBase + off := by
  unfold accessOffset at h
  by_cases hout : addr < s.cfg.regBase ∨ s.cfg.regBase + windowSize ≤ addr
  · simp [hout] at h
  · by_cases hform : width ≠ 4 ∨ (addr - s.cfg.regBase) % 4 ≠ 0
    · simp [hout, hform] at h
    · simp only [hout, hform, if_false, Except.ok.injEq] at h
      omega

/-- A register stands at its own offset only. -/
theorem offset_of_regAt {off : Nat} {r : Reg} (h : regAt off = some r) : off = r.offset := by
  have hfound : (r.offset == off) = true := List.find?_some (p := fun q : Reg => q.offset == off) h
  exact (beq_iff_eq.mp hfound).symm

/-- From `s` to `t` the host clears no condition and writes neither `CRC_ACC` nor `BR_DATA`. -/
structure HostFrame (s t : State) : Prop where
  brShort : s.brShort = true → t.brShort = true
  cmdErr : s.cmdErr = true → t.cmdErr = true
  limitErr : s.limitErr = true → t.limitErr = true
  crcAcc : t.crcAcc = s.crcAcc
  brData : t.brData = s.brData

theorem HostFrame.of_same {s t : State} (h : t = { t with
      brShort := s.brShort, cmdErr := s.cmdErr, limitErr := s.limitErr, crcAcc := s.crcAcc, brData := s.brData }) :
    HostFrame s t := by
  rw [h]
  exact ⟨id, id, id, rfl, rfl⟩

theorem hostFrame_raise (c : Condition) (s : State) : HostFrame s (raise c s) := by
  refine ⟨fun h => ?_, fun h => ?_, fun h => ?_, raise_crcAcc c s, raise_brData c s⟩ <;> simp [h]

theorem hostFrame_writeIdle {s written : State} (h : HostFrame s written) : HostFrame s (writeIdle s written) := by
  unfold writeIdle
  cases s.busy
  · exact h
  · exact hostFrame_raise .cmdErr s

/-- A write to a register other than `STATUS` and `CRC_ACC`. -/
theorem hostFrame_writeReg {r : Reg} (w : Word) (s : State) (hstatus : r ≠ .status) (hcrc : r ≠ .crcAcc) :
    HostFrame s (writeReg r w s) := by
  cases r with
  | status => exact absurd rfl hstatus
  | crcAcc => exact absurd rfl hcrc
  | inLen | outLimit => exact hostFrame_writeIdle (.of_same rfl)
  | _ => exact .of_same rfl

/-- The four ways a word written to `CMD` is taken (R67). -/
theorem commandTurn_next_cases {s t : State} {w : Word} (h : runTurn (commandTurn w s) = .next t) :
    t = refuseBusy s ∨ t = refuseIllegal s ∨ t = refuseLimit s ∨ t = accept w s := by
  cases hbusy : s.busy with
  | true =>
    rw [commandTurn_busy hbusy] at h
    cases h
    exact Or.inl rfl
  | false =>
    rw [← step_writing_cmd] at h
    cases hlegal : legal w with
    | false =>
      rw [step_writing_illegal hbusy hlegal] at h
      cases h
      exact Or.inr (Or.inl rfl)
    | true =>
      rw [step_writing_cmd] at h
      by_cases hover : boundedCommand w = true ∧ s.cfg.maxOut < s.outLimit.toNat
      · obtain ⟨hbounded, hmax⟩ := hover
        rw [commandTurn_over_limit hbusy hlegal hbounded hmax] at h
        cases h
        exact Or.inr (Or.inr (Or.inl rfl))
      · have hlimit (huses : usesOutput (opField w) = true) : s.outLimit.toNat ≤ s.cfg.maxOut :=
          Nat.le_of_not_lt fun hmax => hover ⟨huses, hmax⟩
        cases hissue : issueFault w s with
        | some f =>
          rw [← step_writing_cmd, step_writing_issueFault hbusy hlegal hlimit hissue] at h
          cases h
        | none =>
          rw [commandTurn_accepted hbusy hlegal hlimit hissue] at h
          cases h
          exact Or.inr (Or.inr (Or.inr rfl))

theorem hostFrame_commandTurn {s t : State} {w : Word} (h : runTurn (commandTurn w s) = .next t) : HostFrame s t := by
  rcases commandTurn_next_cases h with rfl | rfl | rfl | rfl
  · exact hostFrame_raise .cmdErr s
  · exact ⟨id, fun _ => rfl, id, rfl, rfl⟩
  · exact ⟨id, id, fun _ => rfl, rfl, rfl⟩
  · exact .of_same rfl

/-- A register write that may clear a condition or write `CRC_ACC` is one to `STATUS` or to `CRC_ACC`. -/
theorem hostRegWrite_cases {s t : State} {width addr : Nat} {w : Word}
    (h : runTurn (hostRegWrite width addr w s) = .next t) :
    HostFrame s t
      ∨ (width = 4 ∧ addr = s.cfg.regBase + 0x04 ∧ t = statusW1c w s)
      ∨ (width = 4 ∧ addr = s.cfg.regBase + 0x1C ∧ s.busy = false ∧ t = { s with crcAcc := w.extractLsb' 0 16 }) := by
  unfold hostRegWrite at h
  cases hoff : accessOffset width addr s with
  | error r =>
    rw [hoff] at h
    cases h
  | ok off =>
    obtain ⟨hwidth, haddr⟩ := accessOffset_eq_ok hoff
    rw [hoff] at h
    by_cases hcmd : off = Reg.offset .cmd
    · simp only [if_pos hcmd] at h
      exact Or.inl (hostFrame_commandTurn h)
    · simp only [if_neg hcmd] at h
      cases h
      unfold writeOffset
      cases hreg : regAt off with
      | none => exact Or.inl (.of_same rfl)
      | some r =>
        rw [offset_of_regAt hreg] at haddr
        by_cases hstatus : r = .status
        · subst hstatus
          exact Or.inr (Or.inl ⟨hwidth, haddr, rfl⟩)
        by_cases hcrc : r = .crcAcc
        · subst hcrc
          change HostFrame s (writeIdle s _) ∨ _
          by_cases hbusy : s.busy = true
          · rw [writeIdle_busy hbusy]
            exact Or.inl (hostFrame_raise .cmdErr s)
          · have hidle := Bool.not_eq_true _ ▸ hbusy
            exact Or.inr (Or.inr ⟨hwidth, haddr, hidle, writeIdle_idle hidle _⟩)
        · exact Or.inl (hostFrame_writeReg w s hstatus hcrc)

theorem hostFrame_hostReadByte {b : Option Byte} {s t : State} (h : hostReadByte b s = .next t) : HostFrame s t := by
  cases b with
  | none => cases h
  | some v =>
    cases h
    exact .of_same rfl

/-- Every access but a register write leaves the conditions, `CRC_ACC` and `BR_DATA` alone. -/
theorem hostFrame_hostTurn {s t : State} {op : HostOp} (hop : ∀ width addr w, op ≠ .regWrite width addr w)
    (h : runTurn (hostTurn op s) = .next t) : HostFrame s t := by
  cases op with
  | regWrite width addr w => exact absurd rfl (hop width addr w)
  | regRead width addr =>
    change hostRegRead width addr s = .next t at h
    unfold hostRegRead at h
    split at h <;> cases h
    exact .of_same rfl
  | readIn i => exact hostFrame_hostReadByte h
  | readOut i => exact hostFrame_hostReadByte h
  | bindIn base bytes =>
    change hostBindIn base bytes s = .next t at h
    unfold hostBindIn at h
    split_ifs at h
    cases h
    exact .of_same rfl
  | bindOut base bytes =>
    change hostBindOut base bytes s = .next t at h
    unfold hostBindOut at h
    split_ifs at h
    cases h
    exact .of_same rfl
  | writeIn i b =>
    change hostWriteIn i b s = .next t at h
    unfold hostWriteIn at h
    split_ifs at h
    split at h <;> cases h
    exact .of_same rfl
  | writeOut i b =>
    change hostWriteOut i b s = .next t at h
    unfold hostWriteOut at h
    split_ifs at h
    cases hset : setOut i b s with
    | none =>
      rw [hset] at h
      cases h
    | some u =>
      rw [hset] at h
      obtain ⟨-, rfl⟩ := setOut_eq_some hset
      cases h
      exact .of_same rfl

/-- The host's next turn. -/
theorem step_of_host_head {s : State} {op : HostOp} (h : s.sched.head? = some (.host op)) :
    step s = runTurn (hostTurn op s.popped) := by
  obtain ⟨rest, hsched⟩ := List.head?_eq_some_iff.mp h
  have hpopped : s.popped = { s with sched := rest } := by rw [State.popped, hsched, List.tail_cons]
  rw [step_of_host hsched, hpopped]

/-- A host turn that clears a condition or writes `CRC_ACC` or `BR_DATA` is a write to `STATUS` or to `CRC_ACC`. -/
theorem hostStep_cases {s t : State} {op : HostOp} (hhead : s.sched.head? = some (.host op)) (h : step s = .next t) :
    HostFrame s t
      ∨ (∃ w, op = .regWrite 4 (s.cfg.regBase + 0x04) w ∧ t = statusW1c w s.popped)
      ∨ (∃ w, op = .regWrite 4 (s.cfg.regBase + 0x1C) w
          ∧ s.busy = false ∧ t = { s.popped with crcAcc := w.extractLsb' 0 16 }) := by
  rw [step_of_host_head hhead] at h
  by_cases hop : ∀ width addr w, op ≠ .regWrite width addr w
  · obtain ⟨hshort, hcmd, hlimit, hcrc, hdata⟩ := hostFrame_hostTurn hop h
    exact Or.inl ⟨hshort, hcmd, hlimit, hcrc, hdata⟩
  · push Not at hop
    obtain ⟨width, addr, w, rfl⟩ := hop
    rcases hostRegWrite_cases h with ⟨hshort, hcmd, hlimit, hcrc, hdata⟩ | ⟨rfl, rfl, rfl⟩ | ⟨rfl, rfl, hidle, rfl⟩
    · exact Or.inl ⟨hshort, hcmd, hlimit, hcrc, hdata⟩
    · exact Or.inr (Or.inl ⟨w, rfl, rfl⟩)
    · exact Or.inr (Or.inr ⟨w, rfl, hidle, rfl⟩)

/-- Where no condition is cleared there is nothing to show. -/
theorem not_cleared {s t : State} (hshort : s.brShort = true → t.brShort = true)
    (hcmd : s.cmdErr = true → t.cmdErr = true) (hlimit : s.limitErr = true → t.limitErr = true) :
    ¬ ((s.brShort = true ∧ t.brShort = false) ∨ (s.cmdErr = true ∧ t.cmdErr = false)
      ∨ (s.limitErr = true ∧ t.limitErr = false)) := by
  rintro (⟨h, h'⟩ | ⟨h, h'⟩ | ⟨h, h'⟩)
  · simp [hshort h] at h'
  · simp [hcmd h] at h'
  · simp [hlimit h] at h'

/-- Settles O51: only a reset and the write of `STATUS` clear a condition, and the write clears the bits it has set. -/
theorem conditionsAreSticky : Obligations.ConditionsAreSticky := by
  unfold Obligations.ConditionsAreSticky
  intro s t h hcleared
  rcases step_next_cases h with ⟨-, he⟩ | ⟨op, hhead, -⟩ | ⟨-, rfl⟩ | ⟨hreset, -⟩
  · have hframe := he.frame
    exact absurd hcleared (not_cleared hframe.brShort (fun hs => hframe.cmdErr.trans hs)
      fun hs => hframe.limitErr.trans hs)
  · rcases hostStep_cases hhead h with hframe | ⟨w, rfl, rfl⟩ | ⟨w, rfl, -, rfl⟩
    · exact absurd hcleared (not_cleared hframe.brShort hframe.cmdErr hframe.limitErr)
    · refine Or.inr ⟨w, hhead, fun hs ht => ?_, fun hs ht => ?_, fun hs ht => ?_⟩
      · simpa [State.popped, hs] using ht
      · simpa [State.popped, hs] using ht
      · simpa [State.popped, hs] using ht
    · exact absurd hcleared (not_cleared id id id)
  · exact absurd hcleared (not_cleared (by rw [waitTurn_frame]; exact id) (by rw [waitTurn_frame]; exact id)
      (by rw [waitTurn_frame]; exact id))
  · exact Or.inl hreset

/-- Settles O52: the engine writes each in its own command, the host only `CRC_ACC` and only while idle. -/
theorem onlyTheirCommandsWriteCrcAccAndBrData : Obligations.OnlyTheirCommandsWriteCrcAccAndBrData := by
  unfold Obligations.OnlyTheirCommandsWriteCrcAccAndBrData
  intro s t hs h
  rcases step_next_cases h with ⟨hnext, he⟩ | ⟨op, hhead, -⟩ | ⟨-, rfl⟩ | ⟨hreset, -⟩
  · have hframe := he.frame
    refine ⟨fun hcrc => Or.inl ⟨hnext, ?_⟩, fun hdata => Or.inl ⟨hnext, hframe.brData.resolve_left hdata⟩⟩
    rw [busy_eq_true]
    rcases hframe.crcAcc.resolve_left hcrc with ⟨hp, hop⟩ | hp
    · have hphase : s.phase = .start := hp
      exact ⟨by simp [hphase], hop.elim Or.inl fun hbyte => Or.inr (Or.inl hbyte)⟩
    · have hphase : s.phase = .crcRun := hp
      exact ⟨by simp [hphase], Or.inr (Or.inr (hs.phaseOp _ (by rw [hphase]; rfl)))⟩
  · rcases hostStep_cases hhead h with hframe | ⟨w, rfl, rfl⟩ | ⟨w, rfl, hidle, rfl⟩
    · exact ⟨fun hcrc => absurd hframe.crcAcc hcrc, fun hdata => absurd hframe.brData hdata⟩
    · exact ⟨fun hcrc => absurd rfl hcrc, fun hdata => absurd rfl hdata⟩
    · exact ⟨fun _ => Or.inr (Or.inl ⟨hidle, w, hhead⟩), fun hdata => absurd rfl hdata⟩
  · rw [waitTurn_frame]
    exact ⟨fun hcrc => absurd rfl hcrc, fun hdata => absurd rfl hdata⟩
  · exact ⟨fun _ => Or.inr (Or.inr hreset), fun _ => Or.inr hreset⟩

end Sys2Proof.Machine
end

section
/-! PROOFS. The engine does not read the flags (10_state.md R30): it does in a state with other flags what it does in
this one, operation by operation. -/

namespace Sys2Proof.Machine

/-- The state with its flags, the `STATUS` bits other than BUSY and `IRQ_EN`, taken from another one. -/
def State.withFlagsOf (s x : State) : State :=
  { s with
    irqEn := x.irqEn
    done := x.done
    stop := x.stop
    brShort := x.brShort
    cmdErr := x.cmdErr
    limitErr := x.limitErr }

theorem sameButFlags_iff (s s' : State) : s.sameButFlags s' ↔ s' = s.withFlagsOf s' := Iff.rfl

/-- Where the one result is a next state, so is the other, and they differ in flags only. -/
def Result.FlagBlind (r r' : Result) : Prop := ∀ t, r = .next t → ∃ t', r' = .next t' ∧ t.sameButFlags t'

theorem flagBlind_next {t t' : State} (h : t.sameButFlags t') : Result.FlagBlind (.next t) (.next t') := by
  rintro u ⟨⟩
  exact ⟨t', rfl, h⟩

theorem flagBlind_fault (f : Fault) (r : Result) : Result.FlagBlind (.fault f) r :=
  fun _ h => by cases h

/-! ## Taking input -/

theorem pullTo_withFlagsOf {n fuel : Nat} {s t : State} (x : State) (h : pullTo n fuel s = some t) :
    pullTo n fuel (s.withFlagsOf x) = some (t.withFlagsOf x) := by
  induction fuel generalizing s with
  | zero =>
    cases h
    rfl
  | succ fuel ih =>
    have hcount : (s.withFlagsOf x).brCount = s.brCount := rfl
    by_cases hmore : s.brCount.toNat < n
    · cases hp : pullByte s with
      | none => simp [pullTo, hmore, hp] at h
      | some u =>
        obtain ⟨b, hb, rfl⟩ := pullByte_eq_some hp
        have hpull : pullByte (s.withFlagsOf x) = some ((pulled b s).withFlagsOf x) := pullByte_of_bound hb
        simp only [pullTo, hmore, if_true, hp] at h
        simp only [pullTo, hcount, hmore, if_true, hpull]
        exact ih h
    · simp only [pullTo, hmore, if_false] at h
      cases h
      simp [pullTo, hcount, hmore]

theorem readBits_withFlagsOf {n : Nat} {s t : State} {v : Half} (x : State) (h : readBits n s = .ok v t) :
    readBits n (s.withFlagsOf x) = .ok v (t.withFlagsOf x) := by
  obtain ⟨havail, u, hu, rfl, rfl⟩ := readBits_eq_ok h
  have havail' : ¬ availBits (s.withFlagsOf x) < n := Nat.not_lt.mpr havail
  rw [readBits, if_neg havail', pullTo_withFlagsOf x hu]
  rfl

theorem flagBlind_withField {n : Nat} {s : State} {k : Half → State → Fetched} (x : State)
    (hk : ∀ v t, Result.FlagBlind (runTurn (k v t)) (runTurn (k v (t.withFlagsOf x)))) :
    Result.FlagBlind (runTurn (withField n s k)) (runTurn (withField n (s.withFlagsOf x) k)) := by
  cases hread : readBits n s with
  | ok v t =>
    rw [withField_of_ok hread, withField_of_ok (readBits_withFlagsOf x hread)]
    exact hk v t
  | short =>
    have hshort : availBits s < n := readBits_short_iff.mp hread
    rw [withField_of_short hshort, withField_of_short (s := s.withFlagsOf x) hshort]
    exact flagBlind_next rfl
  | notBound =>
    rw [withField_of_notBound hread]
    exact flagBlind_fault _ _

theorem flagBlind_withByte {s : State} {k : Byte → State → Fetched} (x : State)
    (hk : ∀ b t, Result.FlagBlind (runTurn (k b t)) (runTurn (k b (t.withFlagsOf x)))) :
    Result.FlagBlind (runTurn (withByte s k)) (runTurn (withByte (s.withFlagsOf x) k)) := by
  cases hb : inByte s s.inPos with
  | some b =>
    rw [withByte_of_bound hb, withByte_of_bound (s := s.withFlagsOf x) hb]
    exact hk b _
  | none =>
    rw [withByte_of_not_bound hb]
    exact flagBlind_fault _ _

/-! ## Emitting -/

theorem flagBlind_emit (b : Byte) (s x : State) :
    Result.FlagBlind (orOutputNotBound (emit b s)) (orOutputNotBound (emit b (s.withFlagsOf x))) := by
  by_cases hout : (outByte s s.outCount).isSome
  · rw [emit_of_bound b hout, emit_of_bound (s := s.withFlagsOf x) b hout]
    exact flagBlind_next rfl
  · rw [emit_of_not_bound b (by simpa using hout)]
    exact flagBlind_fault _ _

/-! ## The turns -/

theorem flagBlind_exec (i : Instr) (s x : State) :
    Result.FlagBlind (exec i s) (exec i (s.withFlagsOf x)) := by
  cases i with
  | brRead n =>
    rw [exec_brRead, exec_brRead, execBrRead]
    cases hread : readBits n.toNat s with
    | ok v t =>
      rw [execBrRead, readBits_withFlagsOf x hread]
      exact flagBlind_next rfl
    | short =>
      have hshort : availBits (s.withFlagsOf x) < n.toNat := readBits_short_iff (s := s) |>.mp hread
      rw [execBrRead, readBits_short_iff.mpr hshort]
      exact flagBlind_next rfl
    | notBound => exact flagBlind_fault _ _
  | lz4Literal b => exact flagBlind_emit b s x
  | lz8Literal b => exact flagBlind_emit b s x
  | illegalCommand w =>
    have hbusy : (s.withFlagsOf x).busy = s.busy := rfl
    change Result.FlagBlind (execIllegalCommand w s) (execIllegalCommand w (s.withFlagsOf x))
    rw [execIllegalCommand, execIllegalCommand, hbusy]
    cases s.busy <;> exact flagBlind_next rfl
  | _ => exact flagBlind_next rfl

theorem flagBlind_run (i : Instr) (s x : State) :
    Result.FlagBlind (runTurn (.run i s)) (runTurn (.run i (s.withFlagsOf x))) := flagBlind_exec i s x

theorem flagBlind_crcRunStep (s x : State) : Result.FlagBlind (crcRunStep s) (crcRunStep (s.withFlagsOf x)) := by
  by_cases hend : s.inLen ≤ s.crcIdx
  · rw [crcRunStep_end hend, crcRunStep_end (s := s.withFlagsOf x) hend]
    exact flagBlind_next rfl
  · have hlt := BitVec.not_le.mp hend
    cases hb : inByte s s.crcIdx with
    | some b =>
      rw [crcRunStep_byte hlt hb, crcRunStep_byte (s := s.withFlagsOf x) hlt hb]
      exact flagBlind_next rfl
    | none =>
      rw [crcRunStep_notBound hlt hb]
      exact flagBlind_fault _ _

theorem flagBlind_storeRunStep (s x : State) : Result.FlagBlind (storeRunStep s) (storeRunStep (s.withFlagsOf x)) := by
  by_cases hroom : s.outCount = s.outLimit
  · rw [storeRunStep_at_limit hroom, storeRunStep_at_limit (s := s.withFlagsOf x) hroom]
    exact flagBlind_next rfl
  by_cases hend : s.inLen ≤ s.inPos
  · rw [storeRunStep_end hroom hend, storeRunStep_end (s := s.withFlagsOf x) hroom hend]
    exact flagBlind_next rfl
  · have hlt := BitVec.not_le.mp hend
    cases hb : inByte s s.inPos with
    | some b =>
      rw [storeRunStep_emit hroom hlt hb, storeRunStep_emit (s := s.withFlagsOf x) hroom hlt hb]
      exact flagBlind_emit b { s with inPos := s.inPos + 1 } x
    | none =>
      rw [storeRunStep_notBound hroom hlt hb]
      exact flagBlind_fault _ _

theorem flagBlind_copyStep (s x : State) :
    Result.FlagBlind (copyStep s.phase.token s) (copyStep s.phase.token (s.withFlagsOf x)) := by
  by_cases hroom : s.outCount = s.outLimit
  · rw [copyStep_at_limit hroom, copyStep_at_limit (s := s.withFlagsOf x) hroom]
    exact flagBlind_next rfl
  by_cases hout : (outByte s s.outCount).isSome
  · have hother : copyStep s.phase.token (s.withFlagsOf x) = .next (copyStepped (s.withFlagsOf x)) :=
      copyStep_byte (s := s.withFlagsOf x) hroom hout
    rw [copyStep_byte hroom hout, hother]
    exact flagBlind_next rfl
  · rw [copyStep_notBound _ hroom (by simpa using hout)]
    exact flagBlind_fault _ _

theorem flagBlind_underLimit {s : State} {f f' : Fetched} (x : State)
    (hf : Result.FlagBlind (runTurn f) (runTurn f')) :
    Result.FlagBlind (runTurn (underLimit s f)) (runTurn (underLimit (s.withFlagsOf x) f')) := by
  by_cases hroom : s.outCount = s.outLimit
  · rw [underLimit_at_limit hroom, underLimit_at_limit (s := s.withFlagsOf x) hroom]
    exact flagBlind_next rfl
  · rw [underLimit_below hroom, underLimit_below (s := s.withFlagsOf x) hroom]
    exact hf

/-- Both states take the same branch of a test that reads no flag. -/
theorem flagBlind_ite {c : Prop} [Decidable c] {f g f' g' : Fetched}
    (hf : Result.FlagBlind (runTurn f) (runTurn f')) (hg : Result.FlagBlind (runTurn g) (runTurn g')) :
    Result.FlagBlind (runTurn (if c then f else g)) (runTurn (if c then f' else g')) := by
  by_cases hc : c
  · rwa [if_pos hc, if_pos hc]
  · rwa [if_neg hc, if_neg hc]

theorem flagBlind_exhausted (s x : State) :
    Result.FlagBlind (runTurn (exhausted s)) (runTurn (exhausted (s.withFlagsOf x))) := flagBlind_next rfl

theorem flagBlind_fetchLz4 (s x : State) :
    Result.FlagBlind (runTurn (fetchLz4 s)) (runTurn (fetchLz4 (s.withFlagsOf x))) := by
  refine flagBlind_underLimit x (flagBlind_withField x fun flag s1 => flagBlind_ite ?_ ?_)
  · exact flagBlind_withField x fun l s2 => flagBlind_run _ s2 x
  · exact flagBlind_withField x fun p s2 => flagBlind_withField x fun n s3 => flagBlind_run _ s3 x

theorem flagBlind_fetchLz8 (s x : State) :
    Result.FlagBlind (runTurn (fetchLz8 s)) (runTurn (fetchLz8 (s.withFlagsOf x))) := by
  refine flagBlind_underLimit x (flagBlind_ite (flagBlind_ite (flagBlind_exhausted s x) ?_)
    (flagBlind_ite (flagBlind_ite (flagBlind_exhausted (useFlag s) x) ?_)
      (flagBlind_ite (flagBlind_exhausted (useFlag s) x) ?_)))
  · exact flagBlind_withByte x fun f s1 => flagBlind_run _ s1 x
  · exact flagBlind_withByte (s := useFlag s) x fun b s1 => flagBlind_run _ s1 x
  · exact flagBlind_withByte (s := useFlag s) x fun b1 s1 =>
      flagBlind_withByte (s := s1) x fun b2 s2 => flagBlind_run _ s2 x

theorem flagBlind_fetchCommand (s x : State) :
    Result.FlagBlind (runTurn (fetchCommand s)) (runTurn (fetchCommand (s.withFlagsOf x))) := by
  have hword : latchedWord (s.withFlagsOf x) = latchedWord s := rfl
  rw [fetchCommand, fetchCommand, hword]
  cases legal (latchedWord s)
  · exact flagBlind_fault _ _
  · exact flagBlind_exec _ s x

/-- Settles O53: every phase's turn is blind to the flags. -/
theorem noResultDependsOnTheFlags : Obligations.NoResultDependsOnTheFlags := by
  unfold Obligations.NoResultDependsOnTheFlags
  intro s s' t hsame h
  rw [step_withTurn_engine] at h ⊢
  rw [sameButFlags_iff] at hsame
  suffices hblind : Result.FlagBlind (runTurn (engineTurn s)) (runTurn (engineTurn (s.withFlagsOf s'))) by
    rw [hsame]
    exact hblind t h
  have hphase : (s.withFlagsOf s').phase = s.phase := rfl
  unfold engineTurn
  rw [hphase]
  cases hp : s.phase with
  | idle => exact flagBlind_next rfl
  | start => exact flagBlind_fetchCommand s s'
  | crcRun => exact flagBlind_crcRunStep s s'
  | storeRun => exact flagBlind_storeRunStep s s'
  | lz4Token => exact flagBlind_fetchLz4 s s'
  | lz4Copy =>
    have h := flagBlind_copyStep s s'
    rw [hp] at h
    exact h
  | lz8Token => exact flagBlind_fetchLz8 s s'
  | lz8Copy =>
    have h := flagBlind_copyStep s s'
    rw [hp] at h
    exact h

end Sys2Proof.Machine
end

section
/-! PROOFS. Several blocks in one system (60_exceptions.md R136): a step of one is its own, and blocks that share
written memory are a fault. -/

namespace Sys2Proof.Machine

/-- A step of a block that is there: its own step, and the test for shared memory (R136, log 17). -/
theorem systemStep_of_next {k : Nat} {sys : System} {s t : State} (hs : sys[k]? = some s) (h : step s = .next t) :
    systemStep k sys
      = if (sys.eraseIdx k).any (sharesMemory t) then .fault .instancesOverlap else .next (sys.set k t) := by
  rw [systemStep, hs]
  simp only [h]

/-- A next system comes from a next state of the block that moved. -/
theorem systemStep_eq_next {k : Nat} {sys sys' : System} {s : State} (hs : sys[k]? = some s)
    (h : systemStep k sys = .next sys') : ∃ t, step s = .next t ∧ sys' = sys.set k t := by
  cases hstep : step s with
  | next t =>
    rw [systemStep_of_next hs hstep] at h
    split_ifs at h
    cases h
    exact ⟨t, rfl, rfl⟩
  | fault r =>
    rw [systemStep, hs] at h
    simp [hstep] at h
  | refused r =>
    rw [systemStep, hs] at h
    simp [hstep] at h

/-- Some other block of the system shares memory with `t`. -/
theorem sharesWithOther_iff {k : Nat} {sys : System} {t : State} : (sys.eraseIdx k).any (sharesMemory t) = true
    ↔ ∃ j u, j ≠ k ∧ sys[j]? = some u ∧ sharesMemory t u = true := by
  simp only [List.any_eq_true, List.mem_eraseIdx_iff_getElem?]
  constructor
  · rintro ⟨u, ⟨j, hj, hu⟩, hshares⟩
    exact ⟨j, u, hj, hu, hshares⟩
  · rintro ⟨j, u, hj, hu, hshares⟩
    exact ⟨u, ⟨j, hj, hu⟩, hshares⟩

/-- OUT buffers with a bound byte at one address share memory (R136). -/
theorem sharesMemory_of_outBytes {t u : State} {a b : Word} (ha : (outByte t a).isSome) (hb : (outByte u b).isSome)
    (haddr : t.outBase + a.toNat = u.outBase + b.toNat) : sharesMemory t u = true := by
  have hoverlap : buffersOverlap t.outBase t.outMem u.outBase u.outMem = true :=
    buffersOverlap_iff.mpr
      ⟨a.toNat, (Mem.isSome_lookup_iff _ _).mp ha, b.toNat, (Mem.isSome_lookup_iff _ _).mp hb, haddr⟩
  rw [sharesMemory, hoverlap]
  rfl

/-- Settles O55: the system step replaces the block by its own next state, after the test of every other one. -/
theorem instancesAreIndependent : Obligations.InstancesAreIndependent := by
  unfold Obligations.InstancesAreIndependent
  intro k sys s hs
  refine ⟨fun sys' h => ?_, fun t u j a b hstep hj hu ha hb haddr => ?_, fun t hstep hapart => ?_⟩
  · obtain ⟨t, hstep, rfl⟩ := systemStep_eq_next hs h
    obtain ⟨hk, -⟩ := List.getElem?_eq_some_iff.mp hs
    exact ⟨List.length_set, fun j hj => List.getElem?_set_ne hj.symm, t, hstep, List.getElem?_set_self hk⟩
  · rw [systemStep_of_next hs hstep]
    exact if_pos (sharesWithOther_iff.mpr ⟨j, u, hj, hu, sharesMemory_of_outBytes ha hb haddr⟩)
  · rw [systemStep_of_next hs hstep]
    refine if_neg fun hshares => ?_
    obtain ⟨j, u, hj, hu, hshare⟩ := sharesWithOther_iff.mp hshares
    rw [hapart j u hj hu] at hshare
    cases hshare

end Sys2Proof.Machine
end

section
/-! PROOFS. A match repeats the output (44_lzss4k.md R114, 45_lzss8k.md R120, 70_reset_and_hazards.md R147): its source
in the dictionary is a position of the output, and each copied byte is the output's byte there, new ones included. -/

namespace Sys2Proof.Machine

/-- With nothing scheduled, `r` bytes of a match are still to be copied in phase `ph` (none: the token phase is back),
the next one from the output's position `p`, which the dictionary of size `d` still holds; and there is room for all. -/
structure Copying (ph : Phase) (d : DictSize) (r p : Nat) (s : State) : Prop where
  inv : s.Inv
  tracks : s.DictTracks
  silent : s.sched = []
  phase : s.phase = if r = 0 then ph.token else ph
  rem : s.matchRem = r
  room : s.outCount.toNat + r ≤ s.outLimit.toNat
  behind : p < s.outCount.toNat
  within : s.outCount.toNat ≤ p + d.size
  source : s.matchSrc.toNat = (initPos s.cfg d + p) % d.size

section OneByte
variable {ph : Phase} {d : DictSize} {r p : Nat} {s : State}

theorem Copying.phase_succ (h : Copying ph d (r + 1) p s) : s.phase = ph := h.phase

/-- The copied byte is the output's at the source's position. -/
theorem Copying.sourceByte (h : Copying ph d (r + 1) p s) (hd : ph.dict = some d) :
    outByte s (BitVec.ofNat 32 p) = some (dictByte s s.matchSrc) := by
  have hdict : s.phase.dict = some d := by rw [h.phase_succ, hd]
  have hsize : s.dsize = d := h.inv.phaseDict d hdict
  have hindex : BitVec.ofNat 13 ((initPos s.cfg d + p) % d.size) = s.matchSrc := by
    rw [← h.source, BitVec.ofNat_toNat, BitVec.setWidth_eq]
  have hwindow := ((dictTracks_iff s).mp h.tracks d hdict).window p h.behind (by rw [hsize]; exact h.within)
  rwa [hsize, hindex] at hwindow

theorem Copying.outCount_lt (h : Copying ph d (r + 1) p s) : s.outCount < s.outLimit :=
  show s.outCount.toNat < s.outLimit.toNat by
    have := h.room
    omega

/-- One step copies one byte. -/
theorem Copying.step (h : Copying ph d (r + 1) p s) (hc : ph.copying = true) : step s = .next (copyStepped s) := by
  have hcopying : s.phase.copying = true := by rw [h.phase_succ, hc]
  have hroom : s.outCount ≠ s.outLimit := BitVec.ne_of_lt h.outCount_lt
  have hbusy : s.busy = true := (busy_eq_true s).mpr (not_idle_of_decoding (decoding_of_copying hcopying))
  have hout := (h.inv.underWay hbusy).outBound_decoding (decoding_of_copying hcopying) _ h.outCount_lt
  rw [step_of_nil h.silent, ← step_withTurn_engine]
  exact step_copying hcopying hroom hout

/-- After it one byte fewer is left, from the next position. -/
theorem Copying.stepped (h : Copying ph d (r + 1) p s) (hc : ph.copying = true) (hd : ph.dict = some d) :
    Copying ph d r (p + 1) (copyStepped s) := by
  have hstep := h.step hc
  have hdict : s.phase.dict = some d := by rw [h.phase_succ, hd]
  have hsize : s.dsize = d := h.inv.phaseDict d hdict
  have hcount : (copyStepped s).outCount.toNat = s.outCount.toNat + 1 := toNat_add_one h.outCount_lt
  have hlimit : (copyStepped s).outLimit = s.outLimit := rfl
  have hsource : (copyStepped s).matchSrc = nextIdx s.dsize s.matchSrc := rfl
  have hrem : s.matchRem = r + 1 := h.rem
  have hroom := h.room
  have hbehind := h.behind
  have hwithin := h.within
  refine ⟨step_keeps_inv h.inv hstep, step_keeps_dictTracks h.inv h.tracks hstep, h.silent, ?_, ?_, ?_,
    by omega, by omega, ?_⟩
  · have hlast : s.matchRem ≤ 1 ↔ r = 0 := by omega
    simp only [copyStepped, hlast, h.phase_succ]
  · show s.matchRem - 1 = r
    omega
  · rw [hlimit]
    omega
  · rw [hsource, toNat_nextIdx, hsize, h.source, Nat.mod_add_mod]
    rfl

end OneByte

/-- The whole match: what it emits repeats the output from the source's position on, and nothing else of OUT changes. -/
theorem Copying.run {ph : Phase} {d : DictSize} {r p : Nat} {s : State} (h : Copying ph d r p s)
    (hc : ph.copying = true) (hd : ph.dict = some d) :
    ∃ t, stepN r s = .next t ∧ t.phase = ph.token ∧ t.outCount.toNat = s.outCount.toNat + r
      ∧ (∀ i : Word, i < s.outCount ∨ t.outCount ≤ i → outByte t i = outByte s i)
      ∧ ∀ k, k < r →
        outByte t (BitVec.ofNat 32 (s.outCount.toNat + k)) = outByte t (BitVec.ofNat 32 (p + k)) := by
  induction r generalizing p s with
  | zero => exact ⟨s, rfl, h.phase, rfl, fun _ _ => rfl, fun k hk => absurd hk (Nat.not_lt_zero k)⟩
  | succ r ih =>
    obtain ⟨t, hrun, hphase, hcount, hframe, hrepeat⟩ := ih (h.stepped hc hd)
    have hone : (copyStepped s).outCount.toNat = s.outCount.toNat + 1 := toNat_add_one h.outCount_lt
    have hbyte (i : Word) : outByte (copyStepped s) i
        = if i = s.outCount then some (dictByte s s.matchSrc) else outByte s i :=
      outByte_emitted h.inv.memories _ i
    have hbehind := h.behind
    have hcounts := s.outCount.isLt
    refine ⟨t, (stepN_succ (h.step hc) r).trans hrun, hphase, by omega, fun i hi => ?_, fun k hk => ?_⟩
    · have hother : i ≠ s.outCount := by
        rintro rfl
        rcases hi with hi | hi
        · exact absurd hi (BitVec.lt_irrefl _)
        · have hle : t.outCount.toNat ≤ s.outCount.toNat := hi
          omega
      rw [hframe i (hi.imp_left fun hlt => ?_), hbyte, if_neg hother]
      have hi' : i.toNat < s.outCount.toNat := hlt
      show i.toNat < (copyStepped s).outCount.toNat
      omega
    · cases k with
      | zero =>
        have hnew : outByte t s.outCount = some (dictByte s s.matchSrc) := by
          rw [hframe s.outCount (Or.inl ?_), hbyte, if_pos rfl]
          show s.outCount.toNat < (copyStepped s).outCount.toNat
          omega
        have hindex : (BitVec.ofNat 32 p).toNat = p := by
          rw [BitVec.toNat_ofNat]
          exact Nat.mod_eq_of_lt (by omega)
        have hold : outByte t (BitVec.ofNat 32 p) = some (dictByte s s.matchSrc) := by
          rw [hframe _ (Or.inl ?_), hbyte, if_neg ?_, h.sourceByte hd]
          · rintro heq
            rw [heq] at hindex
            omega
          · show (BitVec.ofNat 32 p).toNat < (copyStepped s).outCount.toNat
            omega
        rw [Nat.add_zero, Nat.add_zero, hold, BitVec.ofNat_toNat, BitVec.setWidth_eq, hnew]
      | succ k =>
        have hlater := hrepeat k (by omega)
        rw [hone] at hlater
        rwa [Nat.add_comm k 1, ← Nat.add_assoc, ← Nat.add_assoc]

/-- Settles O43: from position 0 on, the dictionary index of a written position is the position. -/
theorem lz4MatchRepeatsTheOutput : Obligations.Lz4MatchRepeatsTheOutput := by
  unfold Obligations.Lz4MatchRepeatsTheOutput
  intro s hs ht hp hsched hinit hfew hbehind hroom
  have hrem : 1 ≤ s.matchRem := hs.copying (by rw [hp]; rfl)
  have hsize : s.dsize = .k4 := hs.phaseDict _ (by rw [hp]; rfl)
  have hsrc := hs.matchSrc
  rw [hsize] at hsrc
  have hstart : initPos s.cfg .k4 = 0 := by rw [initPos, hinit]; rfl
  have h : Copying .lz4Copy .k4 s.matchRem s.matchSrc.toNat s :=
    { inv := hs, tracks := ht, silent := hsched, rem := rfl, room := hroom, behind := hbehind
      phase := by rw [hp, if_neg (by omega)]
      within := by
        simp only [DictSize.size]
        omega
      source := by rw [hstart, Nat.zero_add, Nat.mod_eq_of_lt hsrc] }
  exact h.run rfl rfl

/-- Settles O44: the distance back from the write position is the distance back in the output. -/
theorem lz8MatchRepeatsTheOutput : Obligations.Lz8MatchRepeatsTheOutput := by
  unfold Obligations.Lz8MatchRepeatsTheOutput
  intro s d hs ht hp hsched hsrc hmin hmax hroom
  have hrem : 1 ≤ s.matchRem := hs.copying (by rw [hp]; rfl)
  have hsize : s.dsize = .k8 := hs.phaseDict _ (by rw [hp]; rfl)
  have hdict : s.phase.dict = some .k8 := by rw [hp]; rfl
  have hpos := ((dictTracks_iff s).mp ht .k8 hdict).pos
  have hnear := d.isLt
  rw [hsize] at hpos
  have hsource := toNat_matchSource8 s.dictPos d
  rw [← hsrc] at hsource
  have h : Copying .lz8Copy .k8 s.matchRem (s.outCount.toNat - d.toNat) s :=
    { inv := hs, tracks := ht, silent := hsched, rem := rfl, room := hroom
      behind := by omega
      phase := by rw [hp, if_neg (by omega)]
      within := by
        simp only [DictSize.size]
        omega
      source := by
        simp only [DictSize.size] at hpos ⊢
        omega }
  obtain ⟨t, hrun, hphase, hcount, hframe, hrepeat⟩ := h.run rfl rfl
  refine ⟨t, hrun, hphase, hcount, hframe, fun k hk => ?_⟩
  have hback : s.outCount.toNat + k - d.toNat = s.outCount.toNat - d.toNat + k := by omega
  rw [hrepeat k hk, hback]

end Sys2Proof.Machine
end

section
/-! PROOFS. A launched command whose engine steps are known one by one runs through them whatever the host does
meanwhile (70_reset_and_hazards.md R144 c, d): the host's turns leave the state as it is up to what `UpToHost` leaves
out. -/

namespace Sys2Proof.Machine

/-- The state is `u` up to the host's doings, and OUT reads as `out` below `OUT_LIMIT`, and everywhere when the host was
`silent`. -/
structure Progress (silent : Prop) (u : State) (out : Word → Option Byte) (s : State) : Prop where
  upToHost : UpToHost silent u s
  output : ∀ i : Word, i < u.outLimit ∨ silent → outByte s i = out i

/-- What a turn of the host leaves of a running command. -/
structure HostMeanwhile (s t : State) : Prop where
  block : t = s.withHostOf t
  input : ∀ i : Word, i < s.inLen → inByte t i = inByte s i
  output : ∀ i : Word, i < s.outLimit → outByte t i = outByte s i

/-- A host access to a running command: `DONE` is 0 already, and the written bytes lie past the command's (R44, R65). -/
theorem HostStep.meanwhile {s t : State} (h : HostStep s t) (hb : s.busy = true) (hdone : s.done = false) :
    HostMeanwhile s t := by
  cases h with
  | illegalCommand hidle | overLimit hidle | accepted hidle | inLen hidle | outLimit hidle | crcAcc hidle
  | bindIn hidle | bindOut hidle =>
    rw [hidle] at hb
    cases hb
  | statusClear w =>
    refine ⟨?_, fun _ _ => rfl, fun _ _ => rfl⟩
    simp [statusW1c, State.withHostOf, hdone]
  | writeIn i b hduty =>
    refine ⟨rfl, fun j hj => ?_, fun _ _ => rfl⟩
    have hne : j ≠ i := fun e => absurd (hduty hb) (BitVec.not_le.mpr (e ▸ hj))
    rw [inByte, Mem.lookup_set_word, if_neg hne]
    rfl
  | writeOut i b hduty =>
    refine ⟨rfl, fun _ _ => rfl, fun j hj => ?_⟩
    have hne : j ≠ i := fun e => absurd (hduty hb) (BitVec.not_le.mpr (e ▸ hj))
    rw [outByte, Mem.lookup_set_word, if_neg hne]
    rfl
  | _ => exact ⟨rfl, fun _ _ => rfl, fun _ _ => rfl⟩

theorem hostMeanwhile_waitTurn (rest : List Turn) (s : State) : HostMeanwhile s (waitTurn rest s) := by
  rw [waitTurn_frame]
  exact ⟨rfl, fun _ _ => rfl, fun _ _ => rfl⟩

section Turns
variable {silent : Prop} {u s : State} {out : Word → Option Byte}

/-- The host was not silent, and left the command where it was. -/
theorem Progress.host {t : State} (h : Progress silent u out s) (hloud : ¬silent) (hm : HostMeanwhile s.popped t) :
    Progress silent u out t := by
  obtain ⟨⟨hblock, hinput, -⟩, houtput⟩ := h
  obtain ⟨hblock', hinput', houtput'⟩ := hm
  have hlen : s.inLen = u.inLen := by rw [hblock]; rfl
  have hlimit : s.outLimit = u.outLimit := by rw [hblock]; rfl
  refine ⟨⟨?_, fun i hi => ?_, fun hsilent => absurd hsilent hloud⟩, fun i hi => ?_⟩
  · rw [hblock'.trans (congrArg (fun x => x.popped.withHostOf t) hblock)]
    rfl
  · exact (hinput' i (hlen.symm ▸ hi)).trans (hinput i hi)
  · have hbelow := hi.resolve_right hloud
    exact (houtput' i (hlimit.symm ▸ hbelow)).trans (houtput i hi)

/-- Taking the engine's turn off the schedule. -/
theorem Progress.popped (h : Progress silent u out s) (hsched : silent → u.sched = []) :
    Progress silent u out s.popped := by
  obtain ⟨⟨hblock, hinput, hhost⟩, houtput⟩ := h
  refine ⟨⟨?_, hinput, fun hsilent => ?_⟩, houtput⟩
  · exact congrArg State.popped hblock
  · rw [congrArg State.popped (hhost hsilent)]
    simp [State.popped, hsched hsilent]

/-- An engine step that gives the block's registers the values of `u'`. -/
theorem UpToHost.advance {u' t : State} (h : UpToHost silent u s) (hhost : u' = u'.withHostOf u)
    (hlen : u'.inLen = u.inLen) (ht : t = { u'.withHostOf s with outMem := t.outMem }) : UpToHost silent u' t := by
  refine ⟨?_, fun i hi => ?_, fun hsilent => ?_⟩
  · rw [ht]
    rfl
  · have hmem : t.inMem = s.inMem := by rw [ht]; rfl
    have hmem' : u'.inMem = u.inMem := by rw [hhost]; rfl
    rw [inByte, hmem, inByte, hmem']
    exact h.input i (hlen ▸ hi)
  · have hsame := congrArg (fun x => { u'.withHostOf x with outMem := t.outMem }) (h.host hsilent)
    have hown := congrArg (fun x : State => { x with outMem := t.outMem }) hhost
    exact ht.trans (hsame.trans hown.symm)

/-- An engine step that writes no byte of OUT. -/
theorem Progress.advance {u' t : State} (h : Progress silent u out s) (hhost : u' = u'.withHostOf u)
    (hlen : u'.inLen = u.inLen) (hlimit : u'.outLimit = u.outLimit) (ht : t = u'.withHostOf s) :
    Progress silent u' out t := by
  subst ht
  exact ⟨h.upToHost.advance hhost hlen rfl, fun i hi => h.output i (hi.imp_left (hlimit ▸ ·))⟩

end Turns

/-- The engine's next turn. -/
theorem step_of_engine_turn {s : State} (h : s.turn = .engine) : step s = runTurn (engineTurn s.popped) := by
  unfold State.popped
  cases hsched : s.sched with
  | nil =>
    have hsame : { s with sched := [].tail } = s := by rw [List.tail_nil, ← hsched]
    rw [step_of_nil hsched, hsame]
  | cons turn rest =>
    rw [State.turn, hsched, List.headD_cons] at h
    subst h
    rw [step_of_engine hsched, List.tail_cons]

/-- A turn of the host or the wait loop that is allowed is answered, and the schedule was not empty. -/
theorem step_of_host_turn {s : State} (hb : s.busy = true) (hdone : s.done = false)
    (hallowed : s.turn.allowed s = true) (h : s.turn ≠ .engine) :
    s.sched ≠ [] ∧ ∃ t, step s = .next t ∧ HostMeanwhile s.popped t := by
  cases hsched : s.sched with
  | nil => exact absurd (by rw [State.turn, hsched]; rfl) h
  | cons turn rest =>
    have hturn : s.turn = turn := by rw [State.turn, hsched]; rfl
    have hpopped : s.popped = { s with sched := rest } := by rw [State.popped, hsched, List.tail_cons]
    refine ⟨List.cons_ne_nil _ _, ?_⟩
    rw [hturn] at hallowed h
    rw [hpopped]
    cases turn with
    | engine => exact absurd rfl h
    | reset => cases hallowed
    | wait => exact ⟨_, step_of_wait hsched, hostMeanwhile_waitTurn rest { s with sched := rest }⟩
    | host op =>
      rw [← allowed_withSched s rest] at hallowed
      obtain ⟨t, ht⟩ := hostTurn_answers (s := { s with sched := rest }) hb hallowed
      exact ⟨t, (step_of_host hsched).trans ht, (hostTurn_next ht).meanwhile hb hdone⟩

/-- The states a command goes through when it is alone, and what they make of OUT: while it runs, an engine turn leads
from each, up to the host's doings, to the next. -/
structure RunsThrough (silent : Prop) (u : Nat → State) (out : Nat → Word → Option Byte) (n : Nat) : Prop where
  sched : silent → ∀ m, (u m).sched = []
  running : ∀ m, m < n → (u m).busy = true ∧ (u m).done = false
  engine : ∀ m, m < n → ∀ s, Progress silent (u m) (out m) s →
    ∃ t, runTurn (engineTurn s) = .next t ∧ Progress silent (u (m + 1)) (out (m + 1)) t

/-- Such a command, undisturbed, reaches its last state in that many engine turns. -/
theorem RunsThrough.reaches {silent : Prop} {u : Nat → State} {out : Nat → Word → Option Byte} {n : Nat}
    (hruns : RunsThrough silent u out n) {k m : Nat} {s : State} (hm : m ≤ n) (h : Progress silent (u m) (out m) s)
    (hundisturbed : State.undisturbed k s = true) (hturns : n ≤ m + engineTurns k s) :
    ∃ j t, j ≤ k ∧ stepN j s = .next t ∧ m + engineTurns j s = n ∧ Progress silent (u n) (out n) t := by
  induction k generalizing m s with
  | zero =>
    have hend : m = n := Nat.le_antisymm hm hturns
    exact ⟨0, s, Nat.le_refl 0, rfl, hend, hend ▸ h⟩
  | succ k ih =>
    rcases Nat.eq_or_lt_of_le hm with rfl | hlt
    · exact ⟨0, s, Nat.zero_le _, rfl, rfl, h⟩
    obtain ⟨hbusy, hdone⟩ := hruns.running m hlt
    have hb : s.busy = true := by
      rw [h.upToHost.block]
      exact hbusy
    have hd : s.done = false := by
      rw [h.upToHost.block]
      exact hdone
    obtain ⟨hallowed, hrest⟩ := undisturbed_succ hb hundisturbed
    by_cases hturn : s.turn = .engine
    · obtain ⟨t, ht, hnext⟩ := hruns.engine m hlt s.popped (h.popped fun hsilent => hruns.sched hsilent m)
      have hstep := (step_of_engine_turn hturn).trans ht
      rw [engineTurns_succ hstep, if_pos hturn] at hturns
      obtain ⟨j, v, hj, hrun, hcount, hlast⟩ := ih hlt hnext (hrest t hstep) (by omega)
      refine ⟨j + 1, v, by omega, (stepN_succ hstep j).trans hrun, ?_, hlast⟩
      rw [engineTurns_succ hstep, if_pos hturn]
      omega
    · obtain ⟨hsched, t, hstep, hmeanwhile⟩ := step_of_host_turn hb hd hallowed hturn
      have hloud : ¬silent := fun hsilent => hsched <| by
        rw [h.upToHost.host hsilent]
        exact hruns.sched hsilent m
      rw [engineTurns_succ hstep, if_neg hturn] at hturns
      obtain ⟨j, v, hj, hrun, hcount, hlast⟩ := ih hm (h.host hloud hmeanwhile) (hrest t hstep) (by omega)
      refine ⟨j + 1, v, by omega, (stepN_succ hstep j).trans hrun, ?_, hlast⟩
      rw [engineTurns_succ hstep, if_neg hturn]
      omega

/-- From its launch on: the host's write accepts it, and is no engine turn (R67). -/
theorem RunsThrough.of_launched {u : Nat → State} {out : Nat → Word → Option Byte} {n k : Nat} {s : State} {w : Word}
    (hruns : RunsThrough (s.sched.tail = []) u out n) (hlaunch : s.Launched w k) (hmem : s.memWf = true)
    (hstart : u 0 = accept w s.popped) (hout : out 0 = outByte s) (hturns : n ≤ engineTurns (k + 1) s) :
    ∃ j t, j ≤ k ∧ stepN (j + 1) s = .next t ∧ engineTurns (j + 1) s = n
      ∧ Progress (s.sched.tail = []) (u n) (out n) t := by
  have hstep := step_of_launched hlaunch hmem
  have hcount (j : Nat) : engineTurns (j + 1) s = 0 + engineTurns j (accept w s.popped) := by
    rw [engineTurns_succ hstep, hlaunch.issued]
    simp
  rw [hcount] at hturns
  have hfirst : Progress (s.sched.tail = []) (u 0) (out 0) (accept w s.popped) := by
    rw [hstart, hout]
    exact ⟨⟨rfl, fun _ _ => rfl, fun _ => rfl⟩, fun _ _ => rfl⟩
  obtain ⟨j, t, hj, hrun, hend, hlast⟩ := hruns.reaches (Nat.zero_le n) hfirst hlaunch.undisturbed hturns
  exact ⟨j, t, hj, (stepN_succ hstep j).trans hrun, (hcount j).trans hend, hlast⟩

end Sys2Proof.Machine
end

section
/-! PROOFS. `CRC_BUF` and `DEC_STORE` from launch to end (41_crc.md R87, R88, 43_decode_common.md R105, R106): the
states they go through, and that each engine turn leads to the next. -/

namespace Sys2Proof.Machine

theorem toNat_ofNat_word {i : Nat} {x : Word} (h : i ≤ x.toNat) : (BitVec.ofNat 32 i).toNat = i := by
  have := x.isLt
  rw [BitVec.toNat_ofNat]
  exact Nat.mod_eq_of_lt (by omega)

theorem ofNat_lt_word {i : Nat} {x : Word} (h : i < x.toNat) : BitVec.ofNat 32 i < x :=
  show (BitVec.ofNat 32 i).toNat < x.toNat by rwa [toNat_ofNat_word (Nat.le_of_lt h)]

theorem ofNat_add_one (i : Nat) : BitVec.ofNat 32 i + 1 = BitVec.ofNat 32 (i + 1) := by
  exact (BitVec.ofNat_add i 1).symm

/-- In `START` the engine's turn of a state that is an accepted one up to the host's doings runs the command. -/
theorem engineTurn_accepted {silent : Prop} {w : Word} {u s : State} (hlegal : legal w = true)
    (h : UpToHost silent (accept w u) s) : engineTurn s = .run (decodeCommand w) s := by
  have hp : s.phase = .start := by rw [h.block]; rfl
  have hword : latchedWord s = w := by
    rw [h.block]
    exact latchedWord_accept hlegal u
  rw [engineTurn, hp, fetchCommand, hword, hlegal]

/-! ## `CRC_BUF` -/

/-- `CRC_RUN` with `i` bytes folded, in a command accepted in `u`. -/
def crcRunning (u : State) (bytes : List Byte) (i : Nat) : State :=
  { u with crcAcc := crcFold u.crcAcc (bytes.take i), crcIdx := BitVec.ofNat 32 i, phase := .crcRun }

/-- All bytes folded and the command ended. -/
def crcEnded (u : State) (bytes : List Byte) : State :=
  { u with crcAcc := crcFold u.crcAcc bytes, crcIdx := u.inLen, phase := .idle, done := true }

/-- `CRC_BUF` from its acceptance in `u` on, after `m` engine turns: the START step, one step for each byte, the end. -/
def crcBufAfter (u : State) (bytes : List Byte) : Nat → State
  | 0 => u
  | i + 1 => if i ≤ bytes.length then crcRunning u bytes i else crcEnded u bytes

theorem crcBufAfter_running {u : State} {bytes : List Byte} {i : Nat} (h : i ≤ bytes.length) :
    crcBufAfter u bytes (i + 1) = crcRunning u bytes i := if_pos h

theorem crcBufAfter_ended (u : State) (bytes : List Byte) :
    crcBufAfter u bytes (bytes.length + 2) = crcEnded u bytes := if_neg (by omega)

theorem crcFold_take_succ {bytes : List Byte} {i : Nat} (acc : Half) (h : i < bytes.length) :
    crcFold acc (bytes.take (i + 1)) = crcStep (crcFold acc (bytes.take i)) bytes[i] := by
  rw [List.take_succ_eq_append_getElem h, crcFold, List.foldl_append]
  rfl

section CrcBuf
variable {silent : Prop} {u t : State} {out : Word → Option Byte} {bytes : List Byte}

/-- R87. -/
theorem crcBuf_start (h : Progress silent (accept 0x00000003 u) out t) :
    ∃ v, runTurn (engineTurn t) = .next v ∧ Progress silent (crcRunning (accept 0x00000003 u) bytes 0) out v := by
  have hrun := engineTurn_accepted (w := 0x00000003) (by decide) h.upToHost
  refine ⟨{ t with crcIdx := 0, phase := .crcRun }, by rw [hrun]; rfl, h.advance rfl rfl rfl ?_⟩
  exact congrArg (fun x : State => { x with crcIdx := 0, phase := .crcRun }) h.upToHost.block

/-- R88, one byte. -/
theorem crcBuf_byte {i : Nat} (h : Progress silent (crcRunning u bytes i) out t) (hi : i < bytes.length)
    (hlen : bytes.length = u.inLen.toNat) (hbyte : inByte u (BitVec.ofNat 32 i) = some bytes[i]) :
    ∃ v, runTurn (engineTurn t) = .next v ∧ Progress silent (crcRunning u bytes (i + 1)) out v := by
  have hblock := h.upToHost.block
  have hp : t.phase = .crcRun := by rw [hblock]; rfl
  have hidx : t.crcIdx = BitVec.ofNat 32 i := by rw [hblock]; rfl
  have htlen : t.inLen = u.inLen := by rw [hblock]; rfl
  have hlt : BitVec.ofNat 32 i < u.inLen := ofNat_lt_word (hlen ▸ hi)
  have hread : inByte t t.crcIdx = some bytes[i] := by
    rw [hidx]
    exact (h.upToHost.input _ hlt).trans hbyte
  refine ⟨{ t with crcAcc := crcStep t.crcAcc bytes[i], crcIdx := t.crcIdx + 1 }, ?_,
    h.advance (u' := crcRunning u bytes (i + 1)) rfl rfl rfl ?_⟩
  · rw [engineTurn_crcRun hp, runTurn, crcRunStep_byte (by rwa [hidx, htlen]) hread]
  · rw [crcRunning, crcFold_take_succ _ hi, ← ofNat_add_one]
    exact congrArg (fun x : State => { x with crcAcc := crcStep x.crcAcc bytes[i], crcIdx := x.crcIdx + 1 }) hblock

/-- R88, all bytes read. -/
theorem crcBuf_end (h : Progress silent (crcRunning u bytes bytes.length) out t)
    (hlen : bytes.length = u.inLen.toNat) :
    ∃ v, runTurn (engineTurn t) = .next v ∧ Progress silent (crcEnded u bytes) out v := by
  have hblock := h.upToHost.block
  have hp : t.phase = .crcRun := by rw [hblock]; rfl
  have hlast : BitVec.ofNat 32 bytes.length = u.inLen := by rw [hlen, BitVec.ofNat_toNat, BitVec.setWidth_eq]
  have hidx : t.inLen ≤ t.crcIdx := by
    rw [hblock]
    exact BitVec.le_of_eq hlast.symm
  refine ⟨finish t, ?_, h.advance (u' := crcEnded u bytes) rfl rfl rfl ?_⟩
  · rw [engineTurn_crcRun hp, runTurn, crcRunStep_end hidx]
  · rw [crcRunning, List.take_length, hlast] at hblock
    exact congrArg finish hblock

end CrcBuf

theorem crcBuf_runsThrough {s : State} {bytes : List Byte} (hlen : bytes.length = s.inLen.toNat)
    (hbytes : ∀ i (h : i < bytes.length), inByte s (BitVec.ofNat 32 i) = some bytes[i]) :
    RunsThrough (s.sched.tail = []) (crcBufAfter (accept 0x00000003 s.popped) bytes) (fun _ => outByte s)
      (bytes.length + 2) where
  sched hsilent m := by
    cases m with
    | zero => exact hsilent
    | succ i =>
      rw [crcBufAfter]
      split <;> exact hsilent
  running m hm := by
    cases m with
    | zero => exact ⟨rfl, rfl⟩
    | succ i =>
      rw [crcBufAfter_running (by omega)]
      exact ⟨rfl, rfl⟩
  engine m hm t h := by
    cases m with
    | zero =>
      rw [crcBufAfter_running (Nat.zero_le _)]
      exact crcBuf_start h
    | succ i =>
      rw [crcBufAfter_running (by omega)] at h
      by_cases hi : i < bytes.length
      · rw [crcBufAfter_running hi]
        exact crcBuf_byte h hi hlen (hbytes i hi)
      · obtain rfl : i = bytes.length := by omega
        rw [crcBufAfter_ended]
        exact crcBuf_end h hlen

/-- Settles O40: the START step, one step for each byte and the last one, the host's turns leaving them alone. -/
theorem crcBufFoldsTheWholeInput : Obligations.CrcBufFoldsTheWholeInput := by
  unfold Obligations.CrcBufFoldsTheWholeInput
  intro s k bytes hlaunch hmem hlen hbytes hturns
  have hruns := crcBuf_runsThrough hlen hbytes
  rw [← hlen] at hturns ⊢
  obtain ⟨j, t, hj, hrun, hcount, hup, hout⟩ := hruns.of_launched hlaunch hmem rfl rfl hturns
  rw [crcBufAfter_ended] at hup hout
  exact ⟨j, t, hj, hrun, hcount, hup, hout⟩

/-! ## `DEC_STORE` -/

/-- `STORE_RUN` with `i` bytes copied, in a command accepted in `u`. -/
def storeRunning (u : State) (i : Nat) : State :=
  { u with
    inPos := BitVec.ofNat 32 i, brBuf := 0, brCount := 0, outCount := BitVec.ofNat 32 i, phase := .storeRun }

/-- `n` bytes copied and the command ended at the bound it met (R105, R106). -/
def storeEnded (u : State) (n : Nat) : State :=
  { u with
    inPos := BitVec.ofNat 32 n, brBuf := 0, brCount := 0, outCount := BitVec.ofNat 32 n
    stop := if u.inLen < u.outLimit then .exhaust else .limit, phase := .idle, done := true }

/-- `DEC_STORE` from its acceptance in `u` on, after `m` engine turns: the START step, one step for each of `n` bytes,
the end. -/
def decStoreAfter (u : State) (n : Nat) : Nat → State
  | 0 => u
  | i + 1 => if i ≤ n then storeRunning u i else storeEnded u n

/-- OUT with the first `i` bytes of IN copied into it. -/
def outCopied (u : State) (i : Nat) (j : Word) : Option Byte := if j.toNat < i then inByte u j else outByte u j

theorem decStoreAfter_running {u : State} {n i : Nat} (h : i ≤ n) : decStoreAfter u n (i + 1) = storeRunning u i :=
  if_pos h

theorem decStoreAfter_ended (u : State) (n : Nat) : decStoreAfter u n (n + 2) = storeEnded u n := if_neg (by omega)

section DecStore
variable {silent : Prop} {u t : State} {out : Word → Option Byte}

/-- R105. -/
theorem decStore_start (h : Progress silent (accept 0x00000006 u) out t) :
    ∃ v, runTurn (engineTurn t) = .next v ∧ Progress silent (storeRunning (accept 0x00000006 u) 0) out v := by
  have hrun := engineTurn_accepted (w := 0x00000006) (by decide) h.upToHost
  refine ⟨{ decInit t with phase := .storeRun }, by rw [hrun]; rfl, h.advance rfl rfl rfl ?_⟩
  exact congrArg (fun x : State => { decInit x with phase := .storeRun }) h.upToHost.block

/-- R106, one byte. -/
theorem decStore_byte {i : Nat} (h : Progress silent (storeRunning u i) (outCopied u i) t) (hop : u.curOp = 0x6#4)
    (hi : i < min u.inLen.toNat u.outLimit.toNat) (hin : u.inBound) (hout : u.outBound) :
    ∃ v, runTurn (engineTurn t) = .next v ∧ Progress silent (storeRunning u (i + 1)) (outCopied u (i + 1)) v := by
  obtain ⟨hiIn, hiOut⟩ := lt_min_iff.mp hi
  have hblock := h.upToHost.block
  have hp : t.phase = .storeRun := by rw [hblock]; rfl
  have hpos : t.inPos = BitVec.ofNat 32 i := by rw [hblock]; rfl
  have hcount : t.outCount = BitVec.ofNat 32 i := by rw [hblock]; rfl
  have hlen : t.inLen = u.inLen := by rw [hblock]; rfl
  have hlimit : t.outLimit = u.outLimit := by rw [hblock]; rfl
  have hdict : usesDict { t with inPos := t.inPos + 1 } = false := by
    rw [hblock]
    simp [usesDict, State.withHostOf, storeRunning, hop]
  have hltIn : BitVec.ofNat 32 i < u.inLen := ofNat_lt_word hiIn
  have hltOut : BitVec.ofNat 32 i < u.outLimit := ofNat_lt_word hiOut
  have hindex : (BitVec.ofNat 32 i).toNat = i := toNat_ofNat_word (Nat.le_of_lt hiIn)
  obtain ⟨b, hb⟩ := Option.isSome_iff_exists.mp (hin _ hltIn)
  have hread : inByte t t.inPos = some b := by
    rw [hpos]
    exact (h.upToHost.input _ hltIn).trans hb
  have hwrite : (outByte t t.outCount).isSome := by
    rw [hcount, h.output _ (Or.inl hltOut), outCopied, if_neg (by omega)]
    exact hout _ hltOut
  refine ⟨{ t with
      inPos := t.inPos + 1, outMem := Mem.set none t.outMem t.outCount.toNat b, outCount := t.outCount + 1 },
    ?_, h.upToHost.advance (u' := storeRunning u (i + 1)) rfl rfl ?_, fun j hj => ?_⟩
  · rw [engineTurn_storeRun hp, runTurn,
      storeRunStep_byte (by rw [hcount, hlimit]; exact BitVec.ne_of_lt hltOut) (by rwa [hpos, hlen]) hread hwrite,
      emitted_of_not_usesDict b hdict]
  · rw [storeRunning, ← ofNat_add_one]
    exact congrArg (fun x : State => { x with
      inPos := x.inPos + 1, outCount := x.outCount + 1, outMem := Mem.set none t.outMem t.outCount.toNat b }) hblock
  · rw [outByte, Mem.lookup_set_word, hcount, outCopied]
    by_cases hnew : j = BitVec.ofNat 32 i
    · rw [if_pos hnew, if_pos (by rw [hnew, hindex]; omega), hnew, hb]
    · have hother : j.toNat ≠ i := fun e => hnew (BitVec.eq_of_toNat_eq (by rw [hindex, e]))
      have hsame : j.toNat < i + 1 ↔ j.toNat < i := by omega
      rw [if_neg hnew]
      simp only [hsame]
      exact h.output j hj

/-- R106, a bound met. -/
theorem decStore_end {n : Nat} (h : Progress silent (storeRunning u n) out t)
    (hn : n = min u.inLen.toNat u.outLimit.toNat) :
    ∃ v, runTurn (engineTurn t) = .next v ∧ Progress silent (storeEnded u n) out v := by
  have hblock := h.upToHost.block
  have hp : t.phase = .storeRun := by rw [hblock]; rfl
  have hpos : t.inPos = BitVec.ofNat 32 n := by rw [hblock]; rfl
  have hcount : t.outCount = BitVec.ofNat 32 n := by rw [hblock]; rfl
  have hlen : t.inLen = u.inLen := by rw [hblock]; rfl
  have hlimit : t.outLimit = u.outLimit := by rw [hblock]; rfl
  have hindex : (BitVec.ofNat 32 n).toNat = n := toNat_ofNat_word (x := u.inLen) (by omega)
  by_cases hless : u.inLen < u.outLimit
  · have hlt : u.inLen.toNat < u.outLimit.toNat := hless
    have hroom : t.outCount ≠ t.outLimit := by
      rw [hcount, hlimit]
      intro e
      have := congrArg BitVec.toNat e
      omega
    have hend : t.inLen ≤ t.inPos := by
      rw [hpos, hlen]
      show u.inLen.toNat ≤ (BitVec.ofNat 32 n).toNat
      omega
    refine ⟨finishWith .exhaust t, ?_, h.advance (u' := storeEnded u n) rfl rfl rfl ?_⟩
    · rw [engineTurn_storeRun hp, runTurn, storeRunStep_end hroom hend]
    · rw [storeEnded, if_pos hless]
      exact congrArg (finishWith .exhaust) hblock
  · have hge : u.outLimit.toNat ≤ u.inLen.toNat := BitVec.not_lt.mp hless
    have hroom : t.outCount = t.outLimit := by
      rw [hcount, hlimit]
      exact BitVec.eq_of_toNat_eq (by omega)
    refine ⟨finishWith .limit t, ?_, h.advance (u' := storeEnded u n) rfl rfl rfl ?_⟩
    · rw [engineTurn_storeRun hp, runTurn, storeRunStep_at_limit hroom]
    · rw [storeEnded, if_neg hless]
      exact congrArg (finishWith .limit) hblock

end DecStore

/-- What the copy of `n` bytes has made of OUT after `m` engine turns. -/
def decStoreOut (u : State) (n m : Nat) : Word → Option Byte := outCopied u (min (m - 1) n)

theorem decStoreOut_running {u : State} {n i : Nat} (h : i ≤ n) : decStoreOut u n (i + 1) = outCopied u i :=
  congrArg (outCopied u) (Nat.min_eq_left h)

theorem decStoreOut_ended (u : State) (n : Nat) : decStoreOut u n (n + 2) = outCopied u n :=
  congrArg (outCopied u) (Nat.min_eq_right (Nat.le_succ n))

theorem decStoreOut_zero (u : State) (n : Nat) : decStoreOut u n 0 = outByte u := by
  funext j
  rw [decStoreOut, Nat.zero_sub, Nat.zero_min, outCopied, if_neg (Nat.not_lt_zero _)]

theorem decStore_runsThrough {s : State} {n : Nat} (hn : n = min s.inLen.toNat s.outLimit.toNat) (hin : s.inBound)
    (hout : s.outBound) :
    RunsThrough (s.sched.tail = []) (decStoreAfter (accept 0x00000006 s.popped) n) (decStoreOut s n) (n + 2) where
  sched hsilent m := by
    cases m with
    | zero => exact hsilent
    | succ i =>
      rw [decStoreAfter]
      split <;> exact hsilent
  running m hm := by
    cases m with
    | zero => exact ⟨rfl, rfl⟩
    | succ i =>
      rw [decStoreAfter_running (by omega)]
      exact ⟨rfl, rfl⟩
  engine m hm t h := by
    cases m with
    | zero =>
      have hsame : decStoreOut s n (0 + 1) = decStoreOut s n 0 := rfl
      rw [decStoreAfter_running (Nat.zero_le _), hsame]
      exact decStore_start h
    | succ i =>
      rw [decStoreAfter_running (by omega), decStoreOut_running (by omega)] at h
      by_cases hi : i < n
      · rw [decStoreAfter_running hi, decStoreOut_running hi]
        exact decStore_byte h rfl (hn ▸ hi) hin hout
      · obtain rfl : i = n := by omega
        rw [decStoreAfter_ended, decStoreOut_ended]
        exact decStore_end h hn

/-- Settles O41: the START step, one step for each byte and the last one, the host's turns leaving them alone. -/
theorem decStoreCopiesTheSmallerLength : Obligations.DecStoreCopiesTheSmallerLength := by
  unfold Obligations.DecStoreCopiesTheSmallerLength
  intro s k hlaunch hmem n hturns
  have hruns := decStore_runsThrough (n := n) rfl (hlaunch.inBound (by decide)) (hlaunch.outBound (by decide))
  obtain ⟨j, t, hj, hrun, hcount, hup, hout⟩ := hruns.of_launched hlaunch hmem rfl (decStoreOut_zero s n) hturns
  rw [decStoreAfter_ended] at hup hout
  rw [decStoreOut_ended] at hout
  exact ⟨j, t, hj, hrun, hcount, hup, hout⟩

end Sys2Proof.Machine
end
